-- ==== Sys2Proof/Word.lean ====
section
/-! DEFINITION. The block's word types: bytes, levels, pin roles (00_scope.md R8; 10_state.md R11). -/

namespace Sys2Proof

/-- An 8-bit pattern: a table entry, an operand byte, a byte of a command. -/
abbrev Byte := BitVec 8

/-- `Glyph` of R11: 7 segment bits and 1 point bit, 1 = lit. Equality is by encoded value (R87). -/
abbrev Glyph := BitVec 8

/-- `Char` of R11: a character code of `CHAR_BITS` bits. `CHAR_BITS` is a parameter, so the code is a natural and its
bound is checked where an operation is issued (log entries 14, 15). -/
abbrev CharCode := Nat

/-- A logic level (R8): as a bit, `low` is 0 and `high` is 1. -/
inductive Level where
  | low
  | high
deriving DecidableEq, Repr, Inhabited

/-- The bit a level stands for (R8). -/
def Level.bit : Level → Bool
  | .low => false
  | .high => true

/-- The level of a bit (R8, R54): 1 is `high`. -/
def Level.ofBit : Bool → Level
  | false => .low
  | true => .high

/-- The four pin roles (44_serializer.md R110). -/
inductive PinRole where
  | data
  | clock
  | latch
  | enable
deriving DecidableEq, Repr

/-- One value for each pin role. -/
structure PerPin (α : Type) where
  data : α
  clock : α
  latch : α
  enable : α
deriving DecidableEq, Repr, Inhabited

/-- The value of one role. -/
def PerPin.get {α : Type} (x : PerPin α) : PinRole → α
  | .data => x.data
  | .clock => x.clock
  | .latch => x.latch
  | .enable => x.enable

/-- `x` with the value of one role replaced. -/
def PerPin.set {α : Type} (x : PerPin α) (p : PinRole) (a : α) : PerPin α :=
  match p with
  | .data => { x with data := a }
  | .clock => { x with clock := a }
  | .latch => { x with latch := a }
  | .enable => { x with enable := a }

/-- The same value for every role. -/
def PerPin.all {α : Type} (a : α) : PerPin α := ⟨a, a, a, a⟩

/-- The four pin identifiers, "each an arbitrary non-negative integer" (10_state.md R15). -/
abbrev PinIds := PerPin Nat

/-- The identifiers are pairwise distinct (R15, R111). -/
def PinIds.distinct (p : PinIds) : Bool :=
  p.data ≠ p.clock && p.data ≠ p.latch && p.data ≠ p.enable &&
    p.clock ≠ p.latch && p.clock ≠ p.enable && p.latch ≠ p.enable

end Sys2Proof
end

