-- ==== Sys2Proof/Config.lean ====
section
/-! DEFINITION. What an implementation fixes (00_scope.md R5 to R7) and the free values the spec leaves
open (93_implementation_defined.md). A free value is a constant with no body: nothing can be proved of it. -/

namespace Sys2Proof

/-- `IND_ORDER` (R7, 30_encoding.md R52): the order of the indicator bits on the wire. -/
inductive IndOrder where
  | bgr
  | gbr
deriving DecidableEq, Repr, Inhabited

/-- `DP_PLACEMENT` (R7, 43_frame_format.md R103): the integer digit that carries the point. -/
inductive DpPlacement where
  | rightmostInteger
  | leftmostInteger
deriving DecidableEq, Repr, Inhabited

/-- `ROUND_MODE` (R7, 40_digit_arithmetic.md R74). -/
inductive RoundMode where
  | halfEven
  | halfUp
deriving DecidableEq, Repr, Inhabited

/-- What a failed ENABLE write of OPEN or CLOSE does to the register: 60_exceptions.md R136 rows 2 and 3 say it is
unchanged, 20_memory.md R39 (and U1) that it is unspecified. Which holds is an argument of the model (log entry 18). -/
inductive FailedEnableWrite where
  | keepsRegister
  | losesRegister
deriving DecidableEq, Repr, Inhabited

/-- The parameters of R7, each an argument of the model (the pin identifiers are an operand of OPEN). The three keys every `SYM` has are held apart from
the others (20_memory.md R31): the space is always 0x00, so it needs no field (log entry 12). `pointBit` is the
position of the one bit set in `POINT_MASK` (log entry 13). `failedEnableWrite` is the model's own (log entry 18). -/
structure Params where
  digit : Vector Byte 10
  symMinus : Byte
  symQuestion : Byte
  symOther : List (CharCode × Byte)
  pointBit : Fin 8
  indOrder : IndOrder
  dpPlacement : DpPlacement
  roundMode : RoundMode
  decMaxScale : Nat
  decCoeffBits : Nat
  charBits : Nat
  srLen : Nat
  tWaitMicros : Nat
  failedEnableWrite : FailedEnableWrite
deriving DecidableEq, Repr, Inhabited

namespace Config

/-- `CHARACTER_COUNT` (R5). -/
def characterCount : Nat := 3

/-- `MAX_DECIMAL` (R5); `MIN_DECIMAL` is its negative. -/
def maxDecimal : Nat := 999

/-- The default of `DEC_MAX_SCALE` (R7, D17). -/
def decMaxScale : Nat := 28

/-- The default of `DEC_COEFF_BITS` (R7, D17). -/
def decCoeffBits : Nat := 96

/-- The default of `CHAR_BITS` (R7, D6). -/
def charBits : Nat := 8

/-- The default of `SR_LEN` (R7, D23). -/
def srLen : Nat := 32

/-- The default pin identifiers (R6): data 22, clock 23, latch 24, enable 25. -/
def defaultPins : PinIds := ⟨22, 23, 24, 25⟩

/-- `T_WAIT` in microseconds (R6, R7): the reference 10. -/
def tWaitMicros : Nat := 10

/-- Free value: the contents of `DIGIT` (20_memory.md R30, 91_not_in_source.md N3). Log entry 11. -/
opaque digitTable : Vector Byte 10

/-- Free value: `SYM['-']` (20_memory.md R31, N4). Log entry 11. -/
opaque minusGlyph : Byte

/-- Free value: `SYM['?']` (20_memory.md R31, N4). Log entry 11. -/
opaque questionGlyph : Byte

/-- Free value: the other keys of `SYM` (20_memory.md R31, N4). Log entry 11. -/
opaque symbolTable : List (CharCode × Byte)

/-- Free value: which bit is the point (N5). Log entry 11. -/
opaque pointBit : Fin 8

/-- Free value: the pin levels at power-on (10_state.md R23, U2). Log entry 9. -/
opaque powerOnLevels : PerPin Level

/-- Free value: the stages of `env.sr` at power-on (R23, U3). Log entry 9. -/
opaque powerOnChain : Nat → Bool

/-- Free value: the stages of `env.q` at power-on (R23, U3). Log entry 9. -/
opaque powerOnOutputs : Nat → Bool

/-- Free value: the backend's answer to a request (20_memory.md R34). Log entry 6. -/
opaque backendAnswer : Nat → Bool

/-- Free value: a level the spec leaves unspecified (R18, R136, U2). Log entry 7. -/
opaque freeLevel : Nat → Level

/-- Free value: a stage of the register the spec leaves unspecified (R136, U1). Log entry 8. -/
opaque freeStage : Nat → Bool

/-- Free value: which of R39 and R136 a failed ENABLE write follows. Log entry 18. -/
opaque failedEnableWrite : FailedEnableWrite

/-- The parameters at reset: the tables, the point bit and `failedEnableWrite` are free values, the others the defaults
of R7. -/
def params : Params where
  digit := digitTable
  symMinus := minusGlyph
  symQuestion := questionGlyph
  symOther := symbolTable
  pointBit := pointBit
  indOrder := .bgr
  dpPlacement := .rightmostInteger
  roundMode := .halfEven
  decMaxScale := decMaxScale
  decCoeffBits := decCoeffBits
  charBits := charBits
  srLen := srLen
  tWaitMicros := tWaitMicros
  failedEnableWrite := failedEnableWrite

end Config

end Sys2Proof
end

