-- ==== Sys2Proof/Syntax.lean ====
section
/-! DEFINITION. The operations of the block and their operands (30_encoding.md R55, R58; 10_state.md R11). -/

namespace Sys2Proof

/-- `Decimal` of 40_digit_arithmetic.md R70: the number (−1)^neg × coeff / 10^scale. -/
structure Decimal where
  neg : Bool
  coeff : Nat
  scale : Nat
deriving DecidableEq, Repr, Inhabited

/-- `Frame` of R11: three glyphs (slot 2 leftmost, slot 0 rightmost) and three indicators, each always
present (R24). -/
structure Frame where
  g2 : Glyph
  g1 : Glyph
  g0 : Glyph
  red : Bool
  green : Bool
  blue : Bool
deriving DecidableEq, Repr, Inhabited

/-- The 18 operations of R58, operands in the order of that table. The `ind` and `index` operands keep their two
bits, so that the illegal code 3 can be written; `d` keeps its four (R55). An optional operand has its default. -/
inductive Instr where
  /-- INT_DIGITS(v), R71 -/
  | intDigits (v : Decimal)
  /-- FRAC_DIGITS(v), R72 -/
  | fracDigits (v : Decimal)
  /-- DIGIT_AT(v, i), R73 -/
  | digitAt (v : Decimal) (i : Int)
  /-- ENC_DIGIT(d, point), R82; "optional decimal-point flag", default 0 (R55) -/
  | encDigit (d : BitVec 4) (point : Bool := false)
  /-- ENC_SYMBOL(c, point), R84; point default 0 -/
  | encSymbol (c : CharCode) (point : Bool := false)
  /-- ENC_RAW(raw), R85 -/
  | encRaw (raw : Byte)
  /-- FRAME_NEW(g2, g1, g0, red, green, blue), R90: "an indicator operand left out is 0" -/
  | frameNew (g2 g1 g0 : Glyph) (red green blue : Bool := false)
  /-- WITH_STATUS(f, ind, value), R91 -/
  | withStatus (f : Frame) (ind : BitVec 2) (value : Bool)
  /-- WITH_GLYPH(f, index, g), R92 -/
  | withGlyph (f : Frame) (index : BitVec 2) (g : Glyph)
  /-- WITH_PUSHED(f, g, from_left), R93 -/
  | withPushed (f : Frame) (g : Glyph) (fromLeft : Bool)
  /-- FMT_TEXT(s), R102 -/
  | fmtText (s : List CharCode)
  /-- FMT_DECIMAL(v, ind), R103 -/
  | fmtDecimal (v : Decimal) (ind : BitVec 2)
  /-- OPEN(pins), R111: defaults 22, 23, 24, 25 -/
  | openPins (pins : PinIds := Config.defaultPins)
  /-- CLOSE, R112 -/
  | closePins
  /-- WRITE_BIT(level), R113 -/
  | writeBit (level : Level)
  /-- WRITE_BYTE(byte), R114 -/
  | writeByte (byte : Byte)
  /-- LATCH, R115 -/
  | latch
  /-- WRITE_FRAME(f), R116 -/
  | writeFrame (f : Frame)
deriving DecidableEq, Repr

/-- A pure operation reads and writes no state and makes no pin request (00_scope.md glossary; R58). -/
def Instr.isPure : Instr → Bool
  | .intDigits _ => true
  | .fracDigits _ => true
  | .digitAt _ _ => true
  | .encDigit _ _ => true
  | .encSymbol _ _ => true
  | .encRaw _ => true
  | .frameNew _ _ _ _ _ _ => true
  | .withStatus _ _ _ => true
  | .withGlyph _ _ _ => true
  | .withPushed _ _ _ => true
  | .fmtText _ => true
  | .fmtDecimal _ _ => true
  | .openPins _ => false
  | .closePins => false
  | .writeBit _ => false
  | .writeByte _ => false
  | .latch => false
  | .writeFrame _ => false

/-- `Empty` (41_glyph_encoder.md R80): all segments off. -/
def emptyGlyph : Glyph := 0x00

/-- `Full` (R80): all segments and the point on. -/
def fullGlyph : Glyph := 0xFF

/-- `BLANK_FRAME` (30_encoding.md R62): all glyphs `Empty`, all indicators off. -/
def blankFrame : Frame := ⟨emptyGlyph, emptyGlyph, emptyGlyph, false, false, false⟩

/-- `EMPTY` (R62). -/
abbrev Instr.emptyOp : Instr := .encRaw 0x00

/-- `FULL` (R62). -/
abbrev Instr.fullOp : Instr := .encRaw 0xFF

/-- `MINUS` (R62): `ENC_SYMBOL('-', 0)`. -/
abbrev Instr.minusOp : Instr := .encSymbol 0x2D false

/-- `QUESTION` (R62): `ENC_SYMBOL('?', 0)`. -/
abbrev Instr.questionOp : Instr := .encSymbol 0x3F false

/-- `CLEAR` (R62, 44_serializer.md R119): a frame write of the blank frame. -/
abbrev Instr.clearOp : Instr := .writeFrame blankFrame

/-- `ENC_CHAR(c, point)` (R62, 41_glyph_encoder.md R86): a digit character goes to ENC_DIGIT, any other to
ENC_SYMBOL. -/
def Instr.encCharOp (c : Nat) (point : Bool) : Instr :=
  if 0x30 ≤ c ∧ c ≤ 0x39 then .encDigit (BitVec.ofNat 4 (c - 0x30)) point else .encSymbol c point

end Sys2Proof
end

