-- ==== Sys2Proof/WellFormed.lean ====
section
/-! DEFINITION. Which operations are well formed under given parameters: a decimal operand stays within the
representation bounds of 40_digit_arithmetic.md R70, a character within `CHAR_BITS` (10_state.md R11). Every other
operand's width is its type (30_encoding.md R55); an operand value that the spec answers with InvalidArgument is well
formed, since the operation runs on it. -/

namespace Sys2Proof

/-- `coeff < 2^DEC_COEFF_BITS` and `scale ≤ DEC_MAX_SCALE` (R70). -/
def Decimal.wf (p : Params) (v : Decimal) : Bool :=
  decide (v.coeff < 2 ^ p.decCoeffBits) && decide (v.scale ≤ p.decMaxScale)

/-- A `CHAR_BITS`-bit character code (R11). -/
def Params.charFits (p : Params) (c : Nat) : Bool := decide (c < 2 ^ p.charBits)

/-- Well-formed operations. -/
def Instr.wf (p : Params) : Instr → Bool
  | .intDigits v => v.wf p
  | .fracDigits v => v.wf p
  | .digitAt v _ => v.wf p
  | .encDigit _ _ => true
  | .encSymbol c _ => p.charFits c
  | .encRaw _ => true
  | .frameNew _ _ _ _ _ _ => true
  | .withStatus _ _ _ => true
  | .withGlyph _ _ _ => true
  | .withPushed _ _ _ => true
  | .fmtText s => s.all p.charFits
  | .fmtDecimal v _ => v.wf p
  | .openPins _ => true
  | .closePins => true
  | .writeBit _ => true
  | .writeByte _ => true
  | .latch => true
  | .writeFrame _ => true

/-- A hypothesis the source asserts of the real tables and no rule uses (41_glyph_encoder.md R88, H-point): no digit
pattern has the point bit set. -/
def Params.hPoint (p : Params) : Prop := ∀ d : Fin 10, (p.digit[d]).getLsbD p.pointBit = false

/-- R88, H-digit: `DIGIT` is injective. -/
def Params.hDigit (p : Params) : Prop := ∀ d e : Fin 10, p.digit[d] = p.digit[e] → d = e

end Sys2Proof
end

