-- ==== Sys2Proof/Decode.lean ====
section
/-! DEFINITION. The command encoding: how the bytes of one issued operation are read, and the encoder. The spec gives
a 5-bit selector per operation (30_encoding.md R57, R58) and no packed form of the operands ("operands are passed by
value, not packed into the selector word", opcode_table.json; 91_not_in_source.md N30). The operand bytes below are the
model's own, log entries 1 to 3: the first byte carries the selector in its bits 4..0, the operands follow. -/

namespace Sys2Proof

/-- Why a command is no operation. -/
inductive DecodeError where
  /-- the command has no byte -/
  | emptyCommand
  /-- a selector of 0x12 to 0x1F, which names no operation (R59) -/
  | unknownSelector (op : BitVec 5)
  /-- an operand's bytes are missing -/
  | truncated
  /-- an operand does not fit its width (R55) -/
  | operandTooWide
  /-- a decimal outside the representation bounds of R70 -/
  | decimalTooWide
  /-- bytes other than zero padding after the operands -/
  | trailingBytes
deriving DecidableEq, Repr

/-- A reader of one operand: the operand and the bytes after it. -/
abbrev Read (α : Type) := Except DecodeError (α × List Byte)

/-- Read one operand, then go on with the bytes after it. -/
def Read.andThen {α β : Type} (r : Read α) (k : α → List Byte → Read β) : Read β :=
  match r with
  | .error e => .error e
  | .ok (a, rest) => k a rest

/-- One byte. -/
def readByte : List Byte → Read Byte
  | [] => .error .truncated
  | b :: rest => .ok (b, rest)

/-- A one-bit operand: a byte 0 or 1. -/
def readFlag (bs : List Byte) : Read Bool :=
  (readByte bs).andThen fun b rest =>
    if b = 0 then .ok (false, rest) else if b = 1 then .ok (true, rest) else .error .operandTooWide

/-- An operand of `w` bits, `w` at most 8: a byte below 2^w. -/
def readBits (w : Nat) (bs : List Byte) : Read (BitVec w) :=
  (readByte bs).andThen fun b rest =>
    if b.toNat < 2 ^ w then .ok (BitVec.ofNat w b.toNat, rest) else .error .operandTooWide

/-- A natural, seven bits a byte, least significant first; bit 7 set in every byte but the last. -/
def readNat : List Byte → Read Nat
  | [] => .error .truncated
  | b :: rest =>
    if b.toNat < 128 then .ok (b.toNat, rest)
    else
      match readNat rest with
      | .error e => .error e
      | .ok (hi, rest') => .ok (b.toNat - 128 + 128 * hi, rest')

/-- A signed integer: a sign flag, then the magnitude. -/
def readInt (bs : List Byte) : Read Int :=
  (readFlag bs).andThen fun neg rest =>
    (readNat rest).andThen fun n rest => .ok (if neg then -(n : Int) else (n : Int), rest)

/-- A decimal: sign flag, coefficient, scale (R70). -/
def readDecimal (p : Params) (bs : List Byte) : Read Decimal :=
  (readFlag bs).andThen fun neg rest =>
    (readNat rest).andThen fun coeff rest =>
      (readNat rest).andThen fun scale rest =>
        let v : Decimal := ⟨neg, coeff, scale⟩
        if v.wf p then .ok (v, rest) else .error .decimalTooWide

/-- A frame: glyphs left to right, then Red, Green, Blue (R51). -/
def readFrame (bs : List Byte) : Read Frame :=
  (readByte bs).andThen fun g2 rest =>
    (readByte rest).andThen fun g1 rest =>
      (readByte rest).andThen fun g0 rest =>
        (readFlag rest).andThen fun red rest =>
          (readFlag rest).andThen fun green rest =>
            (readFlag rest).andThen fun blue rest => .ok (⟨g2, g1, g0, red, green, blue⟩, rest)

/-- An operand of one bit with the default 0 (R55 `point`; R90 "an indicator operand left out is 0"): the byte 2, or the
end of the command, leaves it out. -/
def readOptional : List Byte → Read Bool
  | [] => .ok (false, [])
  | b :: rest => if b = 2 then .ok (false, rest) else readFlag (b :: rest)

/-- The operands of FRAME_NEW: three glyphs, then the indicators, each of which may be left out (R90). -/
def readNewFrame (bs : List Byte) : Read Frame :=
  (readByte bs).andThen fun g2 rest =>
    (readByte rest).andThen fun g1 rest =>
      (readByte rest).andThen fun g0 rest =>
        (readOptional rest).andThen fun red rest =>
          (readOptional rest).andThen fun green rest =>
            (readOptional rest).andThen fun blue rest => .ok (⟨g2, g1, g0, red, green, blue⟩, rest)

/-- A character: a natural of `CHAR_BITS` bits. -/
def readChar (p : Params) (bs : List Byte) : Read CharCode :=
  (readNat bs).andThen fun c rest => if p.charFits c then .ok (c, rest) else .error .operandTooWide

/-- `n` characters. -/
def readChars (p : Params) : Nat → List Byte → Read (List CharCode)
  | 0, bs => .ok ([], bs)
  | n + 1, bs =>
    (readChar p bs).andThen fun c rest => (readChars p n rest).andThen fun cs rest => .ok (c :: cs, rest)

/-- A text: its length, then its characters. -/
def readText (p : Params) (bs : List Byte) : Read (List CharCode) :=
  (readNat bs).andThen fun n rest => readChars p n rest

/-- The operand of OPEN: flag 0 for the default identifiers (44_serializer.md R111), flag 1 and four naturals. -/
def readPins (bs : List Byte) : Read PinIds :=
  (readFlag bs).andThen fun given rest =>
    if given then
      (readNat rest).andThen fun d rest =>
        (readNat rest).andThen fun c rest =>
          (readNat rest).andThen fun l rest =>
            (readNat rest).andThen fun e rest => .ok (⟨d, c, l, e⟩, rest)
    else .ok (Config.defaultPins, rest)

/-- A level: 0 low, 1 high (R55). -/
def readLevel (bs : List Byte) : Read Level :=
  (readFlag bs).andThen fun b rest => .ok (Level.ofBit b, rest)

/-- The operands of the operation a selector names, by the rows of R58. -/
def readOperands (p : Params) (op : BitVec 5) (bs : List Byte) : Read Instr :=
  match op.toNat with
  | 0x00 => (readDecimal p bs).andThen fun v rest => .ok (.intDigits v, rest)
  | 0x01 => (readDecimal p bs).andThen fun v rest => .ok (.fracDigits v, rest)
  | 0x02 => (readDecimal p bs).andThen fun v rest => (readInt rest).andThen fun i rest => .ok (.digitAt v i, rest)
  | 0x03 => (readBits 4 bs).andThen fun d rest => (readOptional rest).andThen fun pt rest => .ok (.encDigit d pt, rest)
  | 0x04 => (readChar p bs).andThen fun c rest => (readOptional rest).andThen fun pt rest => .ok (.encSymbol c pt, rest)
  | 0x05 => (readByte bs).andThen fun raw rest => .ok (.encRaw raw, rest)
  | 0x06 => (readNewFrame bs).andThen fun f rest => .ok (.frameNew f.g2 f.g1 f.g0 f.red f.green f.blue, rest)
  | 0x07 =>
    (readFrame bs).andThen fun f rest =>
      (readBits 2 rest).andThen fun ind rest => (readFlag rest).andThen fun v rest => .ok (.withStatus f ind v, rest)
  | 0x08 =>
    (readFrame bs).andThen fun f rest =>
      (readBits 2 rest).andThen fun ix rest => (readByte rest).andThen fun g rest => .ok (.withGlyph f ix g, rest)
  | 0x09 =>
    (readFrame bs).andThen fun f rest =>
      (readByte rest).andThen fun g rest => (readFlag rest).andThen fun l rest => .ok (.withPushed f g l, rest)
  | 0x0A => (readText p bs).andThen fun s rest => .ok (.fmtText s, rest)
  | 0x0B => (readDecimal p bs).andThen fun v rest => (readBits 2 rest).andThen fun ind rest => .ok (.fmtDecimal v ind, rest)
  | 0x0C => (readPins bs).andThen fun pins rest => .ok (.openPins pins, rest)
  | 0x0D => .ok (.closePins, bs)
  | 0x0E => (readLevel bs).andThen fun l rest => .ok (.writeBit l, rest)
  | 0x0F => (readByte bs).andThen fun b rest => .ok (.writeByte b, rest)
  | 0x10 => .ok (.latch, bs)
  | 0x11 => (readFrame bs).andThen fun f rest => .ok (.writeFrame f, rest)
  | _ => .error (.unknownSelector op)

/-- The selector a command's first byte carries: its bits 4..0, mask 0x1F (R57; log entry 2). -/
def selectorOf (b : Byte) : BitVec 5 := b.extractLsb' 0 5

/-- Decode one command under the parameters `p` (the bounds of R70 and `CHAR_BITS`): the selector, the operands, then nothing but zero padding (log entry 3). -/
def decode (p : Params) : List Byte → Except DecodeError Instr
  | [] => .error .emptyCommand
  | b :: operands =>
    match readOperands p (selectorOf b) operands with
    | .error e => .error e
    | .ok (i, rest) => if rest.all (· == 0) then .ok i else .error .trailingBytes

/-- The bytes of an instruction whose table bits are `w` (bit 0 the least significant bit of the first byte) and whose
operand bits above `nbits` are 0: `nbits` in whole bytes, then sixteen zero bytes, more than any operation with zero
operands needs. -/
def tableCommand (nbits w : Nat) : List Byte :=
  (List.range ((nbits + 7) / 8)).map (fun k => BitVec.ofNat 8 (w / 256 ^ k)) ++ List.replicate 16 0

/-- The instruction the decoder reads from a word of the opcode table, under the parameters of reset. -/
def decodeTableWord (nbits w : Nat) : Option Instr := (decode Config.params (tableCommand nbits w)).toOption

/-- The selector of each operation (R58). -/
def Instr.selector : Instr → BitVec 5
  | .intDigits _ => 0x00
  | .fracDigits _ => 0x01
  | .digitAt _ _ => 0x02
  | .encDigit _ _ => 0x03
  | .encSymbol _ _ => 0x04
  | .encRaw _ => 0x05
  | .frameNew _ _ _ _ _ _ => 0x06
  | .withStatus _ _ _ => 0x07
  | .withGlyph _ _ _ => 0x08
  | .withPushed _ _ _ => 0x09
  | .fmtText _ => 0x0A
  | .fmtDecimal _ _ => 0x0B
  | .openPins _ => 0x0C
  | .closePins => 0x0D
  | .writeBit _ => 0x0E
  | .writeByte _ => 0x0F
  | .latch => 0x10
  | .writeFrame _ => 0x11

/-- A one-bit operand. -/
def encodeFlag (b : Bool) : Byte := if b then 1 else 0

/-- A natural, with fuel: `encodeNat n` gives it `n`, since `n / 128 < n` once a second byte is needed. -/
def encodeNatFuel : Nat → Nat → List Byte
  | 0, n => [BitVec.ofNat 8 n]
  | fuel + 1, n =>
    if n < 128 then [BitVec.ofNat 8 n] else BitVec.ofNat 8 (n % 128 + 128) :: encodeNatFuel fuel (n / 128)

/-- A natural. -/
def encodeNat (n : Nat) : List Byte := encodeNatFuel n n

/-- A signed integer. -/
def encodeInt (i : Int) : List Byte := encodeFlag (decide (i < 0)) :: encodeNat i.natAbs

/-- A decimal. -/
def encodeDecimal (v : Decimal) : List Byte := encodeFlag v.neg :: (encodeNat v.coeff ++ encodeNat v.scale)

/-- A frame. -/
def encodeFrame (f : Frame) : List Byte :=
  [f.g2, f.g1, f.g0, encodeFlag f.red, encodeFlag f.green, encodeFlag f.blue]

/-- The operands of OPEN, always written out. -/
def encodePins (p : PinIds) : List Byte :=
  encodeFlag true :: (encodeNat p.data ++ encodeNat p.clock ++ encodeNat p.latch ++ encodeNat p.enable)

/-- The operand bytes of an operation. -/
def Instr.operandBytes : Instr → List Byte
  | .intDigits v => encodeDecimal v
  | .fracDigits v => encodeDecimal v
  | .digitAt v i => encodeDecimal v ++ encodeInt i
  | .encDigit d pt => [d.setWidth 8, encodeFlag pt]
  | .encSymbol c pt => encodeNat c ++ [encodeFlag pt]
  | .encRaw raw => [raw]
  | .frameNew g2 g1 g0 r g b => encodeFrame ⟨g2, g1, g0, r, g, b⟩
  | .withStatus f ind v => encodeFrame f ++ [ind.setWidth 8, encodeFlag v]
  | .withGlyph f ix g => encodeFrame f ++ [ix.setWidth 8, g]
  | .withPushed f g l => encodeFrame f ++ [g, encodeFlag l]
  | .fmtText s => encodeNat s.length ++ s.flatMap encodeNat
  | .fmtDecimal v ind => encodeDecimal v ++ [ind.setWidth 8]
  | .openPins pins => encodePins pins
  | .closePins => []
  | .writeBit l => [encodeFlag l.bit]
  | .writeByte b => [b]
  | .latch => []
  | .writeFrame f => encodeFrame f

/-- The command of an operation. -/
def encode (i : Instr) : List Byte := i.selector.setWidth 8 :: i.operandBytes

end Sys2Proof
end

