-- ==== Sys2Proof/Machine/State.lean ====
section
/-! DEFINITION. The machine's state as plain data (10_state.md), with the parts of the host and the environment that a
step reads or that a claim may read at the end of a run (70_reset_and_hazards.md R161). -/

namespace Sys2Proof.Machine

open Sys2Proof

/-- `life` (10_state.md R16). -/
inductive Life where
  /-- the serializer owns no pin -/
  | closed
  /-- all four pins are open and OPEN has driven ENABLE low -/
  | opened
  /-- an OPEN or a CLOSE ended with a HardwareIOError partway -/
  | failed
deriving DecidableEq, Repr

/-- A pin event (00_scope.md glossary): a request to the backend for a pin role, or a wait. -/
inductive PinEvent where
  /-- `open(p)` -/
  | openReq (p : PinRole)
  /-- `write(p, l)` -/
  | writeReq (p : PinRole) (l : Level)
  /-- `close(p)` -/
  | closeReq (p : PinRole)
  /-- `wait` -/
  | wait
deriving DecidableEq, Repr

/-- A request as the backend receives it, by pin identifier (20_memory.md R33, R34). -/
inductive BackendCall where
  /-- `open(pin_id, output)` -/
  | openOutput (id : Nat)
  /-- `write(pin_id, level)` -/
  | write (id : Nat) (l : Level)
  /-- `close(pin_id)` -/
  | close (id : Nat)
deriving DecidableEq, Repr

/-- The operand an InvalidArgument reports (60_exceptions.md R130). -/
inductive BadOperand where
  /-- `d` of ENC_DIGIT -/
  | digit (d : BitVec 4)
  /-- `ind` of WITH_STATUS or FMT_DECIMAL -/
  | indicator (ind : BitVec 2)
  /-- `index` of WITH_GLYPH -/
  | index (index : BitVec 2)
  /-- `v` of FMT_DECIMAL -/
  | decimal (v : Decimal)
  /-- `pins` of OPEN -/
  | pins (pins : PinIds)
deriving DecidableEq, Repr

/-- The errors of R130. They are results handed to the host, not stops of the machine (R161). -/
inductive OpError where
  /-- code 1, with the operand -/
  | invalidArgument (operand : BadOperand)
  /-- code 2; no operation of the block raises it (R132) -/
  | invalidOperation
  /-- code 3, with the request that failed (R133) -/
  | hardwareIO (request : PinEvent)
deriving DecidableEq, Repr

/-- What an operation that completes returns (30_encoding.md R58, column "result"). -/
inductive Value where
  | none
  | nat (n : Nat)
  | glyph (g : Glyph)
  | frame (f : Frame)
deriving DecidableEq, Repr

/-- `Status` of R11: `Ok(value)` or an error. -/
inductive Status where
  | ok (v : Value)
  | error (e : OpError)
deriving DecidableEq, Repr

/-- The operation in progress: its operands (R12, R22) and `seq`, the index of its next pin event (R13). -/
structure Activity where
  op : Instr
  seq : Nat
deriving DecidableEq, Repr

/-- Values still to be drawn from the environment: a script given at launch ("a launch parameter a claim quantifies
over", R23), then the free values of a constant of Config, of which `drawn` have been taken. -/
structure Supply (α : Type) where
  script : List α
  drawn : Nat
deriving DecidableEq, Repr

/-- Why the machine stops with a fault. There is no reason: the block has no trap, its errors are results that are
returned to the host (60_exceptions.md R130, R161), so the type is empty. Log entry 21. -/
inductive Fault : Type
deriving DecidableEq, Repr

/-- Why a step has no meaning: the spec's "refused" (00_scope.md glossary). Every refusal is safe: the model stops. -/
inductive Refusal where
  /-- raised by `exec` for an instruction that has no meaning yet; safe -/
  | notModelled (mnemonic : String)
  /-- raised by `fetch`: the host has issued no further operation, the run has ended (R161); safe -/
  | runEnded
  /-- raised by `fetch`: `life = Failed`, "no operation has a meaning until reset" (R16, R161, U4); safe -/
  | serializerFailed
  /-- raised by `fetch`: an operation is in progress, and operations never overlap (R10, R156, U11); safe -/
  | operationInProgress
  /-- raised by `fetch`: the command names no operation (R59) or is not in the model's command encoding; safe -/
  | undecodable (e : DecodeError)
  /-- raised by INT_DIGITS, FRAC_DIGITS, DIGIT_AT: `val(v) < 0` (R75, D18, U10); safe -/
  | negativeOperand
  /-- raised by FMT_DECIMAL: rounding carries into a new integer digit (R105, D16, U7); safe -/
  | roundingCarry
  /-- raised by WRITE_BIT, WRITE_BYTE, LATCH, WRITE_FRAME: `life ≠ Open` (R120, D24, U5); safe -/
  | notOpen
  /-- raised by OPEN: `life ≠ Closed` (R111, D24, U5); safe -/
  | notClosed
  /-- raised by CLOSE: `life = Failed` (R112, D24, U5); safe -/
  | closeAfterFailure
deriving DecidableEq, Repr

/-- The state. -/
@[ext]
structure State where
  /-- the parameters of R7, constants: no operation writes them (20_memory.md R32) -/
  params : Params
  /-- `life` (R16) -/
  life : Life
  /-- `PIN_ID` (R15); `none` is the spec's own "unset" -/
  pinId : Option PinIds
  /-- `pin_open` (R17) -/
  pinOpen : PerPin Bool
  /-- `pin_level` (R18) -/
  pinLevel : PerPin Level
  /-- `env.sr`, the shift chain of `SR_LEN` stages, stage 0 first (R19) -/
  sr : List Bool
  /-- `env.q`, the output latch, in the same order (R19) -/
  q : List Bool
  /-- the operation in progress, only while one runs (R13, R22) -/
  active : Option Activity
  /-- the operations the host has issued and the block has not begun (R10), in the command encoding -/
  commands : List (List Byte)
  /-- the results returned to the host, oldest first (R14, R161) -/
  results : List Status
  /-- the pin events so far, oldest first (R34, R44) -/
  trace : List PinEvent
  /-- the requests the backend has received, oldest first (R34) -/
  calls : List BackendCall
  /-- the backend's answers still to come (R34) -/
  answers : Supply Bool
  /-- the draws of unspecified pin levels still to come (R18, U2) -/
  levels : Supply Level
  /-- the draws of unspecified register stages still to come (R136, U1) -/
  chains : Supply Bool
deriving DecidableEq, Repr

/-- The machine before the first OPEN (10_state.md R23; 70_reset_and_hazards.md R150). What the spec leaves
unspecified is a free value of Config, log entry 9. -/
def State.reset : State where
  params := Config.params
  life := .closed
  pinId := none
  pinOpen := PerPin.all false
  pinLevel := Config.powerOnLevels
  sr := (List.range Config.params.srLen).map Config.powerOnChain
  q := (List.range Config.params.srLen).map Config.powerOnOutputs
  active := none
  commands := []
  results := []
  trace := []
  calls := []
  answers := ⟨[], 0⟩
  levels := ⟨[], 0⟩
  chains := ⟨[], 0⟩

end Sys2Proof.Machine
end

