-- ==== Sys2Proof/Machine/Operands.lean ====
section
/-! DEFINITION. Operand values: decimals and their exact arithmetic (40_digit_arithmetic.md), the glyph tables and the
characters (41_glyph_encoder.md), frames (42_frame_ops.md) and the wire word (30_encoding.md R53). All of it is pure. -/

namespace Sys2Proof

open Machine

/-! ### Decimals (R70, R75) -/

/-- `val(v)` = (−1)^neg × coeff / 10^scale (R70). Claims are stated in it; the operations below compute on the triple. -/
def Decimal.val (v : Decimal) : ℚ := (if v.neg then -1 else 1) * (v.coeff : ℚ) / 10 ^ v.scale

/-- `is_negative(v)`: the value is below 0, so negative zero is not negative (R75). -/
def Decimal.isNegative (v : Decimal) : Bool := v.neg && decide (v.coeff ≠ 0)

/-- `abs(v)` (R75). -/
def Decimal.abs (v : Decimal) : Decimal := { v with neg := false }

/-- `floor(|val(v)|)`. -/
def Decimal.floor (v : Decimal) : Nat := v.coeff / 10 ^ v.scale

/-- The numerator of `frac(|val(v)|)` over `10^scale`. -/
def Decimal.fracNum (v : Decimal) : Nat := v.coeff % 10 ^ v.scale

/-- The number of decimal digits of `n`, 1 for 0; the fuel bounds the digits still to count. -/
def countDigits : Nat → Nat → Nat
  | 0, _ => 1
  | fuel + 1, n => if n < 10 then 1 else countDigits fuel (n / 10) + 1

/-- INT_DIGITS of a non-negative value (R71). -/
def Decimal.intDigits (v : Decimal) : Nat := countDigits v.floor v.floor

/-- `scale − min(scale, z)` with `z` the trailing decimal zeros of the coefficient, 0 for coefficient 0
(R72, corner cases): trailing zeros are dropped from the pair until none is left. -/
def stripZeros : Nat → Nat → Nat
  | 0, _ => 0
  | scale + 1, coeff => if coeff % 10 = 0 then stripZeros scale (coeff / 10) else scale + 1

/-- FRAC_DIGITS of a non-negative value (R72). -/
def Decimal.fracDigits (v : Decimal) : Nat := stripZeros v.scale v.coeff

/-- The scan of R72's pseudocode: the fraction is `num / den`; `fuel` bounds the passes. -/
def scanFraction (den : Nat) : (fuel num count zeros : Nat) → Nat
  | 0, _, count, _ => count
  | fuel + 1, num, count, zeros =>
    if num = 0 then count
    else if num * 10 / den = 0 then scanFraction den fuel (num * 10 % den) count (zeros + 1)
    else scanFraction den fuel (num * 10 % den) (count + zeros + 1) 0

/-- FRAC_DIGITS as the source describes it (R72): repeated multiply-by-10 and floor. `Decimal.fracDigits` is the
operation's meaning; this is the text it is compared with. -/
def Decimal.fracDigitsScan (v : Decimal) : Nat := scanFraction (10 ^ v.scale) v.scale v.fracNum 0 0

/-- The last decimal digit of a natural. -/
def lastDigit (n : Nat) : Fin 10 := ⟨n % 10, Nat.mod_lt _ (by decide)⟩

/-- DIGIT_AT of a non-negative value (R73): index 0 is the units digit, negative indices lie right of the point. -/
def Decimal.digitAt (v : Decimal) : Int → Fin 10
  | .ofNat k => lastDigit (v.floor / 10 ^ k)
  | .negSucc k => lastDigit (v.fracNum * 10 ^ (k + 1) / 10 ^ v.scale)

/-- The numerator of `round_dec(q, n)` over `10^n` (R74), for a non-negative `q`. -/
def roundedNum (mode : RoundMode) (q : Decimal) (n : Nat) : Nat :=
  let den := 10 ^ q.scale
  let fl := q.coeff * 10 ^ n / den
  let r := q.coeff * 10 ^ n % den
  if 2 * r < den then fl
  else if den < 2 * r then fl + 1
  else
    match mode with
    | .halfUp => fl + 1
    | .halfEven => if fl % 2 = 0 then fl else fl + 1

/-- `round_dec(q, n)` (R74). -/
def roundDec (mode : RoundMode) (q : Decimal) (n : Nat) : Decimal := ⟨false, roundedNum mode q n, n⟩

/-- The value lies outside −999..999 (43_frame_format.md R103 step 1). -/
def Decimal.outOfRange (v : Decimal) : Bool := decide (Config.maxDecimal * 10 ^ v.scale < v.coeff)

/-! ### Glyphs (R80 to R86) -/

/-- `POINT_MASK`: the one bit set is `pointBit` (R81). -/
def Params.pointMask (p : Params) : Byte := BitVec.twoPow 8 p.pointBit

/-- `with_point(g, point)`: "a decimal-point flag ORs in the point bit" (R81). -/
def Params.withPoint (p : Params) (g : Glyph) (point : Bool) : Glyph := if point then g ||| p.pointMask else g

/-- `DIGIT[d]` (20_memory.md R30). -/
def Params.digitPattern (p : Params) (d : Fin 10) : Byte := p.digit[d]

/-- `digit(d, point)`: the result of ENC_DIGIT for a legal `d` (R82). -/
def Params.digitGlyph (p : Params) (d : Fin 10) (point : Bool) : Glyph := p.withPoint (p.digitPattern d) point

/-- `SYM` as a partial map (20_memory.md R31): `' '`, `'-'` and `'?'` are always keys, and the space is 0x00 (D5). -/
def Params.sym (p : Params) (c : CharCode) : Option Byte :=
  if c = 0x20 then some 0x00
  else if c = 0x2D then some p.symMinus
  else if c = 0x3F then some p.symQuestion
  else p.symOther.lookup c

/-- `upper(c)` (R89): only `a`..`z` change. -/
def upper (c : Nat) : Nat := if 0x61 ≤ c ∧ c ≤ 0x7A then c - 0x20 else c

/-- `lower(c)` (R89): only `A`..`Z` change. -/
def lower (c : Nat) : Nat := if 0x41 ≤ c ∧ c ≤ 0x5A then c + 0x20 else c

/-- `sym_lookup(c)` (R83): as is, then upper case, then lower case, else the `?` pattern. -/
def Params.symLookup (p : Params) (c : CharCode) : Byte :=
  match p.sym c with
  | some g => g
  | none =>
    match p.sym (upper c) with
    | some g => g
    | none =>
      match p.sym (lower c) with
      | some g => g
      | none => p.symQuestion

/-- The result of ENC_SYMBOL (R84). -/
def Params.symGlyph (p : Params) (c : CharCode) (point : Bool) : Glyph := p.withPoint (p.symLookup c) point

/-- The digit a character stands for, if it is `'0'`..`'9'`. -/
def charDigit (c : Nat) : Option (Fin 10) :=
  if 0x30 ≤ c ∧ c ≤ 0x39 then some (lastDigit (c - 0x30)) else none

/-- ENC_CHAR (R86): a digit character goes to the digit table, any other to the symbol lookup. -/
def Params.charGlyph (p : Params) (c : CharCode) (point : Bool) : Glyph :=
  match charDigit c with
  | some d => p.digitGlyph d point
  | none => p.symGlyph c point

/-! ### Frames (R90 to R93) and the wire word (R52, R53) -/

/-- The frame with glyph slot `index` replaced; the illegal index 3 names no slot. -/
def Frame.setGlyph (f : Frame) (index : BitVec 2) (g : Glyph) : Frame :=
  match index.toNat with
  | 0 => { f with g0 := g }
  | 1 => { f with g1 := g }
  | 2 => { f with g2 := g }
  | _ => f

/-- The frame with one indicator replaced: 0 Red, 1 Green, 2 Blue; the illegal code 3 names none. -/
def Frame.setIndicator (f : Frame) (ind : BitVec 2) (value : Bool) : Frame :=
  match ind.toNat with
  | 0 => { f with red := value }
  | 1 => { f with green := value }
  | 2 => { f with blue := value }
  | _ => f

/-- WITH_PUSHED (R93): `fromLeft` names the end the new glyph enters at (D19). -/
def Frame.pushed (f : Frame) (g : Glyph) (fromLeft : Bool) : Frame :=
  if fromLeft then { f with g2 := g, g1 := f.g2, g0 := f.g1 } else { f with g0 := g, g1 := f.g0, g2 := f.g1 }

/-- The three indicator bits in wire order (R52, R53). -/
def Frame.indicatorBits (order : IndOrder) (f : Frame) : Bool × Bool × Bool :=
  match order with
  | .bgr => (f.blue, f.green, f.red)
  | .gbr => (f.green, f.blue, f.red)

/-- `W(f)`, the wire word (R53). -/
def Frame.wireWord (order : IndOrder) (f : Frame) : BitVec 32 :=
  let i := f.indicatorBits order
  f.g2 ++ f.g1 ++ f.g0 ++ 0#5 ++ BitVec.ofBool i.1 ++ BitVec.ofBool i.2.1 ++ BitVec.ofBool i.2.2

/-- The bits of a word as the stages of a chain, bit 0 first (10_state.md R19). -/
def stagesOf {w : Nat} (x : BitVec w) : List Bool := (List.range w).map x.getLsbD

end Sys2Proof
end

