-- ==== Sys2Proof/Machine/Flags.lean ====
section
/-! DEFINITION. The block has no condition codes and no status flags (10_state.md R14). What stands in their place: the
`Status` an operation returns, with the reference codes of 60_exceptions.md R130, and the visibility of the outputs. -/

namespace Sys2Proof.Machine

open Sys2Proof

/-- The reference codes (R130, D27): Ok 0, InvalidArgument 1, InvalidOperation 2, HardwareIOError 3. -/
def Status.code : Status → Nat
  | .ok _ => 0
  | .error (.invalidArgument _) => 1
  | .error .invalidOperation => 2
  | .error (.hardwareIO _) => 3

/-- The operation completed. -/
def Status.isOk : Status → Bool
  | .ok _ => true
  | .error _ => false

/-- No error has been returned: the premise a claim about a run takes (R130, R161). -/
def State.noErrorReturned (s : State) : Bool := s.results.all Status.isOk

/-- What the display shows (10_state.md R20): `env.q` with ENABLE low; with ENABLE high it is not observable. -/
def State.display (s : State) : Option (List Bool) :=
  match s.pinLevel.enable with
  | .low => some s.q
  | .high => none

/-- CLOCK and LATCH are low: *idle-low* (44_serializer.md R122). -/
def State.idleLow (s : State) : Prop := s.pinLevel.clock = .low ∧ s.pinLevel.latch = .low

/-- A lower bound, in microseconds, of the time the waits of a trace take (70_reset_and_hazards.md R153, R158). -/
def waitBound (tWaitMicros : Nat) (trace : List PinEvent) : Nat := tWaitMicros * trace.count .wait

end Sys2Proof.Machine
end

