-- ==== Sys2Proof/Machine/Ops.lean ====
section
/-! DEFINITION. The named operations over the state: drawing an unspecified value, one pin event with the reaction of
the environment (20_memory.md R34 to R39), running the trace of an operation to its end or to its first failing request
(60_exceptions.md R133), returning a result, raising an error (R130, R131), and fetching the host's next operation. -/

namespace Sys2Proof.Machine

open Sys2Proof

/-! ### Values the spec leaves to the environment -/

/-- The value that comes `k` draws from now. -/
def Supply.peek {α : Type} (free : Nat → α) (s : Supply α) (k : Nat) : α :=
  match s.script[k]? with
  | some a => a
  | none => free (s.drawn + (k - s.script.length))

/-- What is left after one draw. -/
def Supply.rest {α : Type} (s : Supply α) : Supply α :=
  match s.script with
  | [] => ⟨[], s.drawn + 1⟩
  | _ :: more => ⟨more, s.drawn⟩

/-- What is left after `n` draws. -/
def Supply.drop {α : Type} : Nat → Supply α → Supply α
  | 0, s => s
  | n + 1, s => s.rest.drop n

/-- The backend's answer to the request that comes `k` requests from now (R34). -/
def State.answer (s : State) (k : Nat) : Bool := s.answers.peek Config.backendAnswer k

/-- The next `n` pin requests succeed. -/
def State.succeeds (s : State) (n : Nat) : Prop := ∀ k < n, s.answer k = true

/-- The level of `p` becomes unspecified (10_state.md R18). -/
def State.drawLevel (s : State) (p : PinRole) : State :=
  { s with pinLevel := s.pinLevel.set p (s.levels.peek Config.freeLevel 0), levels := s.levels.rest }

/-- All four levels become unspecified. -/
def State.drawAllLevels (s : State) : State :=
  (((s.drawLevel .data).drawLevel .clock).drawLevel .latch).drawLevel .enable

/-- `SR_LEN` unspecified stages, the first of them the one `k` draws from now. -/
def State.drawnStages (s : State) (k : Nat) : List Bool :=
  (List.range s.params.srLen).map fun i => s.chains.peek Config.freeStage (k + i)

/-- `env.sr` and `env.q` become unspecified (R136), each stage by a draw of its own. -/
def State.drawRegister (s : State) : State :=
  { s with
    sr := s.drawnStages 0
    q := s.drawnStages s.params.srLen
    chains := s.chains.drop (2 * s.params.srLen) }

/-! ### One pin event -/

/-- The backend's view of an event (R34): requests go to the identifier of the role; a wait is no request. -/
def State.backendCall (s : State) (e : PinEvent) : Option BackendCall :=
  match s.pinId with
  | none => none
  | some ids =>
    match e with
    | .openReq p => some (.openOutput (ids.get p))
    | .writeReq p l => some (.write (ids.get p) l)
    | .closeReq p => some (.close (ids.get p))
    | .wait => none

/-- `seq` goes on by one (R13). -/
def Activity.advance (a : Activity) : Activity := { a with seq := a.seq + 1 }

/-- The event is appended to the trace "whether or not it succeeds" (R34), its request reaches the backend, and `seq`
goes on. -/
def State.emit (s : State) (e : PinEvent) : State :=
  { s with
    trace := s.trace ++ [e]
    calls := s.calls ++ (s.backendCall e).toList
    active := s.active.map Activity.advance }

/-- The answer to the request just made is used up. -/
def State.takeAnswer (s : State) : State := { s with answers := s.answers.rest }

/-- `pin_open[p] <- b` (R17). -/
def State.setOpen (s : State) (p : PinRole) (b : Bool) : State := { s with pinOpen := s.pinOpen.set p b }

/-- `pin_level[p] <- l` (R18). -/
def State.setLevel (s : State) (p : PinRole) (l : Level) : State := { s with pinLevel := s.pinLevel.set p l }

/-- The chain shifts by one, takes the level of DATA in at stage 0 and drops stage `SR_LEN` − 1 (R36). -/
def State.shiftIn (s : State) : State := { s with sr := (s.pinLevel.data.bit :: s.sr).take s.params.srLen }

/-- The latch transfer: all stages at once (R37). -/
def State.transfer (s : State) : State := { s with q := s.sr }

/-- The environment's reaction to a successful `write(p, l)`, from the levels just before it: a CLOCK rising edge
shifts (R36), a LATCH rising edge transfers (R37), nothing else moves (R38, R39). -/
def State.react (s : State) (p : PinRole) (l : Level) : State :=
  match p, l with
  | .clock, .high => if s.pinLevel.clock = .low then s.shiftIn else s
  | .latch, .high => if s.pinLevel.latch = .low then s.transfer else s
  | .clock, .low => s
  | .latch, .low => s
  | .data, _ => s
  | .enable, _ => s

/-- A successful `write(p, l)`: the environment reacts and the pin drives `l` (R34). -/
def State.drive (s : State) (p : PinRole) (l : Level) : State := (s.react p l).setLevel p l

/-- One pin event: whether it succeeded, and the state after it (R34). A wait always succeeds (R133). A successful
open leaves the pin's level unspecified, a failed write does too (R18). A close, successful or not, ends `pin_open`
(R17), and the level is no longer driven (R18). -/
def State.perform (s : State) (e : PinEvent) : Bool × State :=
  match e with
  | .wait => (true, s.emit .wait)
  | .openReq p =>
    if s.answer 0 then (true, (((s.emit e).takeAnswer).setOpen p true).drawLevel p) else (false, (s.emit e).takeAnswer)
  | .writeReq p l =>
    if s.answer 0 then (true, ((s.emit e).takeAnswer).drive p l) else (false, ((s.emit e).takeAnswer).drawLevel p)
  | .closeReq p => (s.answer 0, (((s.emit e).takeAnswer).setOpen p false).drawLevel p)

/-! ### One operation -/

/-- Run a trace until it ends or a request fails; the failing request is reported (R133). -/
def State.runPlan : List PinEvent → State → Option PinEvent × State
  | [], s => (none, s)
  | e :: plan, s =>
    match s.perform e with
    | (true, t) => State.runPlan plan t
    | (false, t) => (some e, t)

/-- The operation completes and returns `v` to the host (R14). -/
def State.complete (s : State) (v : Value) : State := { s with results := s.results ++ [.ok v] }

/-- Taking an error: it is returned to the host, and nothing is recorded in the block: no saved state, no mode change
(R130, R131, R136). There is no return from an error (R137). -/
def State.raise (s : State) (e : OpError) : State := { s with results := s.results ++ [.error e] }

/-- An operation with a trace begins: its operands are held and `seq` is 0 (R13, R22). -/
def State.beginOp (s : State) (i : Instr) : State := { s with active := some ⟨i, 0⟩ }

/-- The operation ends: nothing of it is held any longer (R12, R13). -/
def State.endOp (s : State) : State := { s with active := none }

/-- The shared form of the six stateful operations: begin, run the trace, and at its end either do what the operation
does last and complete, or leave what the failing request leaves and raise HardwareIOError (R133, R136). -/
def State.operate (s : State) (i : Instr) (plan : List PinEvent) (done : State → State)
    (failed : State → PinEvent → State) : State :=
  match (s.beginOp i).runPlan plan with
  | (none, t) => (done t).endOp.complete .none
  | (some e, t) => (failed t e).endOp.raise (.hardwareIO e)

/-! ### The host's next operation -/

/-- The operation the block performs next, and the state in which it does. Operations never overlap (R10, R156); after
a failure inside OPEN or CLOSE none has a meaning (R16, R161); they come in issue order (R13). -/
def State.fetch (s : State) : Except Refusal (Instr × State) :=
  match s.active with
  | some _ => .error .operationInProgress
  | none =>
    match s.life with
    | .failed => .error .serializerFailed
    | .closed | .opened =>
      match s.commands with
      | [] => .error .runEnded
      | c :: rest =>
        match decode s.params c with
        | .error e => .error (.undecodable e)
        | .ok i => .ok (i, { s with commands := rest })

/-- `s` with the command of one opcode-table word issued before all others. -/
def State.issueWord (s : State) (nbits w : Nat) : State := { s with commands := tableCommand nbits w :: s.commands }

end Sys2Proof.Machine
end

