-- ==== Sys2Proof/Machine/Digits.lean ====
section
/-! DEFINITION. Digit arithmetic: INT_DIGITS, FRAC_DIGITS, DIGIT_AT (40_digit_arithmetic.md). On a negative value the
three are refused (R75, D18). -/

namespace Sys2Proof.Machine

open Sys2Proof

/-- INT_DIGITS(v), R71. -/
def execIntDigits (v : Decimal) (s : State) : Host.Outcome State Fault Refusal :=
  if v.isNegative then .refused .negativeOperand else .next (s.complete (.nat v.intDigits))

/-- FRAC_DIGITS(v), R72. -/
def execFracDigits (v : Decimal) (s : State) : Host.Outcome State Fault Refusal :=
  if v.isNegative then .refused .negativeOperand else .next (s.complete (.nat v.fracDigits))

/-- DIGIT_AT(v, i), R73. -/
def execDigitAt (v : Decimal) (i : Int) (s : State) : Host.Outcome State Fault Refusal :=
  if v.isNegative then .refused .negativeOperand else .next (s.complete (.nat (v.digitAt i)))

end Sys2Proof.Machine
end

