-- ==== Sys2Proof/Machine/Format.lean ====
section
/-! DEFINITION. Frame formatters: FMT_TEXT, FMT_DECIMAL (43_frame_format.md). -/

namespace Sys2Proof.Machine

open Sys2Proof

/-- The code of `'.'` (30_encoding.md R60). -/
def periodChar : CharCode := 0x2E

/-- `tokenise(s)` (R100): a character followed by a period takes the point and consumes the period, at every scan
position (D10). -/
def tokenise (p : Params) : List CharCode → List Glyph
  | [] => []
  | [c] => [p.charGlyph c false]
  | c :: d :: rest =>
    if d = periodChar then p.charGlyph c true :: tokenise p rest else p.charGlyph c false :: tokenise p (d :: rest)

/-- `positions(s)` (R100; 70_reset_and_hazards.md R159). -/
def positions (p : Params) (s : List CharCode) : Nat := (tokenise p s).length

/-- `right_align(L)` (R101): the last three, or space glyphs on the left; leftmost first. -/
def rightAlign (p : Params) (tokens : List Glyph) : Glyph × Glyph × Glyph :=
  let space := p.symGlyph 0x20 false
  match tokens.reverse with
  | [] => (space, space, space)
  | [c] => (space, space, c)
  | [c, b] => (space, b, c)
  | c :: b :: a :: _ => (a, b, c)

/-- The result of FMT_TEXT (R102): every indicator false. -/
def textFrame (p : Params) (s : List CharCode) : Frame :=
  let g := rightAlign p (tokenise p s)
  ⟨g.1, g.2.1, g.2.2, false, false, false⟩

/-- FMT_TEXT(s), R102. -/
def execFmtText (text : List CharCode) (s : State) : Host.Outcome State Fault Refusal :=
  .next (s.complete (.frame (textFrame s.params text)))

/-- What FMT_DECIMAL shows: the rounded magnitude and the digits before and after the point (R103 steps 3 and 4). -/
structure Shown where
  value : Decimal
  intDigits : Nat
  fracDigits : Nat
deriving DecidableEq, Repr

/-- The size of the window. -/
def Shown.size (w : Shown) : Nat := w.intDigits + w.fracDigits

/-- Steps 3 and 4 of R103: at most three digits in all, rounding to `3 − id` places where more are needed; none where
the rounding carries into a new integer digit (R105). The digit counts are those of the magnitude. -/
def shownDecimal (mode : RoundMode) (v : Decimal) : Option Shown :=
  if 3 < v.intDigits + v.fracDigits then
    if 10 ^ v.intDigits * 10 ^ (3 - v.intDigits) ≤ roundedNum mode v.abs (3 - v.intDigits) then none
    else some ⟨roundDec mode v.abs (3 - v.intDigits), v.intDigits, 3 - v.intDigits⟩
  else some ⟨v.abs, v.intDigits, v.fracDigits⟩

/-- Whether the digit in slot `k` carries the point (R103 step 5): only with fractional digits, on the integer digit
`DP_PLACEMENT` names. -/
def Shown.pointAt (w : Shown) (place : DpPlacement) (k : Nat) : Bool :=
  match place with
  | .rightmostInteger => decide (0 < w.fracDigits ∧ k = w.fracDigits)
  | .leftmostInteger => decide (0 < w.fracDigits ∧ k + 1 = w.size)

/-- The glyph of slot `k` (R103 steps 5 to 7): slot `fd + j` holds the digit at position `j`, `j` negative right of the
point; a minus glyph stands in slot `n` of a negative value; the slots left of that stay Empty. -/
def Shown.glyphAt (w : Shown) (p : Params) (negative : Bool) (k : Nat) : Glyph :=
  if k < w.size then p.digitGlyph (w.value.digitAt ((k : Int) - w.fracDigits)) (w.pointAt p.dpPlacement k)
  else if k = w.size ∧ negative = true then p.symGlyph 0x2D false
  else emptyGlyph

/-- The frame of R103: the sign goes to the indicator `ind` when the digits fill all three positions. -/
def Shown.frame (w : Shown) (p : Params) (negative : Bool) (ind : BitVec 2) : Frame :=
  let glyphs : Frame := ⟨w.glyphAt p negative 2, w.glyphAt p negative 1, w.glyphAt p negative 0, false, false, false⟩
  if negative = true ∧ w.size = 3 then glyphs.setIndicator ind true else glyphs

/-- FMT_DECIMAL(v, ind), R103: both InvalidArgument causes are checked before anything is built (R135); a rounding
carry is refused (R105). -/
def execFmtDecimal (v : Decimal) (ind : BitVec 2) (s : State) : Host.Outcome State Fault Refusal :=
  if ind = 3 then .next (s.raise (.invalidArgument (.indicator ind)))
  else if v.outOfRange then .next (s.raise (.invalidArgument (.decimal v)))
  else
    match shownDecimal s.params.roundMode v with
    | none => .refused .roundingCarry
    | some w => .next (s.complete (.frame (w.frame s.params v.isNegative ind)))

end Sys2Proof.Machine
end

