-- ==== Sys2Proof/Machine/Frames.lean ====
section
/-! DEFINITION. Frame operations: FRAME_NEW, WITH_STATUS, WITH_GLYPH, WITH_PUSHED (42_frame_ops.md). The operand frame
is a value and is never changed (R94). -/

namespace Sys2Proof.Machine

open Sys2Proof

/-- FRAME_NEW(g2, g1, g0, red, green, blue), R90. -/
def execFrameNew (g2 g1 g0 : Glyph) (red green blue : Bool) (s : State) : Host.Outcome State Fault Refusal :=
  .next (s.complete (.frame ⟨g2, g1, g0, red, green, blue⟩))

/-- WITH_STATUS(f, ind, value), R91: InvalidArgument for code 3. -/
def execWithStatus (f : Frame) (ind : BitVec 2) (value : Bool) (s : State) : Host.Outcome State Fault Refusal :=
  if ind = 3 then .next (s.raise (.invalidArgument (.indicator ind)))
  else .next (s.complete (.frame (f.setIndicator ind value)))

/-- WITH_GLYPH(f, index, g), R92: InvalidArgument for index 3. -/
def execWithGlyph (f : Frame) (index : BitVec 2) (g : Glyph) (s : State) : Host.Outcome State Fault Refusal :=
  if index = 3 then .next (s.raise (.invalidArgument (.index index)))
  else .next (s.complete (.frame (f.setGlyph index g)))

/-- WITH_PUSHED(f, g, from_left), R93. -/
def execWithPushed (f : Frame) (g : Glyph) (fromLeft : Bool) (s : State) : Host.Outcome State Fault Refusal :=
  .next (s.complete (.frame (f.pushed g fromLeft)))

end Sys2Proof.Machine
end

