-- ==== Sys2Proof/Machine/Glyphs.lean ====
section
/-! DEFINITION. Glyph encoder: ENC_DIGIT, ENC_SYMBOL, ENC_RAW (41_glyph_encoder.md). -/

namespace Sys2Proof.Machine

open Sys2Proof

/-- ENC_DIGIT(d, point), R82: InvalidArgument for `d` above 9, before any lookup (D7). -/
def execEncDigit (d : BitVec 4) (point : Bool) (s : State) : Host.Outcome State Fault Refusal :=
  if 9 < d.toNat then .next (s.raise (.invalidArgument (.digit d)))
  else .next (s.complete (.glyph (s.params.digitGlyph (lastDigit d.toNat) point)))

/-- ENC_SYMBOL(c, point), R84. -/
def execEncSymbol (c : CharCode) (point : Bool) (s : State) : Host.Outcome State Fault Refusal :=
  .next (s.complete (.glyph (s.params.symGlyph c point)))

/-- ENC_RAW(raw), R85. -/
def execEncRaw (raw : Byte) (s : State) : Host.Outcome State Fault Refusal := .next (s.complete (.glyph raw))

end Sys2Proof.Machine
end

