-- ==== Sys2Proof/Machine/Serializer.lean ====
section
/-! DEFINITION. Frame serializer: OPEN, CLOSE, WRITE_BIT, WRITE_BYTE, LATCH, WRITE_FRAME (44_serializer.md). Each has
its trace, "the exact list of pin events it produces". -/

namespace Sys2Proof.Machine

open Sys2Proof

/-! ### Traces -/

/-- The trace of OPEN (R111). -/
def openTrace : List PinEvent :=
  [.openReq .data, .openReq .clock, .openReq .latch, .openReq .enable, .writeReq .enable .low]

/-- The trace of CLOSE (R112): ENABLE is driven high before any pin is closed (70_reset_and_hazards.md R154). -/
def closeTrace : List PinEvent :=
  [.writeReq .enable .high, .closeReq .data, .closeReq .clock, .closeReq .latch, .closeReq .enable]

/-- The trace of WRITE_BIT (R113). -/
def bitTrace (l : Level) : List PinEvent :=
  [.writeReq .data l, .wait, .writeReq .clock .high, .wait, .writeReq .clock .low, .wait]

/-- The trace of a list of bits, in order. -/
def bitsTrace (bits : List Bool) : List PinEvent := bits.flatMap fun b => bitTrace (Level.ofBit b)

/-- The bits of a byte, most significant first (R114, 20_memory.md R40). -/
def byteBits (b : Byte) : List Bool := [b[7], b[6], b[5], b[4], b[3], b[2], b[1], b[0]]

/-- The trace of WRITE_BYTE (R114). -/
def byteTrace (b : Byte) : List PinEvent := bitsTrace (byteBits b)

/-- The trace of LATCH (R115). -/
def latchTrace : List PinEvent := [.writeReq .latch .high, .wait, .writeReq .latch .low, .wait]

/-- The trace of WRITE_FRAME (R116): three glyph bytes, five padding bits, three indicator bits, the latch pulse. -/
def frameTrace (order : IndOrder) (f : Frame) : List PinEvent :=
  let i := f.indicatorBits order
  byteTrace f.g2 ++ byteTrace f.g1 ++ byteTrace f.g0 ++ bitsTrace [false, false, false, false, false] ++
    bitsTrace [i.1, i.2.1, i.2.2] ++ latchTrace

/-! ### What an operation does last, and what a failing request leaves (60_exceptions.md R136) -/

/-- OPEN's last step: `life <- Open`. -/
def State.openDone (s : State) : State := { s with life := .opened }

/-- The register after a failed ENABLE write of OPEN or CLOSE: as R136 rows 2 and 3 have it, or as 20_memory.md R39 does,
by the parameter (log entry 18). -/
def State.enableWriteFailed (s : State) : State :=
  match s.params.failedEnableWrite with
  | .keepsRegister => s
  | .losesRegister => s.drawRegister

/-- The request `e` of OPEN or CLOSE failed: `life <- Failed`, levels unspecified; the register is unchanged by a failed
open or close (R39, R136). The only pin the two write is ENABLE. -/
def State.lifecycleFailed (s : State) (e : PinEvent) : State :=
  let t := { s with life := .failed }.drawAllLevels
  match e with
  | .writeReq _ _ => t.enableWriteFailed
  | .openReq _ => t
  | .closeReq _ => t
  | .wait => t

/-- A request of OPEN failed (R136 row 2). -/
def State.openFailed (s : State) (e : PinEvent) : State := s.lifecycleFailed e

/-- CLOSE's last step: `life <- Closed`. -/
def State.closeDone (s : State) : State := { s with life := .closed }

/-- A request of CLOSE failed (R136 row 3). -/
def State.closeFailed (s : State) (e : PinEvent) : State := s.lifecycleFailed e

/-- A write operation has no last step of its own. -/
def State.writeDone (s : State) : State := s

/-- A request of a write operation failed: `life` stays Open, `env.sr` and `env.q` are unspecified. -/
def State.writeFailed (s : State) (_ : PinEvent) : State := s.drawRegister

/-! ### Operations -/

/-- `PIN_ID[...] <- pins` (R111). -/
def State.setPins (s : State) (pins : PinIds) : State := { s with pinId := some pins }

/-- A write operation: it has a meaning only when `life = Open` (R120), decided before the first event (R135). -/
def State.writeOp (s : State) (i : Instr) (plan : List PinEvent) : Host.Outcome State Fault Refusal :=
  match s.life with
  | .opened => .next (s.operate i plan State.writeDone State.writeFailed)
  | .closed => .refused .notOpen
  | .failed => .refused .notOpen

/-- OPEN(pins), R111. -/
def execOpen (pins : PinIds) (s : State) : Host.Outcome State Fault Refusal :=
  match s.life with
  | .closed =>
    if pins.distinct then
      .next ((s.setPins pins).operate (.openPins pins) openTrace State.openDone State.openFailed)
    else .next (s.raise (.invalidArgument (.pins pins)))
  | .opened => .refused .notClosed
  | .failed => .refused .notClosed

/-- CLOSE, R112: a no-op when Closed. -/
def execClose (s : State) : Host.Outcome State Fault Refusal :=
  match s.life with
  | .closed => .next (s.complete .none)
  | .opened => .next (s.operate .closePins closeTrace State.closeDone State.closeFailed)
  | .failed => .refused .closeAfterFailure

/-- WRITE_BIT(level), R113. -/
def execWriteBit (level : Level) (s : State) : Host.Outcome State Fault Refusal :=
  s.writeOp (.writeBit level) (bitTrace level)

/-- WRITE_BYTE(byte), R114. -/
def execWriteByte (byte : Byte) (s : State) : Host.Outcome State Fault Refusal :=
  s.writeOp (.writeByte byte) (byteTrace byte)

/-- LATCH, R115. -/
def execLatch (s : State) : Host.Outcome State Fault Refusal := s.writeOp .latch latchTrace

/-- WRITE_FRAME(f), R116. -/
def execWriteFrame (f : Frame) (s : State) : Host.Outcome State Fault Refusal :=
  s.writeOp (.writeFrame f) (frameTrace s.params.indOrder f)

end Sys2Proof.Machine
end

