-- ==== Sys2Proof/Machine/Dispatch.lean ====
section
/-! DEFINITION. One arm per operation (30_encoding.md R58). -/

namespace Sys2Proof.Machine

open Sys2Proof

def exec (i : Instr) (s : State) : Host.Outcome State Fault Refusal :=
  match i with
  | .intDigits v => Sys2Proof.Machine.execIntDigits v s
  | .fracDigits v => Sys2Proof.Machine.execFracDigits v s
  | .digitAt v k => Sys2Proof.Machine.execDigitAt v k s
  | .encDigit d point => Sys2Proof.Machine.execEncDigit d point s
  | .encSymbol c point => Sys2Proof.Machine.execEncSymbol c point s
  | .encRaw raw => Sys2Proof.Machine.execEncRaw raw s
  | .frameNew g2 g1 g0 red green blue => Sys2Proof.Machine.execFrameNew g2 g1 g0 red green blue s
  | .withStatus f ind value => Sys2Proof.Machine.execWithStatus f ind value s
  | .withGlyph f index g => Sys2Proof.Machine.execWithGlyph f index g s
  | .withPushed f g fromLeft => Sys2Proof.Machine.execWithPushed f g fromLeft s
  | .fmtText text => Sys2Proof.Machine.execFmtText text s
  | .fmtDecimal v ind => Sys2Proof.Machine.execFmtDecimal v ind s
  | .openPins pins => Sys2Proof.Machine.execOpen pins s
  | .closePins => Sys2Proof.Machine.execClose s
  | .writeBit level => Sys2Proof.Machine.execWriteBit level s
  | .writeByte byte => Sys2Proof.Machine.execWriteByte byte s
  | .latch => Sys2Proof.Machine.execLatch s
  | .writeFrame f => Sys2Proof.Machine.execWriteFrame f s

end Sys2Proof.Machine
end

