-- ==== Sys2Proof/Machine/EventLevel.lean ====
section
/-! DEFINITION. The event-level machine (10_state.md R10, R13): while an operation runs, `seq` is the index of its next
pin event, and one step is one pin event. The operation-level meanings are in Serializer.lean. -/

namespace Sys2Proof.Machine

open Sys2Proof

/-- The trace an operation produces when no request fails; a pure operation has none. -/
def tracePlan (order : IndOrder) : Instr → List PinEvent
  | .intDigits _ => []
  | .fracDigits _ => []
  | .digitAt _ _ => []
  | .encDigit _ _ => []
  | .encSymbol _ _ => []
  | .encRaw _ => []
  | .frameNew _ _ _ _ _ _ => []
  | .withStatus _ _ _ => []
  | .withGlyph _ _ _ => []
  | .withPushed _ _ _ => []
  | .fmtText _ => []
  | .fmtDecimal _ _ => []
  | .openPins _ => openTrace
  | .closePins => closeTrace
  | .writeBit l => bitTrace l
  | .writeByte b => byteTrace b
  | .latch => latchTrace
  | .writeFrame f => frameTrace order f

/-- What the end of an operation's trace does to `life`. -/
def State.finishPlan (s : State) : Instr → State
  | .openPins _ => s.openDone
  | .closePins => s.closeDone
  | _ => s.writeDone

/-- What the failing request `e` of an operation leaves (60_exceptions.md R136). -/
def State.abandonPlan (s : State) (i : Instr) (e : PinEvent) : State :=
  match i with
  | .openPins _ => s.openFailed e
  | .closePins => s.closeFailed e
  | _ => s.writeFailed e

/-- One pin event of the operation in progress; the operation ends "when `seq` reaches the length of its trace or when a
pin request fails" (R13). With no operation in progress nothing happens. -/
def State.eventStep (s : State) : State :=
  match s.active with
  | none => s
  | some a =>
    match (tracePlan s.params.indOrder a.op)[a.seq]? with
    | none => (s.finishPlan a.op).endOp.complete .none
    | some e =>
      match s.perform e with
      | (false, t) => (t.abandonPlan a.op e).endOp.raise (.hardwareIO e)
      | (true, t) =>
        if a.seq + 1 = (tracePlan s.params.indOrder a.op).length then (t.finishPlan a.op).endOp.complete .none else t

/-- `n` event steps. -/
def State.eventSteps : Nat → State → State
  | 0, s => s
  | n + 1, s => s.eventStep.eventSteps n

end Sys2Proof.Machine
end

