-- ==== Sys2Proof/Machine/Step.lean ====
section
/-! DEFINITION. One step: the block takes the host's next operation and performs it to completion (10_state.md R10). -/

namespace Sys2Proof.Machine

open Sys2Proof

/-- One step. -/
def step (s : State) : Host.Outcome State Fault Refusal :=
  match s.fetch with
  | .error r => .refused r
  | .ok (i, t) => exec i t

/-- `s` with the instruction of an opcode-table word issued as the host's next operation, where `step` takes its next
command (log entry 4). -/
def State.withFetchWord (s : State) (nbits w : Nat) : State := s.issueWord nbits w

end Sys2Proof.Machine
end

