-- ==== Sys2Proof/Safety.lean ====
section
/-! DEFINITION. What claims are stated in: the invariant of the machine, runs of several operations, and readings of a
list of pin events. -/

namespace Sys2Proof.Machine

open Sys2Proof

/-- What `life` says of the pins (10_state.md R16, R17; 60_exceptions.md R143): Closed, no pin is open; Open, all four
are, ENABLE is low and the identifiers are set; Failed, nothing is said. -/
def State.lifeAgrees (s : State) : Prop :=
  match s.life with
  | .closed => s.pinOpen = PerPin.all false
  | .opened => s.pinOpen = PerPin.all true ∧ s.pinLevel.enable = .low ∧ s.pinId ≠ none
  | .failed => True

/-- The identifiers, once set, are pairwise distinct (R15). -/
def State.pinsDistinct (s : State) : Prop := ∀ ids, s.pinId = some ids → ids.distinct = true

/-- The chain and the latch have `SR_LEN` stages (R19). -/
def State.registerSized (s : State) : Prop := s.sr.length = s.params.srLen ∧ s.q.length = s.params.srLen

/-- The invariant between operations: `seq` does not exist (R13), the identifiers are distinct (R15), the pins are as
`life` says (R16), and the register has its length (R19). -/
def State.Inv (s : State) : Prop := s.active = none ∧ s.pinsDistinct ∧ s.lifeAgrees ∧ s.registerSized

/-- The operations that write a frame or a part of one (44_serializer.md section 2). -/
def isWriteOp : Instr → Bool
  | .writeBit _ => true
  | .writeByte _ => true
  | .latch => true
  | .writeFrame _ => true
  | _ => false

/-- Several operations, in issue order (10_state.md R13; 20_memory.md R44). -/
def execAll : List Instr → State → Host.Outcome State Fault Refusal
  | [], s => .next s
  | i :: more, s =>
    match exec i s with
    | .next t => execAll more t
    | .fault r => .fault r
    | .refused r => .refused r

/-- The operation completes, returns `v`, and changes nothing but the list of results (00_scope.md glossary, *pure
operation*). -/
def returnsOnly (i : Instr) (s : State) (v : Value) : Prop :=
  exec i s = .next { s with results := s.results ++ [.ok v] }

/-- The operation returns the error `e` and changes nothing but the list of results (60_exceptions.md R131). -/
def raisesOnly (i : Instr) (s : State) (e : OpError) : Prop :=
  exec i s = .next { s with results := s.results ++ [.error e] }

/-- An event that is a request to the backend (20_memory.md R34). -/
def PinEvent.isRequest : PinEvent → Bool
  | .wait => false
  | .openReq _ => true
  | .writeReq _ _ => true
  | .closeReq _ => true

/-- How many requests a list of events makes. -/
def requestCount (events : List PinEvent) : Nat := events.countP PinEvent.isRequest

/-- The requests a list of events makes to the backend, by pin identifier (R34). -/
def callsOf (ids : PinIds) (events : List PinEvent) : List BackendCall :=
  events.filterMap fun
    | .wait => none
    | .openReq p => some (.openOutput (ids.get p))
    | .writeReq p l => some (.write (ids.get p) l)
    | .closeReq p => some (.close (ids.get p))

/-- The pin a request is about. -/
def PinEvent.role : PinEvent → Option PinRole
  | .wait => none
  | .openReq p => some p
  | .writeReq p _ => some p
  | .closeReq p => some p

/-- The levels "as last written" after a list of events, from the levels before it (60_exceptions.md R136). -/
def levelsAfter (levels : PerPin Level) : List PinEvent → PerPin Level
  | [] => levels
  | .writeReq p l :: more => levelsAfter (levels.set p l) more
  | .wait :: more => levelsAfter levels more
  | .openReq _ :: more => levelsAfter levels more
  | .closeReq _ :: more => levelsAfter levels more

/-- Every write in a list of events goes to a pin that is open, from the open pins before it (10_state.md R17). -/
def writesOnlyOpen (isOpen : PerPin Bool) : List PinEvent → Bool
  | [] => true
  | .wait :: more => writesOnlyOpen isOpen more
  | .openReq p :: more => writesOnlyOpen (isOpen.set p true) more
  | .writeReq p _ :: more => isOpen.get p && writesOnlyOpen isOpen more
  | .closeReq p :: more => writesOnlyOpen (isOpen.set p false) more

/-- The glyph of slot `k` of a frame: 0 rightmost, 2 leftmost (10_state.md R24). -/
def slotGlyph (f : Frame) (k : Nat) : Glyph := if k = 0 then f.g0 else if k = 1 then f.g1 else f.g2

/-- A hypothesis the source asserts of the real tables and no rule uses (41_glyph_encoder.md R88, H-sym): keys of `SYM`
that are not case variants of one letter have distinct patterns, and no pattern has the point bit set. -/
def hSym (p : Params) : Prop :=
  (∀ c d : CharCode, (p.sym c).isSome = true → (p.sym d).isSome = true → upper c ≠ upper d → p.sym c ≠ p.sym d) ∧
    ∀ (c : CharCode) (g : Byte), p.sym c = some g → g.getLsbD p.pointBit = false

/-- A decimal value whose rounding in FMT_DECIMAL carries into a new integer digit (43_frame_format.md R105). -/
def carries (q : ℚ) : Prop := (9.995 ≤ |q| ∧ |q| < 10) ∨ (99.95 ≤ |q| ∧ |q| < 100)

/-- `q × 10^n` is a whole number: `n` fractional digits represent `q` exactly (40_digit_arithmetic.md R72). -/
def fitsIn (q : ℚ) (n : Nat) : Prop := ∃ z : Int, q * 10 ^ n = z

end Sys2Proof.Machine
end

