-- ==== Sys2Proof/Certificates/Slice0/Obligations.lean ====
section
/-! DEFINITION. The statements about the model. A statement that rests on a decision or an inference of the spec (marked
"[decision: see ...]" or "[derived: ...]" there) says so in its docstring. -/

open Sys2Proof Sys2Proof.Machine

/-! ### Encoding -/

/-- Decoding the command of a well-formed operation gives it back, with any zero padding behind it, whatever the
parameters (`CHAR_BITS`, `DEC_COEFF_BITS`, `DEC_MAX_SCALE`). The operand bytes are the model's own encoding (log entries
1 to 3). -/
def Obligations.DecodeEncodeAgree : Prop :=
  ∀ (p : Params) (i : Instr) (k : Nat), i.wf p = true → decode p (encode i ++ List.replicate k 0) = .ok i

/-- The decoder gives well-formed operations only: decimals within the bounds of R70 (decision D17), characters of
`CHAR_BITS` bits (decision D6; log entry 15). -/
def Obligations.DecodedOperationsAreWellFormed : Prop :=
  ∀ (p : Params) (bs : List Byte) (i : Instr), decode p bs = .ok i → i.wf p = true

/-- The rows of R58, selector by selector, on operands of zeros (decision D1; operand bytes log entry 1). -/
def Obligations.SelectorBytesNameTheirOperations : Prop :=
  let zero : Decimal := ⟨false, 0, 0⟩
  let f : Frame := ⟨0, 0, 0, false, false, false⟩
  [0x00, 0x01, 0x02, 0x03, 0x04, 0x05, 0x06, 0x07, 0x08].map (decodeTableWord 8) =
    [some (.intDigits zero), some (.fracDigits zero), some (.digitAt zero 0), some (.encDigit 0 false),
      some (.encSymbol 0 false), some (.encRaw 0), some (.frameNew 0 0 0 false false false),
      some (.withStatus f 0 false), some (.withGlyph f 0 0)] ∧
  [0x09, 0x0A, 0x0B, 0x0C, 0x0D, 0x0E, 0x0F, 0x10, 0x11].map (decodeTableWord 8) =
    [some (.withPushed f 0 false), some (.fmtText []), some (.fmtDecimal zero 0), some (.openPins ⟨22, 23, 24, 25⟩),
      some .closePins, some (.writeBit .low), some (.writeByte 0), some .latch, some (.writeFrame f)]

/-- R59, U5: a selector of 0x12 to 0x1F names no operation and is refused, whatever its operand bytes. The numbering is
the spec's decision D1; that bits 7..5 of the selector's byte play no part is log entry 2. -/
def Obligations.UnnamedSelectorsRefused : Prop :=
  ∀ (s : State) (b : Byte) (operands : List Byte) (rest : List (List Byte)),
    s.active = none → s.life ≠ .failed → s.commands = (b :: operands) :: rest → 0x12 ≤ b.toNat % 32 →
      step s = .refused (.undecodable (.unknownSelector (b.extractLsb' 0 5)))

/-- A step takes the operation the host issued first and performs it; nothing else is added around it (R10, R13). -/
def Obligations.StepRunsTheDecodedOperation : Prop :=
  ∀ (s : State) (c : List Byte) (rest : List (List Byte)) (i : Instr),
    s.active = none → s.life ≠ .failed → s.commands = c :: rest → decode s.params c = .ok i →
      step s = exec i { s with commands := rest }

/-- When no step has a meaning: an operation in progress (R156), a failed serializer (R16, R161; decision D25, log entry
16), no operation issued (R161; log entry 4). -/
def Obligations.StepRefusesWhenNothingMayRun : Prop :=
  ∀ s : State,
    (s.active ≠ none → step s = .refused .operationInProgress) ∧
    (s.active = none → s.life = .failed → step s = .refused .serializerFailed) ∧
    (s.active = none → s.life ≠ .failed → s.commands = [] → step s = .refused .runEnded)

/-! ### Digit arithmetic -/

/-- R71: the number of digits before the point, 1 for a value below 1. R71's refusal of negative values is decision D18
and is stated apart. -/
def Obligations.IntDigitsCountsTheIntegerPart : Prop :=
  ∀ (v : Decimal) (s : State), 0 ≤ v.val →
    ∃ k : Nat, returnsOnly (.intDigits v) s (.nat k) ∧ 1 ≤ k ∧ ⌊v.val⌋ < 10 ^ k ∧
      (⌊v.val⌋ = 0 → k = 1) ∧ (⌊v.val⌋ ≠ 0 → 10 ^ (k - 1) ≤ ⌊v.val⌋)

/-- R72: FRAC_DIGITS is the least number of fractional digits that represent the value exactly (the spec derives this
form), and it is what the source's scan gives: multiply by 10, take the floor, count a run of zeros only if a later
nonzero digit appears. -/
def Obligations.FracDigitsIsTheLeastExactScale : Prop :=
  ∀ (v : Decimal) (s : State), 0 ≤ v.val →
    ∃ n : Nat, returnsOnly (.fracDigits v) s (.nat n) ∧ fitsIn v.val n ∧ (∀ m, fitsIn v.val m → n ≤ m) ∧
      n = v.fracDigitsScan

/-- R73: DIGIT_AT by the source's two formulas, in exact arithmetic (that the first quotient is floored is marked
derived in the spec). -/
def Obligations.DigitAtReadsTheDecimalExpansion : Prop :=
  ∀ (v : Decimal) (i : Int) (s : State), 0 ≤ v.val →
    ∃ d : Nat, returnsOnly (.digitAt v i) s (.nat d) ∧
      (0 ≤ i → (d : Int) = ⌊(⌊v.val⌋ : ℚ) / 10 ^ i.toNat⌋ % 10) ∧
      (i < 0 → (d : Int) = ⌊Int.fract v.val * 10 ^ (-i).toNat⌋ % 10)

/-- R75, decision D18: the three digit operations are refused on a negative value. -/
def Obligations.NegativeOperandsRefused : Prop :=
  ∀ (v : Decimal) (i : Int) (s : State), v.val < 0 →
    exec (.intDigits v) s = .refused .negativeOperand ∧ exec (.fracDigits v) s = .refused .negativeOperand ∧
      exec (.digitAt v i) s = .refused .negativeOperand

/-- R70: every operation depends on the value of a decimal only, never on its representation. (An InvalidArgument of
FMT_DECIMAL reports the operand itself, so the claim about FMT_DECIMAL is for values within its range.) -/
def Obligations.DecimalOperationsDependOnTheValueOnly : Prop :=
  ∀ (v w : Decimal) (i : Int) (ind : BitVec 2) (s : State), v.val = w.val →
    exec (.intDigits v) s = exec (.intDigits w) s ∧ exec (.fracDigits v) s = exec (.fracDigits w) s ∧
      exec (.digitAt v i) s = exec (.digitAt w i) s ∧
      (|v.val| ≤ 999 → exec (.fmtDecimal v ind) s = exec (.fmtDecimal w ind) s)

/-- R77: the properties the source states of the three digit functions. -/
def Obligations.SourceDigitProperties : Prop :=
  ∀ s : State,
    returnsOnly (.intDigits ⟨false, 0, 0⟩) s (.nat 1) ∧
    (∀ k ≤ 28, returnsOnly (.intDigits ⟨false, 10 ^ k, 0⟩) s (.nat (k + 1))) ∧
    (∀ k, 1 ≤ k → k ≤ 28 → returnsOnly (.intDigits ⟨false, 10 ^ k - 1, 0⟩) s (.nat k)) ∧
    returnsOnly (.fracDigits ⟨false, 0, 0⟩) s (.nat 0) ∧
    returnsOnly (.fracDigits ⟨false, 1, 1⟩) s (.nat 1) ∧
    returnsOnly (.fracDigits ⟨false, 10, 2⟩) s (.nat 1) ∧
    returnsOnly (.fracDigits ⟨false, 1, 2⟩) s (.nat 2) ∧
    returnsOnly (.fracDigits ⟨false, 1001, 4⟩) s (.nat 4) ∧
    (∀ i : Int, returnsOnly (.digitAt ⟨false, 0, 0⟩ i) s (.nat 0)) ∧
    returnsOnly (.digitAt ⟨false, 1, 0⟩ 0) s (.nat 1) ∧
    returnsOnly (.digitAt ⟨false, 10, 0⟩ 0) s (.nat 0) ∧
    returnsOnly (.digitAt ⟨false, 10, 0⟩ 1) s (.nat 1) ∧
    returnsOnly (.digitAt ⟨false, 1, 1⟩ (-1)) s (.nat 1) ∧
    returnsOnly (.digitAt ⟨false, 1, 1⟩ (-2)) s (.nat 0) ∧
    returnsOnly (.digitAt ⟨false, 1, 2⟩ (-2)) s (.nat 1)

/-- R74: `round_dec` gives a multiple of 10^−n nearest to the value; on a tie, the upper one under half up and the even
one under half even. -/
def Obligations.RoundDecIsNearest : Prop :=
  ∀ (mode : RoundMode) (q : Decimal) (n : Nat), 0 ≤ q.val →
    ∃ m : Nat, (roundDec mode q n).val = m / 10 ^ n ∧ |(m : ℚ) - q.val * 10 ^ n| ≤ 1 / 2 ∧
      (|(m : ℚ) - q.val * 10 ^ n| = 1 / 2 →
        (mode = .halfUp → q.val * 10 ^ n < m) ∧ (mode = .halfEven → m % 2 = 0))

/-! ### Glyphs -/

/-- R82: ENC_DIGIT gives the digit table's pattern with the point bit ORed in when the flag is set; `d` above 9 raises
InvalidArgument and changes nothing else (decision D7). -/
def Obligations.EncDigitReadsTheDigitTable : Prop :=
  ∀ (d : BitVec 4) (point : Bool) (s : State),
    (∀ h : d.toNat < 10, returnsOnly (.encDigit d point) s
      (.glyph (if point then s.params.digit[d.toNat] ||| (1#8 <<< (s.params.pointBit : Nat)) else s.params.digit[d.toNat]))) ∧
    (10 ≤ d.toNat → raisesOnly (.encDigit d point) s (.invalidArgument (.digit d)))

/-- R81, R83, R84: ENC_SYMBOL takes the pattern of the character as it is, else of its upper case, else of its lower case,
else of `?`, and ORs the point bit in when the flag is set. It rests on decisions: which characters have case, `upper` and
`lower`, is D6 (log entry 28), that `?` is a key is D5 (log entry 12), that a symbol takes the point flag is the spec's
inference (90_conflicts.md C9). -/
def Obligations.EncSymbolTriesThreeKeys : Prop :=
  ∀ (c : CharCode) (point : Bool) (s : State), ∃ g : Byte,
    returnsOnly (.encSymbol c point) s (.glyph (if point then g ||| (1#8 <<< (s.params.pointBit : Nat)) else g)) ∧
      (s.params.sym c = some g ∨
        (s.params.sym c = none ∧ s.params.sym (upper c) = some g) ∨
        (s.params.sym c = none ∧ s.params.sym (upper c) = none ∧ s.params.sym (lower c) = some g) ∨
        (s.params.sym c = none ∧ s.params.sym (upper c) = none ∧ s.params.sym (lower c) = none ∧
          s.params.sym 0x3F = some g))

/-- R83's consequence (90_conflicts.md C4): for a letter with a key in one case only, both cases give the same glyph. -/
def Obligations.SingleCaseLettersIgnoreCase : Prop :=
  ∀ (c : CharCode) (point : Bool) (s : State), upper c ≠ lower c →
    (s.params.sym (upper c)).isSome ≠ (s.params.sym (lower c)).isSome →
      ∃ g : Glyph, returnsOnly (.encSymbol (upper c) point) s (.glyph g) ∧
        returnsOnly (.encSymbol (lower c) point) s (.glyph g)

/-- R85: ENC_RAW gives the byte unchanged; its selector is 0x05. -/
def Obligations.EncRawIsTheByte : Prop :=
  ∀ (raw : Byte) (s : State), returnsOnly (.encRaw raw) s (.glyph raw) ∧ (Instr.encRaw raw).selector = 0x05

/-- R86, decision D8: the character encoding FMT_TEXT uses is the pseudo-operation ENC_CHAR: a digit character goes to
ENC_DIGIT, any other to ENC_SYMBOL. -/
def Obligations.EncCharIsTheFormatterEncoding : Prop :=
  ∀ (c : CharCode) (point : Bool) (s : State),
    returnsOnly (Instr.encCharOp c point) s (.glyph (s.params.charGlyph c point))

/-! ### Frames -/

/-- R90: FRAME_NEW puts the glyphs in slots 2, 1, 0 and the indicators in Red, Green, Blue; its selector is 0x06; an
indicator operand left out is 0, all three or any of them (how a command leaves one out is log entry 1). -/
def Obligations.FrameNewBuildsTheFrame : Prop :=
  ∀ (g2 g1 g0 : Glyph) (red green blue : Bool) (s : State), ∃ f : Frame,
    returnsOnly (.frameNew g2 g1 g0 red green blue) s (.frame f) ∧
      slotGlyph f 2 = g2 ∧ slotGlyph f 1 = g1 ∧ slotGlyph f 0 = g0 ∧
      f.red = red ∧ f.green = green ∧ f.blue = blue ∧
      (Instr.frameNew g2 g1 g0 red green blue).selector = 0x06 ∧
      ∀ p : Params,
        decode p [0x06, g2, g1, g0] = .ok (.frameNew g2 g1 g0 false false false) ∧
        decode p [0x06, g2, g1, g0, 2, encodeFlag green, encodeFlag blue] = .ok (.frameNew g2 g1 g0 false green blue) ∧
        decode p [0x06, g2, g1, g0, encodeFlag red, 2, encodeFlag blue] = .ok (.frameNew g2 g1 g0 red false blue) ∧
        decode p [0x06, g2, g1, g0, encodeFlag red, encodeFlag green] = .ok (.frameNew g2 g1 g0 red green false)

/-- R91: WITH_STATUS sets one indicator and copies the rest; code 3 raises InvalidArgument and changes nothing else
(codes: decision D11). -/
def Obligations.WithStatusSetsOneIndicator : Prop :=
  ∀ (f : Frame) (ind : BitVec 2) (value : Bool) (s : State),
    (ind ≠ 3 → ∃ f' : Frame, returnsOnly (.withStatus f ind value) s (.frame f') ∧
      f'.red = (if ind = 0 then value else f.red) ∧ f'.green = (if ind = 1 then value else f.green) ∧
      f'.blue = (if ind = 2 then value else f.blue) ∧ ∀ k < 3, slotGlyph f' k = slotGlyph f k) ∧
    (ind = 3 → raisesOnly (.withStatus f ind value) s (.invalidArgument (.indicator ind)))

/-- R92: WITH_GLYPH replaces one slot and copies the rest; index 3 raises InvalidArgument and changes nothing else; its
selector is 0x08. -/
def Obligations.WithGlyphReplacesOneSlot : Prop :=
  ∀ (f : Frame) (index : BitVec 2) (g : Glyph) (s : State),
    (index ≠ 3 → ∃ f' : Frame, returnsOnly (.withGlyph f index g) s (.frame f') ∧
      (∀ k < 3, slotGlyph f' k = if k = index.toNat then g else slotGlyph f k) ∧
      f'.red = f.red ∧ f'.green = f.green ∧ f'.blue = f.blue) ∧
    (index = 3 → raisesOnly (.withGlyph f index g) s (.invalidArgument (.index index))) ∧
    (Instr.withGlyph f index g).selector = 0x08

/-- R93: WITH_PUSHED shifts a glyph in at the left end or the right end and leaves the indicators (which end the flag
names: decision D19). -/
def Obligations.WithPushedShiftsTheGlyphs : Prop :=
  ∀ (f : Frame) (g : Glyph) (s : State),
    returnsOnly (.withPushed f g true) s (.frame ⟨g, f.g2, f.g1, f.red, f.green, f.blue⟩) ∧
    returnsOnly (.withPushed f g false) s (.frame ⟨f.g1, f.g0, g, f.red, f.green, f.blue⟩)

/-! ### Formatters -/

/-- R101, R102 (decision D9): the frame of a text holds its last three tokens, right-aligned, with dark glyphs on the
left, and no indicator. -/
def Obligations.FmtTextIsRightAligned : Prop :=
  ∀ (text : List CharCode) (s : State), ∃ f : Frame,
    returnsOnly (.fmtText text) s (.frame f) ∧
      (∀ k < 3, slotGlyph f k = (tokenise s.params text).reverse.getD k 0x00) ∧
      f.red = false ∧ f.green = false ∧ f.blue = false

/-- R159, program P5: formatting a text gives the frame that pushing its tokens in from the right, one by one, gives. -/
def Obligations.FmtTextEqualsScrollingIn : Prop :=
  ∀ (text : List CharCode) (s : State),
    returnsOnly (.fmtText text) s
      (.frame ((tokenise s.params text).foldl (fun f g => f.pushed g false) blankFrame))

/-- R100, R60 (decision D10): a period right after a character is folded into its glyph, a character not followed by a
period is a glyph of its own; so a text takes between half its length (rounded up) and its length in positions. -/
def Obligations.TokensFoldPeriods : Prop :=
  ∀ (p : Params) (c : CharCode) (rest text : List CharCode),
    tokenise p [] = [] ∧
    tokenise p (c :: 0x2E :: rest) = p.charGlyph c true :: tokenise p rest ∧
    (rest.head? ≠ some 0x2E → tokenise p (c :: rest) = p.charGlyph c false :: tokenise p rest) ∧
    (text.length + 1) / 2 ≤ positions p text ∧ positions p text ≤ text.length

/-- R103 step 1, R135: a value outside −999..999, or indicator code 3 (decision D11), raises InvalidArgument before
anything is built; the spec's pseudocode checks `ind` first. -/
def Obligations.FmtDecimalRejectsBeforeFormatting : Prop :=
  ∀ (v : Decimal) (ind : BitVec 2) (s : State),
    (ind = 3 → raisesOnly (.fmtDecimal v ind) s (.invalidArgument (.indicator ind))) ∧
    (ind ≠ 3 → 999 < |v.val| → raisesOnly (.fmtDecimal v ind) s (.invalidArgument (.decimal v)))

/-- R105 (decision D16): among the values accepted, FMT_DECIMAL is refused exactly where rounding carries into a new
integer digit, under either rounding mode. -/
def Obligations.FmtDecimalRefusedExactlyOnCarry : Prop :=
  ∀ (v : Decimal) (ind : BitVec 2) (s : State), ind ≠ 3 → |v.val| ≤ 999 →
    (exec (.fmtDecimal v ind) s = .refused .roundingCarry ↔ carries v.val)

/-- R103: the frame shows the number. `id` integer digits and `fd` fractional digits of `m / 10^fd` stand in the
rightmost slots, where that is the value itself if three digits hold it, else the value rounded to `3 − id` places
(decision D15); the point is on the integer digit `DP_PLACEMENT` names (decision D13); a negative value has a minus
glyph left of the digits if there is room, else the indicator `ind` (codes 0, 1, 2 as Red, Green, Blue: decision D11, log
entry 30). -/
def Obligations.FmtDecimalShowsTheRoundedValue : Prop :=
  ∀ (v : Decimal) (ind : BitVec 2) (s : State), ind ≠ 3 → |v.val| ≤ 999 → ¬ carries v.val →
    ∃ (f : Frame) (id fd m : Nat),
      returnsOnly (.fmtDecimal v ind) s (.frame f) ∧
      (1 ≤ id ∧ id + fd ≤ 3 ∧ |v.val| < 10 ^ id ∧ (1 < id → 10 ^ (id - 1) ≤ |v.val|)) ∧
      ((m = |v.val| * 10 ^ fd ∧ ∀ e < fd, ¬ fitsIn v.val e) ∨
        (fd = 3 - id ∧ (∀ e ≤ fd, ¬ fitsIn v.val e) ∧ |(m : ℚ) - |v.val| * 10 ^ fd| ≤ 1 / 2 ∧
          (|(m : ℚ) - |v.val| * 10 ^ fd| = 1 / 2 →
            (s.params.roundMode = .halfUp → |v.val| * 10 ^ fd < m) ∧
            (s.params.roundMode = .halfEven → m % 2 = 0)))) ∧
      (∀ k < 3, slotGlyph f k =
        if k < id + fd then
          s.params.digitGlyph ⟨m / 10 ^ k % 10, Nat.mod_lt _ (by decide)⟩
            (match s.params.dpPlacement with
              | .rightmostInteger => decide (0 < fd ∧ k = fd)
              | .leftmostInteger => decide (0 < fd ∧ k + 1 = id + fd))
        else if k = id + fd ∧ v.val < 0 then s.params.symMinus else 0x00) ∧
      (f.red = decide (v.val < 0 ∧ id + fd = 3 ∧ ind = 0)) ∧
      (f.green = decide (v.val < 0 ∧ id + fd = 3 ∧ ind = 1)) ∧
      (f.blue = decide (v.val < 0 ∧ id + fd = 3 ∧ ind = 2))

/-- R104: every representation of zero, negative zero too, with every indicator (three codes), shows a single 0 with no
point, no sign and no indicator. -/
def Obligations.ZeroShowsASingleDigit : Prop :=
  ∀ (v : Decimal) (ind : BitVec 2) (s : State), v.val = 0 → ind ≠ 3 →
    returnsOnly (.fmtDecimal v ind) s (.frame ⟨0x00, 0x00, s.params.digit[0], false, false, false⟩)

/-- R107: the source's examples of `format_decimal`, for every table and every placement of the point. -/
def Obligations.SourceFormatExamples : Prop :=
  ∀ s : State,
    let d : Fin 10 → Glyph := fun k => s.params.digit[k]
    let pt : Glyph → Glyph := fun g => g ||| (1#8 <<< (s.params.pointBit : Nat))
    (∀ v ∈ [(⟨false, 0, 0⟩ : Decimal), ⟨false, 0, 1⟩, ⟨false, 0, 2⟩, ⟨true, 0, 0⟩],
      returnsOnly (.fmtDecimal v 2) s (.frame ⟨0x00, 0x00, d 0, false, false, false⟩)) ∧
    returnsOnly (.fmtDecimal ⟨false, 123, 2⟩ 2) s (.frame ⟨pt (d 1), d 2, d 3, false, false, false⟩) ∧
    returnsOnly (.fmtDecimal ⟨true, 123, 2⟩ 2) s (.frame ⟨pt (d 1), d 2, d 3, false, false, true⟩) ∧
    returnsOnly (.fmtDecimal ⟨true, 12, 1⟩ 2) s (.frame ⟨s.params.symMinus, pt (d 1), d 2, false, false, false⟩) ∧
    raisesOnly (.fmtDecimal ⟨false, 1000, 0⟩ 2) s (.invalidArgument (.decimal ⟨false, 1000, 0⟩)) ∧
    ∀ v : Decimal, 999 < |v.val| → raisesOnly (.fmtDecimal v 2) s (.invalidArgument (.decimal v))

/-! ### Errors and frames over all operations -/

/-- Glossary, *pure operation*; R131: a pure operation that completes or raises changes nothing but the list of results
and makes no pin request; and any operation that raises InvalidArgument has changed no state and issued no event (which
operands are illegal rests on decisions D7, D11, D26). -/
def Obligations.PureAndRejectedOperationsTouchNothing : Prop :=
  (∀ (i : Instr) (s t : State), i.isPure = true → exec i s = .next t →
    ∃ r : Status, t = { s with results := s.results ++ [r] } ∧ ∀ e, r ≠ .error (.hardwareIO e)) ∧
  (∀ (i : Instr) (s t : State) (b : BadOperand), exec i s = .next t →
    t.results = s.results ++ [.error (.invalidArgument b)] → t = { s with results := t.results })

/-- R132: no operation raises InvalidOperation; a write when not open and a second OPEN are refused, not errors. That they
are refused is decision D24 (log entry 31). -/
def Obligations.InvalidOperationIsNeverRaised : Prop :=
  (∀ (i : Instr) (s t : State), exec i s = .next t →
    ∃ r : Status, t.results = s.results ++ [r] ∧ r ≠ .error .invalidOperation) ∧
  (∀ (i : Instr) (s : State), isWriteOp i = true → s.life = .closed → exec i s = .refused .notOpen) ∧
  (∀ (pins : PinIds) (s : State), s.life = .opened → exec (.openPins pins) s = .refused .notClosed)

/-- R32: the tables and the other parameters are written by no step, so every later lookup of a key returns the same
value. -/
def Obligations.ParametersNeverChange : Prop :=
  ∀ s t : State, step s = .next t → t.params = s.params ∧ ∀ c, t.params.symLookup c = s.params.symLookup c

/-! ### Serializer: lifecycle -/

/-- R111, R23 (order of opening: decision D20): OPEN on a closed serializer, every request succeeding. The levels of
DATA, CLOCK and LATCH are unspecified afterwards (decision D21); the register is unchanged. -/
def Obligations.OpenOpensTheSerializer : Prop :=
  ∀ (pins : PinIds) (s : State), s.life = .closed → pins.distinct = true → s.succeeds 5 →
    ∃ (d c l : Level) (levels : Supply Level),
      exec (.openPins pins) s = .next
        { s with
          life := .opened
          pinId := some pins
          pinOpen := PerPin.all true
          pinLevel := ⟨d, c, l, .low⟩
          active := none
          results := s.results ++ [.ok .none]
          trace := s.trace ++
            [.openReq .data, .openReq .clock, .openReq .latch, .openReq .enable, .writeReq .enable .low]
          calls := s.calls ++
            [.openOutput pins.data, .openOutput pins.clock, .openOutput pins.latch, .openOutput pins.enable,
              .write pins.enable .low]
          answers := s.answers.drop 5
          levels := levels }

/-- R18, decision D21: nothing fixes the levels of DATA, CLOCK and LATCH after OPEN; each combination occurs for some
draws of the environment. -/
def Obligations.OpenLeavesTheLevelsFree : Prop :=
  ∀ (pins : PinIds) (s : State) (d c l : Level), s.life = .closed → pins.distinct = true → s.succeeds 5 →
    ∃ (levels : Supply Level) (t : State), exec (.openPins pins) { s with levels := levels } = .next t ∧
      t.pinLevel = ⟨d, c, l, .low⟩

/-- R136 row 2, decision D25: OPEN's request number `n` is the first to fail. The error names it, the events after it are
not issued, the pins opened before it stay open, and `life` is Failed; a failed open leaves the register unchanged. After
the failed ENABLE write, `n` = 4, R136 says unchanged and R39 unspecified: which holds is the model's parameter (log entry
18). That the identifiers are set although OPEN fails is the model's reading (log entry 10). -/
def Obligations.OpenFailsAtTheFirstFailingRequest : Prop :=
  ∀ (pins : PinIds) (s : State) (n : Nat) (e : PinEvent),
    s.life = .closed → s.pinOpen = PerPin.all false → pins.distinct = true →
    openTrace[n]? = some e → s.succeeds n → s.answer n = false →
      ∃ (levels : PerPin Level) (draws : Supply Level) (chain outputs : List Bool) (chains : Supply Bool),
        exec (.openPins pins) s = .next
          { s with
            life := .failed
            pinId := some pins
            pinOpen := ⟨decide (0 < n), decide (1 < n), decide (2 < n), decide (3 < n)⟩
            pinLevel := levels
            active := none
            results := s.results ++ [.error (.hardwareIO e)]
            trace := s.trace ++ openTrace.take (n + 1)
            calls := s.calls ++ callsOf pins (openTrace.take (n + 1))
            answers := s.answers.drop (n + 1)
            levels := draws
            sr := chain
            q := outputs
            chains := chains } ∧
        (n < 4 ∨ s.params.failedEnableWrite = .keepsRegister → chain = s.sr ∧ outputs = s.q ∧ chains = s.chains)

/-- R112, R154 (order of closing: decision D20): CLOSE on an open serializer, every request succeeding: ENABLE is driven
high before any pin is closed; the levels are no longer driven; the register keeps its contents. -/
def Obligations.CloseReleasesThePins : Prop :=
  ∀ (ids : PinIds) (s : State), s.life = .opened → s.pinId = some ids → s.succeeds 5 →
    ∃ (levels : PerPin Level) (draws : Supply Level),
      exec .closePins s = .next
        { s with
          life := .closed
          pinOpen := PerPin.all false
          pinLevel := levels
          active := none
          results := s.results ++ [.ok .none]
          trace := s.trace ++
            [.writeReq .enable .high, .closeReq .data, .closeReq .clock, .closeReq .latch, .closeReq .enable]
          calls := s.calls ++
            [.write ids.enable .high, .close ids.data, .close ids.clock, .close ids.latch, .close ids.enable]
          answers := s.answers.drop 5
          levels := draws }

/-- R136 row 3, decision D25: CLOSE's request number `n` is the first to fail. A failed close ends `pin_open` too (R17);
a failed ENABLE write, `n` = 0, closes no pin (log entry 19). A failed close leaves the register unchanged; after the
failed ENABLE write R136 says unchanged and R39 unspecified: which holds is the model's parameter (log entry 18). -/
def Obligations.CloseFailsAtTheFirstFailingRequest : Prop :=
  ∀ (ids : PinIds) (s : State) (n : Nat) (e : PinEvent),
    s.life = .opened → s.pinOpen = PerPin.all true → s.pinId = some ids →
    closeTrace[n]? = some e → s.succeeds n → s.answer n = false →
      ∃ (levels : PerPin Level) (draws : Supply Level) (chain outputs : List Bool) (chains : Supply Bool),
        exec .closePins s = .next
          { s with
            life := .failed
            pinOpen := ⟨decide (n < 1), decide (n < 2), decide (n < 3), decide (n < 4)⟩
            pinLevel := levels
            active := none
            results := s.results ++ [.error (.hardwareIO e)]
            trace := s.trace ++ closeTrace.take (n + 1)
            calls := s.calls ++ callsOf ids (closeTrace.take (n + 1))
            answers := s.answers.drop (n + 1)
            levels := draws
            sr := chain
            q := outputs
            chains := chains } ∧
        (0 < n ∨ s.params.failedEnableWrite = .keepsRegister → chain = s.sr ∧ outputs = s.q ∧ chains = s.chains)

/-- Decisions D24, D26 (R111, R112, R120): writes need Open, OPEN needs Closed, CLOSE on Closed is a no-op and on Failed is
refused; identifiers that coincide raise InvalidArgument with no event. -/
def Obligations.LifecycleMisuse : Prop :=
  ∀ (i : Instr) (pins : PinIds) (s : State),
    (isWriteOp i = true → s.life ≠ .opened → exec i s = .refused .notOpen) ∧
    (s.life ≠ .closed → exec (.openPins pins) s = .refused .notClosed) ∧
    (s.life = .closed → returnsOnly .closePins s .none) ∧
    (s.life = .failed → exec .closePins s = .refused .closeAfterFailure) ∧
    (s.life = .closed → pins.distinct = false → raisesOnly (.openPins pins) s (.invalidArgument (.pins pins)))

/-! ### Serializer: writing -/

/-- R113 with R36 (the register is the spec's model, decision D23): WRITE_BIT, every request succeeding, from either level
of CLOCK: a CLOCK that was high makes no edge and nothing is shifted. -/
def Obligations.WriteBitShiftsOneBit : Prop :=
  ∀ (level : Level) (ids : PinIds) (s : State), s.life = .opened → s.pinId = some ids → s.succeeds 3 →
    exec (.writeBit level) s = .next
      { s with
        pinLevel := { s.pinLevel with data := level, clock := .low }
        sr := if s.pinLevel.clock = .low then (level.bit :: s.sr).take s.params.srLen else s.sr
        active := none
        results := s.results ++ [.ok .none]
        trace := s.trace ++ [.writeReq .data level, .wait, .writeReq .clock .high, .wait, .writeReq .clock .low, .wait]
        calls := s.calls ++ [.write ids.data level, .write ids.clock .high, .write ids.clock .low]
        answers := s.answers.drop 3 }

/-- R114 with R48 (decision D23): WRITE_BYTE, every request succeeding: eight bits, most significant first, so that
`byte[0]` ends at stage 0 and `byte[7]` at stage 7, for any length of the chain; a CLOCK that was high loses the first of
them (R152). -/
def Obligations.WriteByteShiftsEightBits : Prop :=
  ∀ (byte : Byte) (ids : PinIds) (s : State), s.life = .opened → s.pinId = some ids → s.succeeds 24 →
    let events := [7, 6, 5, 4, 3, 2, 1, 0].flatMap fun k => bitTrace (if byte.getLsbD k then .high else .low)
    exec (.writeByte byte) s = .next
      { s with
        pinLevel := { s.pinLevel with data := if byte.getLsbD 0 then .high else .low, clock := .low }
        sr := if s.pinLevel.clock = .low then (stagesOf byte ++ s.sr).take s.params.srLen
              else ((stagesOf byte).take 7 ++ s.sr).take s.params.srLen
        active := none
        results := s.results ++ [.ok .none]
        trace := s.trace ++ events
        calls := s.calls ++ callsOf ids events
        answers := s.answers.drop 24 }

/-- R115 with R37 (decision D23): LATCH, every request succeeding, from either level of LATCH: a LATCH that was high makes
no edge and nothing is transferred. DATA and CLOCK are not touched. -/
def Obligations.LatchCopiesTheChain : Prop :=
  ∀ (ids : PinIds) (s : State), s.life = .opened → s.pinId = some ids → s.succeeds 2 →
    exec .latch s = .next
      { s with
        pinLevel := { s.pinLevel with latch := .low }
        q := if s.pinLevel.latch = .low then s.sr else s.q
        active := none
        results := s.results ++ [.ok .none]
        trace := s.trace ++ [.writeReq .latch .high, .wait, .writeReq .latch .low, .wait]
        calls := s.calls ++ [.write ids.latch .high, .write ids.latch .low]
        answers := s.answers.drop 2 }

/-- R116, R121, R152 (decisions D12, D21, D23; that on is high: D29, log entry 30): WRITE_FRAME, every request succeeding,
from any levels. From CLOCK low the chain holds the wire word from stage 0 up, so a chain of 32 stages holds it alone,
whatever it held, and a longer one old bits above it; from CLOCK high the first bit is lost. From LATCH low the outputs
follow, from LATCH high they keep their contents. -/
def Obligations.WriteFramePutsTheWireWord : Prop :=
  ∀ (f : Frame) (ids : PinIds) (s : State), s.life = .opened → s.pinId = some ids → s.succeeds 98 →
    let w := f.wireWord s.params.indOrder
    let chain := if s.pinLevel.clock = .low then (stagesOf w ++ s.sr).take s.params.srLen
      else ((stagesOf w).take 31 ++ s.sr).take s.params.srLen
    (s.pinLevel.clock = .low → s.params.srLen = 32 → chain = stagesOf w) ∧
    exec (.writeFrame f) s = .next
      { s with
        pinLevel := { s.pinLevel with data := Level.ofBit f.red, clock := .low, latch := .low }
        sr := chain
        q := if s.pinLevel.latch = .low then chain else s.q
        active := none
        results := s.results ++ [.ok .none]
        trace := s.trace ++ frameTrace s.params.indOrder f
        calls := s.calls ++ callsOf ids (frameTrace s.params.indOrder f)
        answers := s.answers.drop 98 }

/-- R53: the wire word, field by field and as a number, in both indicator orders (which one is the default: decision D12). -/
def Obligations.WireWordLayout : Prop :=
  ∀ (f : Frame) (order : IndOrder),
    let w := f.wireWord order
    w.extractLsb' 24 8 = f.g2 ∧ w.extractLsb' 16 8 = f.g1 ∧ w.extractLsb' 8 8 = f.g0 ∧ w.extractLsb' 3 5 = 0 ∧
      w.getLsbD 2 = (match order with | .bgr => f.blue | .gbr => f.green) ∧
      w.getLsbD 1 = (match order with | .bgr => f.green | .gbr => f.blue) ∧
      w.getLsbD 0 = f.red ∧
      w.toNat = f.g2.toNat * 2 ^ 24 + f.g1.toNat * 2 ^ 16 + f.g0.toNat * 2 ^ 8 +
        (match order with | .bgr => f.blue.toNat * 4 + f.green.toNat * 2 | .gbr => f.green.toNat * 4 + f.blue.toNat * 2) +
        f.red.toNat

/-- R52, R116, R117, R158: the trace of WRITE_FRAME is the wire word's bits, bit 31 first, then the latch pulse: 196
events, 98 of them waits, so at least 98 waits of `T_WAIT`. ENABLE occurs in none. -/
def Obligations.FrameTraceIsTheWireWordInOrder : Prop :=
  ∀ (order : IndOrder) (f : Frame) (tWait : Nat),
    frameTrace order f =
      ((List.range 32).flatMap fun t => bitTrace (if (f.wireWord order).getLsbD (31 - t) then .high else .low)) ++
        [.writeReq .latch .high, .wait, .writeReq .latch .low, .wait] ∧
    (frameTrace order f).length = 196 ∧ requestCount (frameTrace order f) = 98 ∧
    waitBound tWait (frameTrace order f) = 98 * tWait ∧
    (∀ l, PinEvent.writeReq .enable l ∉ frameTrace order f)

/-- R133, R136 row 1 (decision D25): in a write operation the request `e` is the first to fail. `life` stays Open, the
other three levels are as last written, the events after `e` are not issued, the error names `e`, and the run may go
on. -/
def Obligations.FailedWriteStopsThere : Prop :=
  ∀ (i : Instr) (s : State) (ids : PinIds) (before after : List PinEvent) (e : PinEvent),
    isWriteOp i = true → s.life = .opened → s.pinId = some ids →
    tracePlan s.params.indOrder i = before ++ e :: after → e.isRequest = true →
    s.succeeds (requestCount before) → s.answer (requestCount before) = false →
      ∃ t : State, exec i s = .next t ∧
        t.results = s.results ++ [.error (.hardwareIO e)] ∧ t.life = .opened ∧ t.active = none ∧
        t.trace = s.trace ++ before ++ [e] ∧ t.calls = s.calls ++ callsOf ids (before ++ [e]) ∧
        (∀ p, e.role ≠ some p → t.pinLevel.get p = (levelsAfter s.pinLevel before).get p) ∧
        t.pinId = s.pinId ∧ t.pinOpen = s.pinOpen ∧ t.params = s.params ∧ t.commands = s.commands ∧
        t.answers = s.answers.drop (requestCount before + 1)

/-- R136 row 1, U1, U2: after a failed write nothing fixes `env.sr`, `env.q` or the failing pin's level: all values occur
for some draws of the environment. The same after a failed ENABLE write of OPEN or CLOSE, of all four levels, where the
parameter takes R39's side (log entry 18). -/
def Obligations.FailedWriteLeavesTheRegisterFree : Prop :=
  (∀ (i : Instr) (s : State) (before after : List PinEvent) (e : PinEvent) (p : PinRole)
    (chain outputs : List Bool) (level : Level),
    isWriteOp i = true → s.life = .opened → chain.length = s.params.srLen → outputs.length = s.params.srLen →
    tracePlan s.params.indOrder i = before ++ e :: after → e.role = some p →
    s.succeeds (requestCount before) → s.answer (requestCount before) = false →
      ∃ (chains : Supply Bool) (levels : Supply Level) (t : State),
        exec i { s with chains := chains, levels := levels } = .next t ∧
          t.sr = chain ∧ t.q = outputs ∧ t.pinLevel.get p = level) ∧
  (∀ (pins : PinIds) (s : State) (chain outputs : List Bool) (pinLevels : PerPin Level),
    s.life = .closed → pins.distinct = true → s.params.failedEnableWrite = .losesRegister →
    chain.length = s.params.srLen → outputs.length = s.params.srLen → s.succeeds 4 → s.answer 4 = false →
      ∃ (chains : Supply Bool) (levels : Supply Level) (t : State),
        exec (.openPins pins) { s with chains := chains, levels := levels } = .next t ∧
          t.sr = chain ∧ t.q = outputs ∧ t.pinLevel = pinLevels) ∧
  (∀ (s : State) (chain outputs : List Bool) (pinLevels : PerPin Level),
    s.life = .opened → s.params.failedEnableWrite = .losesRegister →
    chain.length = s.params.srLen → outputs.length = s.params.srLen → s.answer 0 = false →
      ∃ (chains : Supply Bool) (levels : Supply Level) (t : State),
        exec .closePins { s with chains := chains, levels := levels } = .next t ∧
          t.sr = chain ∧ t.q = outputs ∧ t.pinLevel = pinLevels)

/-- R118, R133: an operation with a trace runs it to its end and completes, or stops at the first request the backend
fails and returns that failure; nothing else ends it early, and no other event is among its own. -/
def Obligations.OperationsRunToTheirEndOrFirstFailure : Prop :=
  ∀ (i : Instr) (s t : State), i.isPure = false → exec i s = .next t →
    ∃ events : List PinEvent, t.trace = s.trace ++ events ∧
      ((events = tracePlan s.params.indOrder i ∧ s.succeeds (requestCount events) ∧
          t.results = s.results ++ [.ok .none]) ∨
        (∃ before after e, tracePlan s.params.indOrder i = before ++ e :: after ∧ events = before ++ [e] ∧
          e.isRequest = true ∧ s.succeeds (requestCount before) ∧ s.answer (requestCount before) = false ∧
          t.results = s.results ++ [.error (.hardwareIO e)]) ∨
        (events = [] ∧ i = .closePins ∧ s.life = .closed ∧ t.results = s.results ++ [.ok .none]) ∨
        (∃ pins, events = [] ∧ i = .openPins pins ∧ pins.distinct = false ∧
          t.results = s.results ++ [.error (.invalidArgument (.pins pins))]))

/-- R122: a completed WRITE_BIT leaves CLOCK low and LATCH as it was, a completed LATCH leaves LATCH low and CLOCK as it
was, so idle-low, once reached, is kept by every completed write; a write that fails at DATA keeps it too (R137). -/
def Obligations.IdleLowIsKept : Prop :=
  (∀ (l : Level) (s t : State), exec (.writeBit l) s = .next t → t.results = s.results ++ [.ok .none] →
    t.pinLevel.clock = .low ∧ t.pinLevel.latch = s.pinLevel.latch) ∧
  (∀ s t : State, exec .latch s = .next t → t.results = s.results ++ [.ok .none] →
    t.pinLevel.latch = .low ∧ t.pinLevel.clock = s.pinLevel.clock) ∧
  (∀ (i : Instr) (s t : State), isWriteOp i = true → s.idleLow → exec i s = .next t →
    (t.results = s.results ++ [.ok .none] ∨ ∃ l, t.results = s.results ++ [.error (.hardwareIO (.writeReq .data l))]) →
      t.idleLow)

/-- R152, R121: whatever the levels OPEN left, the second of two completed frame writes is exact: the chain and the outputs
hold its wire word from stage 0 up, and nothing else where the chain has at most 32 stages; the display shows them while
ENABLE is low (the hazard rests on decisions D21 and D23). -/
def Obligations.SecondFrameIsExact : Prop :=
  ∀ (f g : Frame) (s : State), s.life = .opened → s.succeeds 196 →
    let w := stagesOf (g.wireWord s.params.indOrder)
    ∃ (t : State) (old : List Bool), execAll [.writeFrame f, .writeFrame g] s = .next t ∧
      t.sr = (w ++ old).take s.params.srLen ∧ (s.params.srLen ≤ 32 → t.sr = w.take s.params.srLen) ∧ t.q = t.sr ∧
      t.idleLow ∧ t.pinLevel.enable = s.pinLevel.enable ∧
      (s.pinLevel.enable = .low → t.display = some t.sr)

/-- Program P3, R155, R116: a frame sent by hand with WRITE_BYTE, WRITE_BIT and LATCH leaves the same register, levels,
trace and requests as WRITE_FRAME. -/
def Obligations.FrameByHandEqualsWriteFrame : Prop :=
  ∀ (f : Frame) (s : State), s.life = .opened → s.succeeds 98 →
    let i := f.indicatorBits s.params.indOrder
    let low := Instr.writeBit .low
    ∃ t u : State,
      execAll ([.writeByte f.g2, .writeByte f.g1, .writeByte f.g0, low, low, low, low, low,
        .writeBit (Level.ofBit i.1), .writeBit (Level.ofBit i.2.1), .writeBit (Level.ofBit i.2.2), .latch]) s = .next t ∧
      execAll [.writeFrame f] s = .next u ∧
      t = { u with results := s.results ++ List.replicate 12 (.ok .none) }

/-- R151, R23: the start-up sequence with the first frame sent twice, then CLOSE: from any closed state, with every request
succeeding, the outputs end holding the frame's wire word from stage 0 up, and nothing else where the chain has 32 stages,
shown until CLOSE and kept after it (decisions D20, D21, D23). -/
def Obligations.SessionShowsTheFrame : Prop :=
  ∀ (pins : PinIds) (f : Frame) (s : State), s.life = .closed → pins.distinct = true → s.succeeds 206 →
    let w := stagesOf (f.wireWord s.params.indOrder)
    ∃ (t u : State) (old : List Bool),
      execAll [.openPins pins, .writeFrame f, .writeFrame f] s = .next t ∧
        t.life = .opened ∧ t.display = some ((w ++ old).take s.params.srLen) ∧
      exec .closePins t = .next u ∧
        u.life = .closed ∧ u.pinOpen = PerPin.all false ∧ u.q = (w ++ old).take s.params.srLen ∧ u.sr = u.q ∧
        (s.params.srLen = 32 → u.q = w) ∧
        u.trace = s.trace ++ openTrace ++ frameTrace s.params.indOrder f ++ frameTrace s.params.indOrder f ++ closeTrace ∧
        u.results = s.results ++ List.replicate 4 (.ok .none) ∧ u.params = s.params ∧ u.commands = s.commands

/-! ### Whole machine -/

/-- R143: OPEN enables, CLOSE disables, and no other operation touches ENABLE: its level, its events. The register keeps
its contents through OPEN and CLOSE, also while disabled; after their failed ENABLE write it does so by R136, where R39
leaves it unspecified, and which of the two holds is the model's parameter (log entry 18). -/
def Obligations.EnableIsTouchedByOpenAndCloseOnly : Prop :=
  (∀ (i : Instr) (s t : State), (∀ pins, i ≠ .openPins pins) → i ≠ .closePins → exec i s = .next t →
    t.pinLevel.enable = s.pinLevel.enable ∧
      ∃ events, t.trace = s.trace ++ events ∧ ∀ e ∈ events, e.role ≠ some .enable) ∧
  (∀ (pins : PinIds) (s t : State), exec (.openPins pins) s = .next t →
    (t.results ≠ s.results ++ [.error (.hardwareIO (.writeReq .enable .low))] ∨
        s.params.failedEnableWrite = .keepsRegister → t.sr = s.sr ∧ t.q = s.q) ∧
    (t.life = .opened → t.pinLevel.enable = .low)) ∧
  (∀ s t : State, exec .closePins s = .next t →
    (t.results ≠ s.results ++ [.error (.hardwareIO (.writeReq .enable .high))] ∨
        s.params.failedEnableWrite = .keepsRegister → t.sr = s.sr ∧ t.q = s.q) ∧
    (s.life = .opened → ∃ events, t.trace = s.trace ++ .writeReq .enable .high :: events))

/-- R42, R45, R37: the outputs change at the latch pulse only. No operation but LATCH and WRITE_FRAME changes them, unless
a request fails; and while a frame is being shifted, through the first 192 events of WRITE_FRAME, they hold their old
contents. -/
def Obligations.OutputsChangeOnlyAtTheLatchPulse : Prop :=
  (∀ (i : Instr) (s t : State), i ≠ .latch → (∀ f, i ≠ .writeFrame f) → exec i s = .next t →
    (∀ e, t.results ≠ s.results ++ [.error (.hardwareIO e)]) → t.q = s.q) ∧
  (∀ (f : Frame) (s : State) (n : Nat), s.succeeds 96 → n ≤ 192 →
    ((s.beginOp (.writeFrame f)).eventSteps n).q = s.q ∧
      ((s.beginOp (.writeFrame f)).eventSteps n).active = some ⟨.writeFrame f, n⟩)

/-- R10, R13: the operation-level step is the event-level machine run from the operation's beginning to its end (that a
step is a whole operation, and the event-level machine itself, are log entry 17). -/
def Obligations.EventLevelReachesTheOperationResult : Prop :=
  (∀ (i : Instr) (s : State), isWriteOp i = true → s.life = .opened →
    exec i s = .next ((s.beginOp i).eventSteps (tracePlan s.params.indOrder i).length)) ∧
  (∀ (pins : PinIds) (s : State), s.life = .closed → pins.distinct = true →
    exec (.openPins pins) s = .next (((s.setPins pins).beginOp (.openPins pins)).eventSteps 5)) ∧
  (∀ s : State, s.life = .opened → exec .closePins s = .next ((s.beginOp .closePins).eventSteps 5))

/-- R35: pin writes are issued whatever the levels: with other levels before it, an operation issues the same events and
ends the same way; and a write that does not change the level makes no edge and moves nothing in the register. -/
def Obligations.EarlierLevelsDoNotShapeTheTrace : Prop :=
  (∀ (i : Instr) (s t : State) (levels : PerPin Level), exec i s = .next t →
    ∃ u : State, exec i { s with pinLevel := levels } = .next u ∧
      u.trace = t.trace ∧ u.calls = t.calls ∧ u.results = t.results ∧ u.life = t.life) ∧
  (∀ (s : State) (p : PinRole) (l : Level), s.pinLevel.get p = l → s.drive p l = s)

/-- R19, R22: no operation reads the external register: with other contents there, every outcome is the same but for
those contents. -/
def Obligations.EnvironmentIsNeverRead : Prop :=
  ∀ (i : Instr) (s : State) (chain outputs : List Bool),
    (∀ r, exec i s = .refused r → exec i { s with sr := chain, q := outputs } = .refused r) ∧
    (∀ t, exec i s = .next t →
      ∃ chain' outputs', exec i { s with sr := chain, q := outputs } = .next { t with sr := chain', q := outputs' })

/-- R17: a step of a machine that meets the invariant writes only to pins that are open. -/
def Obligations.WritesGoToOpenPins : Prop :=
  ∀ s t : State, s.Inv → step s = .next t →
    ∃ events, t.trace = s.trace ++ events ∧ writesOnlyOpen s.pinOpen events = true

/-- R13, R15, R16, R17, R19, R143: every step keeps the invariant: no operation in progress between operations, distinct
identifiers, the pins as `life` says, and a chain and a latch of `SR_LEN` stages. -/
def Obligations.EveryStepKeepsTheInvariant : Prop :=
  ∀ s t : State, s.Inv → step s = .next t → t.Inv

/-- R23, R150: the reset state meets the invariant: Closed, no pin open, no identifier set, nothing in progress, a register
of 32 stages (decision D23). -/
def Obligations.ResetMeetsTheInvariant : Prop :=
  State.reset.Inv ∧ State.reset.life = .closed ∧ State.reset.pinId = none ∧ State.reset.pinOpen = PerPin.all false ∧
    State.reset.trace = [] ∧ State.reset.results = []
end

