-- ==== Sys2Proof/Laws/Decode.lean ====
section
/-! SUPPORT. Reading back what the encoder wrote, one lemma per operand. -/

namespace Sys2Proof

@[simp] theorem Read.andThen_ok {α β : Type} (a : α) (rest : List Byte) (k : α → List Byte → Read β) :
    Read.andThen (.ok (a, rest)) k = k a rest := rfl

@[simp] theorem Read.andThen_error {α β : Type} (e : DecodeError) (k : α → List Byte → Read β) :
    Read.andThen (.error e) k = .error e := rfl

/-- A reader that goes on has read its operand. -/
theorem Read.andThen_eq_ok {α β : Type} {r : Read α} {k : α → List Byte → Read β} {b : β} {out : List Byte}
    (h : r.andThen k = .ok (b, out)) : ∃ a rest, r = .ok (a, rest) ∧ k a rest = .ok (b, out) := by
  rcases r with e | ⟨a, rest⟩
  · simp at h
  · exact ⟨a, rest, rfl, h⟩

@[simp] theorem readByte_cons (b : Byte) (rest : List Byte) : readByte (b :: rest) = .ok (b, rest) := rfl

@[simp] theorem readFlag_encodeFlag (b : Bool) (rest : List Byte) : readFlag (encodeFlag b :: rest) = .ok (b, rest) := by
  cases b <;> rfl

theorem readBits_setWidth {w : Nat} (hw : w ≤ 8) (x : BitVec w) (rest : List Byte) :
    readBits w (x.setWidth 8 :: rest) = .ok (x, rest) := by
  have h1 : x.toNat < 2 ^ w := x.isLt
  have h2 : 2 ^ w ≤ 2 ^ 8 := Nat.pow_le_pow_right (by decide) hw
  have h3 : (x.setWidth 8).toNat = x.toNat := by rw [BitVec.toNat_setWidth, Nat.mod_eq_of_lt (by omega)]
  have h4 : (x.setWidth 8).setWidth w = x := BitVec.eq_of_toNat_eq (by
    rw [BitVec.toNat_setWidth, h3, Nat.mod_eq_of_lt h1])
  simp [readBits, h3, h1, h4]

theorem readNat_encodeNatFuel (fuel n : Nat) (h : n ≤ fuel) (rest : List Byte) :
    readNat (encodeNatFuel fuel n ++ rest) = .ok (n, rest) := by
  induction fuel generalizing n with
  | zero => obtain rfl : n = 0 := by omega
            rfl
  | succ fuel ih =>
    rw [encodeNatFuel]
    split
    case isTrue hn =>
      have : (BitVec.ofNat 8 n).toNat = n := by simp; omega
      simp only [List.cons_append, List.nil_append, readNat, this, if_pos hn]
    case isFalse hn =>
      have h1 : (BitVec.ofNat 8 (n % 128 + 128)).toNat = n % 128 + 128 := by simp; omega
      rw [List.cons_append, readNat, h1, if_neg (by omega), ih (n / 128) (by omega)]
      simp only [Except.ok.injEq, Prod.mk.injEq, and_true]
      omega

@[simp] theorem readNat_encodeNat (n : Nat) (rest : List Byte) : readNat (encodeNat n ++ rest) = .ok (n, rest) :=
  readNat_encodeNatFuel n n (Nat.le_refl n) rest

@[simp] theorem readInt_encodeInt (i : Int) (rest : List Byte) : readInt (encodeInt i ++ rest) = .ok (i, rest) := by
  simp only [readInt, encodeInt, List.cons_append, readFlag_encodeFlag, Read.andThen_ok, readNat_encodeNat]
  congr 2
  by_cases h : i < 0
  · simp [h, abs_of_neg h]
  · simp [h, abs_of_nonneg (not_lt.1 h)]

theorem readDecimal_encodeDecimal {p : Params} {v : Decimal} (h : v.wf p = true) (rest : List Byte) :
    readDecimal p (encodeDecimal v ++ rest) = .ok (v, rest) := by
  simp [readDecimal, encodeDecimal, h]

@[simp] theorem readFrame_encodeFrame (f : Frame) (rest : List Byte) :
    readFrame (encodeFrame f ++ rest) = .ok (f, rest) := by
  simp [readFrame, encodeFrame]

/-- An optional operand that is written out is read as it was written. -/
@[simp] theorem readOptional_encodeFlag (b : Bool) (rest : List Byte) :
    readOptional (encodeFlag b :: rest) = .ok (b, rest) := by cases b <;> rfl

@[simp] theorem readNewFrame_encodeFrame (f : Frame) (rest : List Byte) :
    readNewFrame (encodeFrame f ++ rest) = .ok (f, rest) := by
  simp [readNewFrame, encodeFrame]

@[simp] theorem readChar_encodeNat {p : Params} {c : CharCode} (h : p.charFits c = true) (rest : List Byte) :
    readChar p (encodeNat c ++ rest) = .ok (c, rest) := by
  simp [readChar, h]

theorem readChars_flatMap {p : Params} {s : List CharCode} (h : s.all p.charFits = true) (rest : List Byte) :
    readChars p s.length (s.flatMap encodeNat ++ rest) = .ok (s, rest) := by
  induction s with
  | nil => rfl
  | cons c s ih =>
    rw [List.all_cons, Bool.and_eq_true] at h
    simp [readChars, readChar_encodeNat h.1, ih h.2]

theorem readText_encode {p : Params} {s : List CharCode} (h : s.all p.charFits = true) (rest : List Byte) :
    readText p (encodeNat s.length ++ (s.flatMap encodeNat ++ rest)) = .ok (s, rest) := by
  simp [readText, readChars_flatMap h]

@[simp] theorem readPins_encodePins (p : PinIds) (rest : List Byte) :
    readPins (encodePins p ++ rest) = .ok (p, rest) := by
  simp [readPins, encodePins]

@[simp] theorem readLevel_encode (l : Level) (rest : List Byte) :
    readLevel (encodeFlag l.bit :: rest) = .ok (l, rest) := by cases l <;> rfl

/-- A decimal that is read is within the bounds of R70. -/
theorem readDecimal_wf {p : Params} {bs rest : List Byte} {v : Decimal} (h : readDecimal p bs = .ok (v, rest)) :
    v.wf p = true := by
  obtain ⟨neg, r1, -, h⟩ := Read.andThen_eq_ok h
  obtain ⟨coeff, r2, -, h⟩ := Read.andThen_eq_ok h
  obtain ⟨scale, r3, -, h⟩ := Read.andThen_eq_ok h
  simp only at h
  split at h
  · next hw => cases h; exact hw
  · cases h

/-- A character that is read is within `CHAR_BITS`. -/
theorem readChar_fits {p : Params} {bs rest : List Byte} {c : CharCode} (h : readChar p bs = .ok (c, rest)) :
    p.charFits c = true := by
  obtain ⟨n, r, -, h⟩ := Read.andThen_eq_ok h
  split at h
  · next hw => cases h; exact hw
  · cases h

theorem readChars_fit {p : Params} {n : Nat} {bs rest : List Byte} {s : List CharCode}
    (h : readChars p n bs = .ok (s, rest)) : s.all p.charFits = true := by
  induction n generalizing bs s with
  | zero => cases h; rfl
  | succ n ih =>
    obtain ⟨c, r1, hc, h⟩ := Read.andThen_eq_ok h
    obtain ⟨cs, r2, hs, h⟩ := Read.andThen_eq_ok h
    cases h
    rw [List.all_cons, readChar_fits hc, ih hs]; rfl

theorem readText_fit {p : Params} {bs rest : List Byte} {s : List CharCode} (h : readText p bs = .ok (s, rest)) :
    s.all p.charFits = true := by
  obtain ⟨n, r, -, h⟩ := Read.andThen_eq_ok h
  exact readChars_fit h

@[simp] theorem selectorOf_selector (i : Instr) : selectorOf (i.selector.setWidth 8) = i.selector := by
  cases i <;> rfl

end Sys2Proof
end

