-- ==== Sys2Proof/Laws/Digits.lean ====
section
/-! SUPPORT. The arithmetic on the triple (neg, coeff, scale) against the value it stands for (40_digit_arithmetic.md). -/

namespace Sys2Proof

open Machine

theorem Decimal.abs_val (v : Decimal) : |v.val| = (v.coeff : ℚ) / 10 ^ v.scale := by
  have h : (0 : ℚ) ≤ (v.coeff : ℚ) / 10 ^ v.scale := by positivity
  cases hn : v.neg <;> simp only [Decimal.val, hn, if_true, Bool.false_eq_true, if_false]
  · rw [one_mul, abs_of_nonneg h]
  · rw [neg_one_mul, neg_div, abs_neg, abs_of_nonneg h]

theorem Decimal.isNegative_iff (v : Decimal) : v.isNegative = true ↔ v.val < 0 := by
  have hd : (0 : ℚ) < 10 ^ v.scale := by positivity
  cases hn : v.neg
  · have : (0 : ℚ) ≤ v.val := by simp only [Decimal.val, hn]; simp; positivity
    simp [Decimal.isNegative, hn, this]
  · have hv : v.val = -((v.coeff : ℚ) / 10 ^ v.scale) := by simp [Decimal.val, hn, neg_div]
    rw [hv, neg_lt_zero, div_pos_iff_of_pos_right hd]
    simp [Decimal.isNegative, hn, Nat.pos_iff_ne_zero]

theorem Decimal.isNegative_eq_false {v : Decimal} (h : 0 ≤ v.val) : v.isNegative = false := by
  cases hn : v.isNegative
  · rfl
  · exact absurd ((v.isNegative_iff).1 hn) (not_lt.2 h)

/-- The value of a decimal that is not negative. -/
theorem Decimal.val_of_nonneg {v : Decimal} (h : 0 ≤ v.val) : v.val = (v.coeff : ℚ) / 10 ^ v.scale := by
  rw [← v.abs_val, abs_of_nonneg h]

theorem floor_natDiv (a b : Nat) : ⌊(a : ℚ) / (b : ℚ)⌋ = ((a / b : Nat) : Int) := by
  rw [← Int.natCast_floor_eq_floor (by positivity), Nat.floor_div_eq_div]

theorem Decimal.floor_val {v : Decimal} (h : 0 ≤ v.val) : ⌊v.val⌋ = (v.floor : Int) := by
  rw [Decimal.val_of_nonneg h, Decimal.floor, ← floor_natDiv]; push_cast; rfl

theorem Decimal.floor_abs_val (v : Decimal) : ⌊|v.val|⌋ = (v.floor : Int) := by
  rw [v.abs_val, Decimal.floor, ← floor_natDiv]; push_cast; rfl

/-! ### INT_DIGITS (R71) -/

/-- `countDigits` gives the unique `k ≥ 1` with `10^(k−1) ≤ n < 10^k`, and 1 for 0. -/
theorem countDigits_spec (fuel n : Nat) (h : n ≤ fuel) :
    1 ≤ countDigits fuel n ∧ n < 10 ^ countDigits fuel n ∧ (n = 0 → countDigits fuel n = 1) ∧
      (n ≠ 0 → 10 ^ (countDigits fuel n - 1) ≤ n) := by
  induction fuel generalizing n with
  | zero => obtain rfl : n = 0 := by omega
            simp [countDigits]
  | succ fuel ih =>
    rw [countDigits]
    split
    case isTrue hn => refine ⟨by omega, by omega, fun _ => rfl, fun h0 => by simp; omega⟩
    case isFalse hn =>
      obtain ⟨h1, h2, -, h4⟩ := ih (n / 10) (by omega)
      refine ⟨by omega, ?_, fun h0 => by omega, fun _ => ?_⟩
      · rw [pow_succ]; omega
      · obtain ⟨k, hk⟩ : ∃ k, countDigits fuel (n / 10) = k + 1 := ⟨_, (Nat.sub_add_cancel h1).symm⟩
        have := h4 (by omega)
        rw [hk] at this ⊢
        simp only [Nat.add_sub_cancel] at this ⊢
        rw [pow_succ]; omega

theorem Decimal.intDigits_spec (v : Decimal) :
    1 ≤ v.intDigits ∧ v.floor < 10 ^ v.intDigits ∧ (v.floor = 0 → v.intDigits = 1) ∧
      (v.floor ≠ 0 → 10 ^ (v.intDigits - 1) ≤ v.floor) := countDigits_spec _ _ (Nat.le_refl _)

/-! ### FRAC_DIGITS (R72) -/

/-- `n` places represent `coeff / 10^scale` exactly when `n` is at least `stripZeros`. -/
theorem stripZeros_le_iff (scale coeff n : Nat) : stripZeros scale coeff ≤ n ↔ 10 ^ scale ∣ coeff * 10 ^ n := by
  induction scale generalizing coeff with
  | zero => simp [stripZeros]
  | succ scale ih =>
    rw [stripZeros]
    split
    case isTrue h =>
      obtain ⟨c, rfl⟩ := Nat.dvd_of_mod_eq_zero h
      rw [Nat.mul_div_cancel_left _ (by decide), ih, pow_succ, mul_comm (10 ^ scale) 10, mul_assoc]
      exact (Nat.mul_dvd_mul_iff_left (by decide)).symm
    case isFalse h =>
      constructor
      · intro hn
        exact dvd_mul_of_dvd_right (pow_dvd_pow 10 hn) _
      · intro hd
        by_contra hn
        obtain ⟨k, hk⟩ : ∃ k, scale + 1 = n + (k + 1) := ⟨scale - n, by omega⟩
        rw [hk, pow_add, mul_comm coeff] at hd
        have := (Nat.mul_dvd_mul_iff_left (by positivity : 0 < 10 ^ n)).1 hd
        exact h (Nat.mod_eq_zero_of_dvd ((dvd_pow_self 10 (by omega)).trans this))

theorem fitsIn_iff (v : Decimal) (n : Nat) : fitsIn v.val n ↔ v.fracDigits ≤ n := by
  have hd : (10 ^ v.scale : ℚ) ≠ 0 := by positivity
  have key : fitsIn |v.val| n ↔ 10 ^ v.scale ∣ v.coeff * 10 ^ n := by
    rw [v.abs_val, fitsIn]
    constructor
    · rintro ⟨z, hz⟩
      have : (v.coeff : ℚ) * 10 ^ n = z * 10 ^ v.scale := by field_simp at hz; linarith
      have h2 : ((v.coeff * 10 ^ n : Nat) : Int) = z * ((10 ^ v.scale : Nat) : Int) := by exact_mod_cast this
      exact Int.natCast_dvd_natCast.1 ⟨z, by rw [h2, mul_comm]⟩
    · rintro ⟨z, hz⟩
      refine ⟨z, ?_⟩
      have : (v.coeff : ℚ) * 10 ^ n = 10 ^ v.scale * z := by exact_mod_cast hz
      field_simp
      rw [this]; push_cast; ring
  have habs : fitsIn v.val n ↔ fitsIn |v.val| n := by
    rcases abs_choice v.val with h | h <;> rw [h]
    constructor <;> rintro ⟨z, hz⟩ <;> refine ⟨-z, ?_⟩ <;> push_cast <;> linarith
  rw [habs, key, Decimal.fracDigits, stripZeros_le_iff]

/-! ### FMT_DECIMAL's range (R103 step 1) -/

theorem Decimal.outOfRange_iff (v : Decimal) : v.outOfRange = true ↔ 999 < |v.val| := by
  have hd : (0 : ℚ) < 10 ^ v.scale := by positivity
  rw [v.abs_val, lt_div_iff₀ hd, Decimal.outOfRange, decide_eq_true_iff, Config.maxDecimal]
  exact_mod_cast Iff.rfl

/-! ### Rounding (R74) -/

/-- `roundedNum` is the integer nearest to `coeff × 10^n / 10^scale`; on a tie the upper or the even one. -/
theorem roundedNum_spec (mode : RoundMode) (q : Decimal) (n : Nat) :
    |(roundedNum mode q n : ℚ) - |q.val| * 10 ^ n| ≤ 1 / 2 ∧
      (|(roundedNum mode q n : ℚ) - |q.val| * 10 ^ n| = 1 / 2 →
        (mode = .halfUp → |q.val| * 10 ^ n < roundedNum mode q n) ∧
          (mode = .halfEven → roundedNum mode q n % 2 = 0)) := by
  have hd : (0 : ℚ) < 10 ^ q.scale := by positivity
  set den := 10 ^ q.scale with hden
  have hden0 : 0 < den := by positivity
  set fl := q.coeff * 10 ^ n / den with hfl
  set r := q.coeff * 10 ^ n % den with hr
  have hsum : den * fl + r = q.coeff * 10 ^ n := Nat.div_add_mod _ _
  have hrlt : r < den := Nat.mod_lt _ hden0
  have hq : |q.val| * 10 ^ n = fl + (r : ℚ) / den := by
    rw [q.abs_val]
    have hsum' : ((den : ℚ)) * fl + r = q.coeff * 10 ^ n := by exact_mod_cast hsum
    have hden' : (den : ℚ) = 10 ^ q.scale := by simp [hden]
    have : (den : ℚ) ≠ 0 := by positivity
    rw [← hden']
    field_simp
    linarith
  have hdq : (0 : ℚ) < den := by exact_mod_cast hden0
  rw [hq]
  have lo : (0 : ℚ) ≤ (r : ℚ) / den := by positivity
  have hi : (r : ℚ) / den < 1 := by rw [div_lt_one hdq]; exact_mod_cast hrlt
  have down : ((fl : ℚ) - (fl + (r : ℚ) / den)) = -((r : ℚ) / den) := by ring
  have up : (((fl + 1 : Nat) : ℚ) - (fl + (r : ℚ) / den)) = 1 - (r : ℚ) / den := by push_cast; ring
  have half_lt : (r : ℚ) / den < 1 / 2 ↔ 2 * r < den := by
    rw [div_lt_iff₀ hdq]; constructor <;> intro h
    · have : ((2 * r : Nat) : ℚ) < den := by push_cast; linarith
      exact_mod_cast this
    · have : ((2 * r : Nat) : ℚ) < den := by exact_mod_cast h
      push_cast at this; linarith
  have half_gt : 1 / 2 < (r : ℚ) / den ↔ den < 2 * r := by
    rw [lt_div_iff₀ hdq]; constructor <;> intro h
    · have : (den : ℚ) < ((2 * r : Nat) : ℚ) := by push_cast; linarith
      exact_mod_cast this
    · have : (den : ℚ) < ((2 * r : Nat) : ℚ) := by exact_mod_cast h
      push_cast at this; linarith
  have hm : roundedNum mode q n = if 2 * r < den then fl else if den < 2 * r then fl + 1
      else match mode with | .halfUp => fl + 1 | .halfEven => if fl % 2 = 0 then fl else fl + 1 := rfl
  rw [hm]
  split
  case isTrue h =>
    have := half_lt.2 h
    rw [down, abs_neg, abs_of_nonneg lo]
    exact ⟨this.le, fun he => absurd he this.ne⟩
  case isFalse h =>
    have h1 : (1 : ℚ) / 2 ≤ r / den := not_lt.1 fun hh => h (half_lt.1 hh)
    split
    case isTrue h' =>
      have := half_gt.2 h'
      rw [up, abs_of_nonneg (by linarith)]
      exact ⟨by linarith, fun he => by linarith⟩
    case isFalse h' =>
      have h2 : (r : ℚ) / den ≤ 1 / 2 := not_lt.1 fun hh => h' (half_gt.1 hh)
      have he : (r : ℚ) / den = 1 / 2 := le_antisymm h2 h1
      cases mode with
      | halfUp =>
        simp only
        rw [up, he]
        refine ⟨by norm_num [abs_of_pos], fun _ => ⟨fun _ => ?_, fun hh => (by cases hh)⟩⟩
        push_cast; linarith
      | halfEven =>
        simp only
        split
        case isTrue hp =>
          rw [down, he]
          exact ⟨by norm_num [abs_of_neg], fun _ => ⟨fun hh => (by cases hh), fun _ => hp⟩⟩
        case isFalse hp =>
          rw [up, he]
          exact ⟨by norm_num [abs_of_pos], fun _ => ⟨fun hh => (by cases hh), fun _ => by omega⟩⟩

end Sys2Proof
end

