-- ==== Sys2Proof/Laws/State.lean ====
section
/-! SUPPORT. One lemma per field per update of the state, each true by rfl, so that no later proof unfolds a record
update; and the same for one value per pin. -/

namespace Sys2Proof

@[simp] theorem PerPin.get_all {α : Type} (a : α) (p : PinRole) : (PerPin.all a).get p = a := by cases p <;> rfl
@[simp] theorem PerPin.get_set_self {α : Type} (x : PerPin α) (p : PinRole) (a : α) : (x.set p a).get p = a := by
  cases p <;> rfl
@[simp] theorem PerPin.get_set_ne {α : Type} (x : PerPin α) {p r : PinRole} (a : α) (h : r ≠ p) :
    (x.set p a).get r = x.get r := by cases p <;> cases r <;> first | rfl | exact absurd rfl h
@[simp] theorem PerPin.set_data {α : Type} (x : PerPin α) (a : α) : x.set .data a = { x with data := a } := rfl
@[simp] theorem PerPin.set_clock {α : Type} (x : PerPin α) (a : α) : x.set .clock a = { x with clock := a } := rfl
@[simp] theorem PerPin.set_latch {α : Type} (x : PerPin α) (a : α) : x.set .latch a = { x with latch := a } := rfl
@[simp] theorem PerPin.set_enable {α : Type} (x : PerPin α) (a : α) : x.set .enable a = { x with enable := a } := rfl

@[simp] theorem Level.bit_ofBit (b : Bool) : (Level.ofBit b).bit = b := by cases b <;> rfl
@[simp] theorem Level.ofBit_bit (l : Level) : Level.ofBit l.bit = l := by cases l <;> rfl

end Sys2Proof

namespace Sys2Proof.Machine

open Sys2Proof

@[simp] theorem State.drawLevel_params (s : State) (p : PinRole) : (s.drawLevel p).params = s.params := rfl
@[simp] theorem State.drawLevel_life (s : State) (p : PinRole) : (s.drawLevel p).life = s.life := rfl
@[simp] theorem State.drawLevel_pinId (s : State) (p : PinRole) : (s.drawLevel p).pinId = s.pinId := rfl
@[simp] theorem State.drawLevel_pinOpen (s : State) (p : PinRole) : (s.drawLevel p).pinOpen = s.pinOpen := rfl
@[simp] theorem State.drawLevel_pinLevel (s : State) (p : PinRole) : (s.drawLevel p).pinLevel = s.pinLevel.set p (s.levels.peek Config.freeLevel 0) := rfl
@[simp] theorem State.drawLevel_sr (s : State) (p : PinRole) : (s.drawLevel p).sr = s.sr := rfl
@[simp] theorem State.drawLevel_q (s : State) (p : PinRole) : (s.drawLevel p).q = s.q := rfl
@[simp] theorem State.drawLevel_active (s : State) (p : PinRole) : (s.drawLevel p).active = s.active := rfl
@[simp] theorem State.drawLevel_commands (s : State) (p : PinRole) : (s.drawLevel p).commands = s.commands := rfl
@[simp] theorem State.drawLevel_results (s : State) (p : PinRole) : (s.drawLevel p).results = s.results := rfl
@[simp] theorem State.drawLevel_trace (s : State) (p : PinRole) : (s.drawLevel p).trace = s.trace := rfl
@[simp] theorem State.drawLevel_calls (s : State) (p : PinRole) : (s.drawLevel p).calls = s.calls := rfl
@[simp] theorem State.drawLevel_answers (s : State) (p : PinRole) : (s.drawLevel p).answers = s.answers := rfl
@[simp] theorem State.drawLevel_levels (s : State) (p : PinRole) : (s.drawLevel p).levels = s.levels.rest := rfl
@[simp] theorem State.drawLevel_chains (s : State) (p : PinRole) : (s.drawLevel p).chains = s.chains := rfl

@[simp] theorem State.drawRegister_params (s : State) : (s.drawRegister).params = s.params := rfl
@[simp] theorem State.drawRegister_life (s : State) : (s.drawRegister).life = s.life := rfl
@[simp] theorem State.drawRegister_pinId (s : State) : (s.drawRegister).pinId = s.pinId := rfl
@[simp] theorem State.drawRegister_pinOpen (s : State) : (s.drawRegister).pinOpen = s.pinOpen := rfl
@[simp] theorem State.drawRegister_pinLevel (s : State) : (s.drawRegister).pinLevel = s.pinLevel := rfl
@[simp] theorem State.drawRegister_sr (s : State) : (s.drawRegister).sr = s.drawnStages 0 := rfl
@[simp] theorem State.drawRegister_q (s : State) : (s.drawRegister).q = s.drawnStages s.params.srLen := rfl
@[simp] theorem State.drawRegister_active (s : State) : (s.drawRegister).active = s.active := rfl
@[simp] theorem State.drawRegister_commands (s : State) : (s.drawRegister).commands = s.commands := rfl
@[simp] theorem State.drawRegister_results (s : State) : (s.drawRegister).results = s.results := rfl
@[simp] theorem State.drawRegister_trace (s : State) : (s.drawRegister).trace = s.trace := rfl
@[simp] theorem State.drawRegister_calls (s : State) : (s.drawRegister).calls = s.calls := rfl
@[simp] theorem State.drawRegister_answers (s : State) : (s.drawRegister).answers = s.answers := rfl
@[simp] theorem State.drawRegister_levels (s : State) : (s.drawRegister).levels = s.levels := rfl
@[simp] theorem State.drawRegister_chains (s : State) : (s.drawRegister).chains = s.chains.drop (2 * s.params.srLen) := rfl

@[simp] theorem State.emit_params (s : State) (e : PinEvent) : (s.emit e).params = s.params := rfl
@[simp] theorem State.emit_life (s : State) (e : PinEvent) : (s.emit e).life = s.life := rfl
@[simp] theorem State.emit_pinId (s : State) (e : PinEvent) : (s.emit e).pinId = s.pinId := rfl
@[simp] theorem State.emit_pinOpen (s : State) (e : PinEvent) : (s.emit e).pinOpen = s.pinOpen := rfl
@[simp] theorem State.emit_pinLevel (s : State) (e : PinEvent) : (s.emit e).pinLevel = s.pinLevel := rfl
@[simp] theorem State.emit_sr (s : State) (e : PinEvent) : (s.emit e).sr = s.sr := rfl
@[simp] theorem State.emit_q (s : State) (e : PinEvent) : (s.emit e).q = s.q := rfl
@[simp] theorem State.emit_active (s : State) (e : PinEvent) : (s.emit e).active = s.active.map Activity.advance := rfl
@[simp] theorem State.emit_commands (s : State) (e : PinEvent) : (s.emit e).commands = s.commands := rfl
@[simp] theorem State.emit_results (s : State) (e : PinEvent) : (s.emit e).results = s.results := rfl
@[simp] theorem State.emit_trace (s : State) (e : PinEvent) : (s.emit e).trace = s.trace ++ [e] := rfl
@[simp] theorem State.emit_calls (s : State) (e : PinEvent) : (s.emit e).calls = s.calls ++ (s.backendCall e).toList := rfl
@[simp] theorem State.emit_answers (s : State) (e : PinEvent) : (s.emit e).answers = s.answers := rfl
@[simp] theorem State.emit_levels (s : State) (e : PinEvent) : (s.emit e).levels = s.levels := rfl
@[simp] theorem State.emit_chains (s : State) (e : PinEvent) : (s.emit e).chains = s.chains := rfl

@[simp] theorem State.takeAnswer_params (s : State) : (s.takeAnswer).params = s.params := rfl
@[simp] theorem State.takeAnswer_life (s : State) : (s.takeAnswer).life = s.life := rfl
@[simp] theorem State.takeAnswer_pinId (s : State) : (s.takeAnswer).pinId = s.pinId := rfl
@[simp] theorem State.takeAnswer_pinOpen (s : State) : (s.takeAnswer).pinOpen = s.pinOpen := rfl
@[simp] theorem State.takeAnswer_pinLevel (s : State) : (s.takeAnswer).pinLevel = s.pinLevel := rfl
@[simp] theorem State.takeAnswer_sr (s : State) : (s.takeAnswer).sr = s.sr := rfl
@[simp] theorem State.takeAnswer_q (s : State) : (s.takeAnswer).q = s.q := rfl
@[simp] theorem State.takeAnswer_active (s : State) : (s.takeAnswer).active = s.active := rfl
@[simp] theorem State.takeAnswer_commands (s : State) : (s.takeAnswer).commands = s.commands := rfl
@[simp] theorem State.takeAnswer_results (s : State) : (s.takeAnswer).results = s.results := rfl
@[simp] theorem State.takeAnswer_trace (s : State) : (s.takeAnswer).trace = s.trace := rfl
@[simp] theorem State.takeAnswer_calls (s : State) : (s.takeAnswer).calls = s.calls := rfl
@[simp] theorem State.takeAnswer_answers (s : State) : (s.takeAnswer).answers = s.answers.rest := rfl
@[simp] theorem State.takeAnswer_levels (s : State) : (s.takeAnswer).levels = s.levels := rfl
@[simp] theorem State.takeAnswer_chains (s : State) : (s.takeAnswer).chains = s.chains := rfl

@[simp] theorem State.setOpen_params (s : State) (p : PinRole) (b : Bool) : (s.setOpen p b).params = s.params := rfl
@[simp] theorem State.setOpen_life (s : State) (p : PinRole) (b : Bool) : (s.setOpen p b).life = s.life := rfl
@[simp] theorem State.setOpen_pinId (s : State) (p : PinRole) (b : Bool) : (s.setOpen p b).pinId = s.pinId := rfl
@[simp] theorem State.setOpen_pinOpen (s : State) (p : PinRole) (b : Bool) : (s.setOpen p b).pinOpen = s.pinOpen.set p b := rfl
@[simp] theorem State.setOpen_pinLevel (s : State) (p : PinRole) (b : Bool) : (s.setOpen p b).pinLevel = s.pinLevel := rfl
@[simp] theorem State.setOpen_sr (s : State) (p : PinRole) (b : Bool) : (s.setOpen p b).sr = s.sr := rfl
@[simp] theorem State.setOpen_q (s : State) (p : PinRole) (b : Bool) : (s.setOpen p b).q = s.q := rfl
@[simp] theorem State.setOpen_active (s : State) (p : PinRole) (b : Bool) : (s.setOpen p b).active = s.active := rfl
@[simp] theorem State.setOpen_commands (s : State) (p : PinRole) (b : Bool) : (s.setOpen p b).commands = s.commands := rfl
@[simp] theorem State.setOpen_results (s : State) (p : PinRole) (b : Bool) : (s.setOpen p b).results = s.results := rfl
@[simp] theorem State.setOpen_trace (s : State) (p : PinRole) (b : Bool) : (s.setOpen p b).trace = s.trace := rfl
@[simp] theorem State.setOpen_calls (s : State) (p : PinRole) (b : Bool) : (s.setOpen p b).calls = s.calls := rfl
@[simp] theorem State.setOpen_answers (s : State) (p : PinRole) (b : Bool) : (s.setOpen p b).answers = s.answers := rfl
@[simp] theorem State.setOpen_levels (s : State) (p : PinRole) (b : Bool) : (s.setOpen p b).levels = s.levels := rfl
@[simp] theorem State.setOpen_chains (s : State) (p : PinRole) (b : Bool) : (s.setOpen p b).chains = s.chains := rfl

@[simp] theorem State.setLevel_params (s : State) (p : PinRole) (l : Level) : (s.setLevel p l).params = s.params := rfl
@[simp] theorem State.setLevel_life (s : State) (p : PinRole) (l : Level) : (s.setLevel p l).life = s.life := rfl
@[simp] theorem State.setLevel_pinId (s : State) (p : PinRole) (l : Level) : (s.setLevel p l).pinId = s.pinId := rfl
@[simp] theorem State.setLevel_pinOpen (s : State) (p : PinRole) (l : Level) : (s.setLevel p l).pinOpen = s.pinOpen := rfl
@[simp] theorem State.setLevel_pinLevel (s : State) (p : PinRole) (l : Level) : (s.setLevel p l).pinLevel = s.pinLevel.set p l := rfl
@[simp] theorem State.setLevel_sr (s : State) (p : PinRole) (l : Level) : (s.setLevel p l).sr = s.sr := rfl
@[simp] theorem State.setLevel_q (s : State) (p : PinRole) (l : Level) : (s.setLevel p l).q = s.q := rfl
@[simp] theorem State.setLevel_active (s : State) (p : PinRole) (l : Level) : (s.setLevel p l).active = s.active := rfl
@[simp] theorem State.setLevel_commands (s : State) (p : PinRole) (l : Level) : (s.setLevel p l).commands = s.commands := rfl
@[simp] theorem State.setLevel_results (s : State) (p : PinRole) (l : Level) : (s.setLevel p l).results = s.results := rfl
@[simp] theorem State.setLevel_trace (s : State) (p : PinRole) (l : Level) : (s.setLevel p l).trace = s.trace := rfl
@[simp] theorem State.setLevel_calls (s : State) (p : PinRole) (l : Level) : (s.setLevel p l).calls = s.calls := rfl
@[simp] theorem State.setLevel_answers (s : State) (p : PinRole) (l : Level) : (s.setLevel p l).answers = s.answers := rfl
@[simp] theorem State.setLevel_levels (s : State) (p : PinRole) (l : Level) : (s.setLevel p l).levels = s.levels := rfl
@[simp] theorem State.setLevel_chains (s : State) (p : PinRole) (l : Level) : (s.setLevel p l).chains = s.chains := rfl

@[simp] theorem State.shiftIn_params (s : State) : (s.shiftIn).params = s.params := rfl
@[simp] theorem State.shiftIn_life (s : State) : (s.shiftIn).life = s.life := rfl
@[simp] theorem State.shiftIn_pinId (s : State) : (s.shiftIn).pinId = s.pinId := rfl
@[simp] theorem State.shiftIn_pinOpen (s : State) : (s.shiftIn).pinOpen = s.pinOpen := rfl
@[simp] theorem State.shiftIn_pinLevel (s : State) : (s.shiftIn).pinLevel = s.pinLevel := rfl
@[simp] theorem State.shiftIn_sr (s : State) : (s.shiftIn).sr = (s.pinLevel.data.bit :: s.sr).take s.params.srLen := rfl
@[simp] theorem State.shiftIn_q (s : State) : (s.shiftIn).q = s.q := rfl
@[simp] theorem State.shiftIn_active (s : State) : (s.shiftIn).active = s.active := rfl
@[simp] theorem State.shiftIn_commands (s : State) : (s.shiftIn).commands = s.commands := rfl
@[simp] theorem State.shiftIn_results (s : State) : (s.shiftIn).results = s.results := rfl
@[simp] theorem State.shiftIn_trace (s : State) : (s.shiftIn).trace = s.trace := rfl
@[simp] theorem State.shiftIn_calls (s : State) : (s.shiftIn).calls = s.calls := rfl
@[simp] theorem State.shiftIn_answers (s : State) : (s.shiftIn).answers = s.answers := rfl
@[simp] theorem State.shiftIn_levels (s : State) : (s.shiftIn).levels = s.levels := rfl
@[simp] theorem State.shiftIn_chains (s : State) : (s.shiftIn).chains = s.chains := rfl

@[simp] theorem State.transfer_params (s : State) : (s.transfer).params = s.params := rfl
@[simp] theorem State.transfer_life (s : State) : (s.transfer).life = s.life := rfl
@[simp] theorem State.transfer_pinId (s : State) : (s.transfer).pinId = s.pinId := rfl
@[simp] theorem State.transfer_pinOpen (s : State) : (s.transfer).pinOpen = s.pinOpen := rfl
@[simp] theorem State.transfer_pinLevel (s : State) : (s.transfer).pinLevel = s.pinLevel := rfl
@[simp] theorem State.transfer_sr (s : State) : (s.transfer).sr = s.sr := rfl
@[simp] theorem State.transfer_q (s : State) : (s.transfer).q = s.sr := rfl
@[simp] theorem State.transfer_active (s : State) : (s.transfer).active = s.active := rfl
@[simp] theorem State.transfer_commands (s : State) : (s.transfer).commands = s.commands := rfl
@[simp] theorem State.transfer_results (s : State) : (s.transfer).results = s.results := rfl
@[simp] theorem State.transfer_trace (s : State) : (s.transfer).trace = s.trace := rfl
@[simp] theorem State.transfer_calls (s : State) : (s.transfer).calls = s.calls := rfl
@[simp] theorem State.transfer_answers (s : State) : (s.transfer).answers = s.answers := rfl
@[simp] theorem State.transfer_levels (s : State) : (s.transfer).levels = s.levels := rfl
@[simp] theorem State.transfer_chains (s : State) : (s.transfer).chains = s.chains := rfl

@[simp] theorem State.complete_params (s : State) (v : Value) : (s.complete v).params = s.params := rfl
@[simp] theorem State.complete_life (s : State) (v : Value) : (s.complete v).life = s.life := rfl
@[simp] theorem State.complete_pinId (s : State) (v : Value) : (s.complete v).pinId = s.pinId := rfl
@[simp] theorem State.complete_pinOpen (s : State) (v : Value) : (s.complete v).pinOpen = s.pinOpen := rfl
@[simp] theorem State.complete_pinLevel (s : State) (v : Value) : (s.complete v).pinLevel = s.pinLevel := rfl
@[simp] theorem State.complete_sr (s : State) (v : Value) : (s.complete v).sr = s.sr := rfl
@[simp] theorem State.complete_q (s : State) (v : Value) : (s.complete v).q = s.q := rfl
@[simp] theorem State.complete_active (s : State) (v : Value) : (s.complete v).active = s.active := rfl
@[simp] theorem State.complete_commands (s : State) (v : Value) : (s.complete v).commands = s.commands := rfl
@[simp] theorem State.complete_results (s : State) (v : Value) : (s.complete v).results = s.results ++ [.ok v] := rfl
@[simp] theorem State.complete_trace (s : State) (v : Value) : (s.complete v).trace = s.trace := rfl
@[simp] theorem State.complete_calls (s : State) (v : Value) : (s.complete v).calls = s.calls := rfl
@[simp] theorem State.complete_answers (s : State) (v : Value) : (s.complete v).answers = s.answers := rfl
@[simp] theorem State.complete_levels (s : State) (v : Value) : (s.complete v).levels = s.levels := rfl
@[simp] theorem State.complete_chains (s : State) (v : Value) : (s.complete v).chains = s.chains := rfl

@[simp] theorem State.raise_params (s : State) (e : OpError) : (s.raise e).params = s.params := rfl
@[simp] theorem State.raise_life (s : State) (e : OpError) : (s.raise e).life = s.life := rfl
@[simp] theorem State.raise_pinId (s : State) (e : OpError) : (s.raise e).pinId = s.pinId := rfl
@[simp] theorem State.raise_pinOpen (s : State) (e : OpError) : (s.raise e).pinOpen = s.pinOpen := rfl
@[simp] theorem State.raise_pinLevel (s : State) (e : OpError) : (s.raise e).pinLevel = s.pinLevel := rfl
@[simp] theorem State.raise_sr (s : State) (e : OpError) : (s.raise e).sr = s.sr := rfl
@[simp] theorem State.raise_q (s : State) (e : OpError) : (s.raise e).q = s.q := rfl
@[simp] theorem State.raise_active (s : State) (e : OpError) : (s.raise e).active = s.active := rfl
@[simp] theorem State.raise_commands (s : State) (e : OpError) : (s.raise e).commands = s.commands := rfl
@[simp] theorem State.raise_results (s : State) (e : OpError) : (s.raise e).results = s.results ++ [.error e] := rfl
@[simp] theorem State.raise_trace (s : State) (e : OpError) : (s.raise e).trace = s.trace := rfl
@[simp] theorem State.raise_calls (s : State) (e : OpError) : (s.raise e).calls = s.calls := rfl
@[simp] theorem State.raise_answers (s : State) (e : OpError) : (s.raise e).answers = s.answers := rfl
@[simp] theorem State.raise_levels (s : State) (e : OpError) : (s.raise e).levels = s.levels := rfl
@[simp] theorem State.raise_chains (s : State) (e : OpError) : (s.raise e).chains = s.chains := rfl

@[simp] theorem State.beginOp_params (s : State) (i : Instr) : (s.beginOp i).params = s.params := rfl
@[simp] theorem State.beginOp_life (s : State) (i : Instr) : (s.beginOp i).life = s.life := rfl
@[simp] theorem State.beginOp_pinId (s : State) (i : Instr) : (s.beginOp i).pinId = s.pinId := rfl
@[simp] theorem State.beginOp_pinOpen (s : State) (i : Instr) : (s.beginOp i).pinOpen = s.pinOpen := rfl
@[simp] theorem State.beginOp_pinLevel (s : State) (i : Instr) : (s.beginOp i).pinLevel = s.pinLevel := rfl
@[simp] theorem State.beginOp_sr (s : State) (i : Instr) : (s.beginOp i).sr = s.sr := rfl
@[simp] theorem State.beginOp_q (s : State) (i : Instr) : (s.beginOp i).q = s.q := rfl
@[simp] theorem State.beginOp_active (s : State) (i : Instr) : (s.beginOp i).active = some ⟨i, 0⟩ := rfl
@[simp] theorem State.beginOp_commands (s : State) (i : Instr) : (s.beginOp i).commands = s.commands := rfl
@[simp] theorem State.beginOp_results (s : State) (i : Instr) : (s.beginOp i).results = s.results := rfl
@[simp] theorem State.beginOp_trace (s : State) (i : Instr) : (s.beginOp i).trace = s.trace := rfl
@[simp] theorem State.beginOp_calls (s : State) (i : Instr) : (s.beginOp i).calls = s.calls := rfl
@[simp] theorem State.beginOp_answers (s : State) (i : Instr) : (s.beginOp i).answers = s.answers := rfl
@[simp] theorem State.beginOp_levels (s : State) (i : Instr) : (s.beginOp i).levels = s.levels := rfl
@[simp] theorem State.beginOp_chains (s : State) (i : Instr) : (s.beginOp i).chains = s.chains := rfl

@[simp] theorem State.endOp_params (s : State) : (s.endOp).params = s.params := rfl
@[simp] theorem State.endOp_life (s : State) : (s.endOp).life = s.life := rfl
@[simp] theorem State.endOp_pinId (s : State) : (s.endOp).pinId = s.pinId := rfl
@[simp] theorem State.endOp_pinOpen (s : State) : (s.endOp).pinOpen = s.pinOpen := rfl
@[simp] theorem State.endOp_pinLevel (s : State) : (s.endOp).pinLevel = s.pinLevel := rfl
@[simp] theorem State.endOp_sr (s : State) : (s.endOp).sr = s.sr := rfl
@[simp] theorem State.endOp_q (s : State) : (s.endOp).q = s.q := rfl
@[simp] theorem State.endOp_active (s : State) : (s.endOp).active = none := rfl
@[simp] theorem State.endOp_commands (s : State) : (s.endOp).commands = s.commands := rfl
@[simp] theorem State.endOp_results (s : State) : (s.endOp).results = s.results := rfl
@[simp] theorem State.endOp_trace (s : State) : (s.endOp).trace = s.trace := rfl
@[simp] theorem State.endOp_calls (s : State) : (s.endOp).calls = s.calls := rfl
@[simp] theorem State.endOp_answers (s : State) : (s.endOp).answers = s.answers := rfl
@[simp] theorem State.endOp_levels (s : State) : (s.endOp).levels = s.levels := rfl
@[simp] theorem State.endOp_chains (s : State) : (s.endOp).chains = s.chains := rfl

@[simp] theorem State.setPins_params (s : State) (pins : PinIds) : (s.setPins pins).params = s.params := rfl
@[simp] theorem State.setPins_life (s : State) (pins : PinIds) : (s.setPins pins).life = s.life := rfl
@[simp] theorem State.setPins_pinId (s : State) (pins : PinIds) : (s.setPins pins).pinId = some pins := rfl
@[simp] theorem State.setPins_pinOpen (s : State) (pins : PinIds) : (s.setPins pins).pinOpen = s.pinOpen := rfl
@[simp] theorem State.setPins_pinLevel (s : State) (pins : PinIds) : (s.setPins pins).pinLevel = s.pinLevel := rfl
@[simp] theorem State.setPins_sr (s : State) (pins : PinIds) : (s.setPins pins).sr = s.sr := rfl
@[simp] theorem State.setPins_q (s : State) (pins : PinIds) : (s.setPins pins).q = s.q := rfl
@[simp] theorem State.setPins_active (s : State) (pins : PinIds) : (s.setPins pins).active = s.active := rfl
@[simp] theorem State.setPins_commands (s : State) (pins : PinIds) : (s.setPins pins).commands = s.commands := rfl
@[simp] theorem State.setPins_results (s : State) (pins : PinIds) : (s.setPins pins).results = s.results := rfl
@[simp] theorem State.setPins_trace (s : State) (pins : PinIds) : (s.setPins pins).trace = s.trace := rfl
@[simp] theorem State.setPins_calls (s : State) (pins : PinIds) : (s.setPins pins).calls = s.calls := rfl
@[simp] theorem State.setPins_answers (s : State) (pins : PinIds) : (s.setPins pins).answers = s.answers := rfl
@[simp] theorem State.setPins_levels (s : State) (pins : PinIds) : (s.setPins pins).levels = s.levels := rfl
@[simp] theorem State.setPins_chains (s : State) (pins : PinIds) : (s.setPins pins).chains = s.chains := rfl

@[simp] theorem State.openDone_params (s : State) : (s.openDone).params = s.params := rfl
@[simp] theorem State.openDone_life (s : State) : (s.openDone).life = .opened := rfl
@[simp] theorem State.openDone_pinId (s : State) : (s.openDone).pinId = s.pinId := rfl
@[simp] theorem State.openDone_pinOpen (s : State) : (s.openDone).pinOpen = s.pinOpen := rfl
@[simp] theorem State.openDone_pinLevel (s : State) : (s.openDone).pinLevel = s.pinLevel := rfl
@[simp] theorem State.openDone_sr (s : State) : (s.openDone).sr = s.sr := rfl
@[simp] theorem State.openDone_q (s : State) : (s.openDone).q = s.q := rfl
@[simp] theorem State.openDone_active (s : State) : (s.openDone).active = s.active := rfl
@[simp] theorem State.openDone_commands (s : State) : (s.openDone).commands = s.commands := rfl
@[simp] theorem State.openDone_results (s : State) : (s.openDone).results = s.results := rfl
@[simp] theorem State.openDone_trace (s : State) : (s.openDone).trace = s.trace := rfl
@[simp] theorem State.openDone_calls (s : State) : (s.openDone).calls = s.calls := rfl
@[simp] theorem State.openDone_answers (s : State) : (s.openDone).answers = s.answers := rfl
@[simp] theorem State.openDone_levels (s : State) : (s.openDone).levels = s.levels := rfl
@[simp] theorem State.openDone_chains (s : State) : (s.openDone).chains = s.chains := rfl

@[simp] theorem State.closeDone_params (s : State) : (s.closeDone).params = s.params := rfl
@[simp] theorem State.closeDone_life (s : State) : (s.closeDone).life = .closed := rfl
@[simp] theorem State.closeDone_pinId (s : State) : (s.closeDone).pinId = s.pinId := rfl
@[simp] theorem State.closeDone_pinOpen (s : State) : (s.closeDone).pinOpen = s.pinOpen := rfl
@[simp] theorem State.closeDone_pinLevel (s : State) : (s.closeDone).pinLevel = s.pinLevel := rfl
@[simp] theorem State.closeDone_sr (s : State) : (s.closeDone).sr = s.sr := rfl
@[simp] theorem State.closeDone_q (s : State) : (s.closeDone).q = s.q := rfl
@[simp] theorem State.closeDone_active (s : State) : (s.closeDone).active = s.active := rfl
@[simp] theorem State.closeDone_commands (s : State) : (s.closeDone).commands = s.commands := rfl
@[simp] theorem State.closeDone_results (s : State) : (s.closeDone).results = s.results := rfl
@[simp] theorem State.closeDone_trace (s : State) : (s.closeDone).trace = s.trace := rfl
@[simp] theorem State.closeDone_calls (s : State) : (s.closeDone).calls = s.calls := rfl
@[simp] theorem State.closeDone_answers (s : State) : (s.closeDone).answers = s.answers := rfl
@[simp] theorem State.closeDone_levels (s : State) : (s.closeDone).levels = s.levels := rfl
@[simp] theorem State.closeDone_chains (s : State) : (s.closeDone).chains = s.chains := rfl

end Sys2Proof.Machine
end

