-- ==== Sys2Proof/Laws/Ops.lean ====
section
/-! SUPPORT. What the shared operations can do, said once: draws, one pin event, a whole trace. -/

namespace Sys2Proof.Machine

open Sys2Proof

/-! ### Draws -/

theorem Supply.peek_rest {α : Type} (free : Nat → α) (s : Supply α) (k : Nat) :
    s.rest.peek free k = s.peek free (k + 1) := by
  obtain ⟨script, drawn⟩ := s
  cases script with
  | nil => simp [Supply.rest, Supply.peek]; congr 1; omega
  | cons a l => simp [Supply.rest, Supply.peek]

@[simp] theorem Supply.drop_zero {α : Type} (s : Supply α) : s.drop 0 = s := rfl

theorem Supply.drop_succ {α : Type} (s : Supply α) (n : Nat) : s.drop (n + 1) = s.rest.drop n := rfl

theorem Supply.drop_add {α : Type} (s : Supply α) (m n : Nat) : s.drop (m + n) = (s.drop m).drop n := by
  induction m generalizing s with
  | zero => simp
  | succ m ih => rw [Nat.succ_add_eq_add_succ, Nat.add_succ, Supply.drop_succ, ih, Supply.drop_succ]

theorem Supply.rest_drop {α : Type} (s : Supply α) (n : Nat) : (s.drop n).rest = s.drop (n + 1) := by
  rw [Supply.drop_add]; rfl

theorem Supply.peek_drop {α : Type} (free : Nat → α) (s : Supply α) (n k : Nat) :
    (s.drop n).peek free k = s.peek free (n + k) := by
  induction n generalizing s with
  | zero => simp
  | succ n ih => rw [Supply.drop_succ, ih, Supply.peek_rest]; congr 1; omega

/-- A script that starts with chosen values gives them first. -/
theorem Supply.peek_script {α : Type} (free : Nat → α) (l : List α) (d k : Nat) (h : k < l.length) :
    (⟨l, d⟩ : Supply α).peek free k = l[k] := by simp [Supply.peek, h]

@[simp] theorem State.length_drawnStages (s : State) (k : Nat) : (s.drawnStages k).length = s.params.srLen := by
  simp [State.drawnStages]

/-- A script that holds `SR_LEN` chosen stages from its place `k` on gives them. -/
theorem State.drawnStages_script {s : State} {before stages after : List Bool} {d : Nat}
    (hs : s.chains = ⟨before ++ stages ++ after, d⟩) (hn : stages.length = s.params.srLen) :
    s.drawnStages before.length = stages := by
  apply List.ext_getElem
  · simp [hn]
  · intro i h1 h2
    simp only [State.drawnStages, List.getElem_map, List.getElem_range, hs]
    rw [Supply.peek_script _ _ _ _ (by simp; omega)]
    simp [List.getElem_append_left h2]

theorem State.answer_of_answers {s t : State} {n : Nat} (h : t.answers = s.answers.drop n) (k : Nat) :
    t.answer k = s.answer (n + k) := by simp [State.answer, h, Supply.peek_drop]

theorem State.succeeds_mono {s : State} {m n : Nat} (h : s.succeeds n) (hmn : m ≤ n) : s.succeeds m :=
  fun k hk => h k (by omega)

theorem State.succeeds_of_answers {s t : State} {m n : Nat} (h : s.succeeds (m + n)) (ha : t.answers = s.answers.drop m) :
    t.succeeds n := fun k hk => by rw [State.answer_of_answers ha]; exact h _ (by omega)

theorem State.succeeds_congr {s t : State} (h : t.answers = s.answers) (n : Nat) : t.succeeds n ↔ s.succeeds n := by
  simp [State.succeeds, State.answer, h]

/-! ### The environment's reaction and the pins -/

@[simp] theorem State.drawAllLevels_life (s : State) : s.drawAllLevels.life = s.life := rfl
@[simp] theorem State.drawAllLevels_pinOpen (s : State) : s.drawAllLevels.pinOpen = s.pinOpen := rfl
@[simp] theorem State.drawAllLevels_pinId (s : State) : s.drawAllLevels.pinId = s.pinId := rfl
@[simp] theorem State.drawAllLevels_sr (s : State) : s.drawAllLevels.sr = s.sr := rfl
@[simp] theorem State.drawAllLevels_q (s : State) : s.drawAllLevels.q = s.q := rfl
@[simp] theorem State.drawAllLevels_params (s : State) : s.drawAllLevels.params = s.params := rfl
@[simp] theorem State.drawAllLevels_active (s : State) : s.drawAllLevels.active = s.active := rfl
@[simp] theorem State.drawAllLevels_commands (s : State) : s.drawAllLevels.commands = s.commands := rfl
@[simp] theorem State.drawAllLevels_results (s : State) : s.drawAllLevels.results = s.results := rfl
@[simp] theorem State.drawAllLevels_trace (s : State) : s.drawAllLevels.trace = s.trace := rfl
@[simp] theorem State.drawAllLevels_calls (s : State) : s.drawAllLevels.calls = s.calls := rfl
@[simp] theorem State.drawAllLevels_answers (s : State) : s.drawAllLevels.answers = s.answers := rfl
@[simp] theorem State.drawAllLevels_chains (s : State) : s.drawAllLevels.chains = s.chains := rfl

/-- The reaction changes `env.sr` and `env.q` only: by a CLOCK edge the one, by a LATCH edge the other (R36 to R39). -/
theorem State.react_eq (s : State) (p : PinRole) (l : Level) :
    s.react p l = { s with
      sr := if p = .clock ∧ l = .high ∧ s.pinLevel.clock = .low then
          (s.pinLevel.data.bit :: s.sr).take s.params.srLen else s.sr
      q := if p = .latch ∧ l = .high ∧ s.pinLevel.latch = .low then s.sr else s.q } := by
  cases p <;> cases l <;> simp [State.react, State.shiftIn, State.transfer] <;> split <;> rfl

/-- A successful write in one record (R34). -/
theorem State.drive_eq (s : State) (p : PinRole) (l : Level) :
    s.drive p l = { s with
      pinLevel := s.pinLevel.set p l
      sr := if p = .clock ∧ l = .high ∧ s.pinLevel.clock = .low then
          (s.pinLevel.data.bit :: s.sr).take s.params.srLen else s.sr
      q := if p = .latch ∧ l = .high ∧ s.pinLevel.latch = .low then s.sr else s.q } := by
  rw [State.drive, State.react_eq]; rfl

/-! ### One event -/

/-- The state after an event whose request, if it is one, succeeds. -/
def State.okStep (s : State) (e : PinEvent) : State :=
  match e with
  | .wait => s.emit .wait
  | .openReq p => (((s.emit e).takeAnswer).setOpen p true).drawLevel p
  | .writeReq p l => ((s.emit e).takeAnswer).drive p l
  | .closeReq p => (((s.emit e).takeAnswer).setOpen p false).drawLevel p

/-- The state after a request that fails, before the operation's own handling of it. -/
def State.badStep (s : State) (e : PinEvent) : State :=
  match e with
  | .wait => s.emit .wait
  | .openReq _ => (s.emit e).takeAnswer
  | .writeReq p _ => ((s.emit e).takeAnswer).drawLevel p
  | .closeReq p => (((s.emit e).takeAnswer).setOpen p false).drawLevel p

/-- Everything one event can do (R34). -/
theorem State.perform_eq (s : State) (e : PinEvent) :
    s.perform e = if e.isRequest = true ∧ s.answer 0 = false then (false, s.badStep e) else (true, s.okStep e) := by
  cases e <;> cases h : s.answer 0 <;> simp [State.perform, PinEvent.isRequest, State.okStep, State.badStep, h]

theorem State.perform_ok {s : State} {e : PinEvent} (h : e.isRequest = true → s.answer 0 = true) :
    s.perform e = (true, s.okStep e) := by
  rw [State.perform_eq, if_neg]; rintro ⟨h1, h2⟩; simp [h h1] at h2

theorem State.perform_bad {s : State} {e : PinEvent} (he : e.isRequest = true) (h : s.answer 0 = false) :
    s.perform e = (false, s.badStep e) := by rw [State.perform_eq, if_pos ⟨he, h⟩]

/-- The request an event makes, from the identifiers. -/
def callOf (pinId : Option PinIds) (e : PinEvent) : List BackendCall :=
  match pinId with
  | none => []
  | some ids => callsOf ids [e]

theorem State.backendCall_toList (s : State) (e : PinEvent) : (s.backendCall e).toList = callOf s.pinId e := by
  cases h : s.pinId <;> cases e <;> simp [State.backendCall, callOf, callsOf, h]

section OkStep
variable (s : State) (e : PinEvent)

@[simp] theorem State.okStep_params : (s.okStep e).params = s.params := by cases e <;> simp [State.okStep, State.drive_eq]
@[simp] theorem State.okStep_life : (s.okStep e).life = s.life := by cases e <;> simp [State.okStep, State.drive_eq]
@[simp] theorem State.okStep_pinId : (s.okStep e).pinId = s.pinId := by cases e <;> simp [State.okStep, State.drive_eq]
@[simp] theorem State.okStep_commands : (s.okStep e).commands = s.commands := by
  cases e <;> simp [State.okStep, State.drive_eq]
@[simp] theorem State.okStep_results : (s.okStep e).results = s.results := by
  cases e <;> simp [State.okStep, State.drive_eq]
@[simp] theorem State.okStep_chains : (s.okStep e).chains = s.chains := by cases e <;> simp [State.okStep, State.drive_eq]
@[simp] theorem State.okStep_trace : (s.okStep e).trace = s.trace ++ [e] := by
  cases e <;> simp [State.okStep, State.drive_eq]
@[simp] theorem State.okStep_active : (s.okStep e).active = s.active.map Activity.advance := by
  cases e <;> simp [State.okStep, State.drive_eq]
@[simp] theorem State.okStep_calls : (s.okStep e).calls = s.calls ++ callOf s.pinId e := by
  cases e <;> simp [State.okStep, State.drive_eq, State.backendCall_toList]
theorem State.okStep_answers : (s.okStep e).answers = s.answers.drop (if e.isRequest then 1 else 0) := by
  cases e <;> simp [State.okStep, State.drive_eq, PinEvent.isRequest, Supply.drop]
end OkStep

section BadStep
variable (s : State) (e : PinEvent)

@[simp] theorem State.badStep_params : (s.badStep e).params = s.params := by cases e <;> rfl
@[simp] theorem State.badStep_life : (s.badStep e).life = s.life := by cases e <;> rfl
@[simp] theorem State.badStep_pinId : (s.badStep e).pinId = s.pinId := by cases e <;> rfl
@[simp] theorem State.badStep_commands : (s.badStep e).commands = s.commands := by cases e <;> rfl
@[simp] theorem State.badStep_results : (s.badStep e).results = s.results := by cases e <;> rfl
@[simp] theorem State.badStep_chains : (s.badStep e).chains = s.chains := by cases e <;> rfl
@[simp] theorem State.badStep_sr : (s.badStep e).sr = s.sr := by cases e <;> rfl
@[simp] theorem State.badStep_q : (s.badStep e).q = s.q := by cases e <;> rfl
@[simp] theorem State.badStep_trace : (s.badStep e).trace = s.trace ++ [e] := by cases e <;> rfl
@[simp] theorem State.badStep_active : (s.badStep e).active = s.active.map Activity.advance := by cases e <;> rfl
@[simp] theorem State.badStep_calls : (s.badStep e).calls = s.calls ++ callOf s.pinId e := by
  cases e <;> simp [State.badStep, State.backendCall_toList]
theorem State.badStep_answers (he : e.isRequest = true) : (s.badStep e).answers = s.answers.drop 1 := by
  cases e <;> simp [State.badStep, Supply.drop, PinEvent.isRequest] at *
/-- Only a close changes `pin_open` when it fails (R17). -/
theorem State.badStep_pinOpen :
    (s.badStep e).pinOpen = match e with | .closeReq p => s.pinOpen.set p false | _ => s.pinOpen := by cases e <;> rfl
/-- A failing event leaves every other pin's level (R136). -/
theorem State.badStep_level {p : PinRole} (h : e.role ≠ some p) : (s.badStep e).pinLevel.get p = s.pinLevel.get p := by
  cases e <;> simp [State.badStep, PinEvent.role] at * <;> rw [PerPin.get_set_ne] <;> exact fun hh => h hh.symm
end BadStep

/-! ### A whole trace -/

/-- The state after events that all succeed. -/
def State.okRun (s : State) (plan : List PinEvent) : State := plan.foldl State.okStep s

@[simp] theorem State.okRun_nil (s : State) : s.okRun [] = s := rfl
@[simp] theorem State.okRun_cons (s : State) (e : PinEvent) (plan : List PinEvent) :
    s.okRun (e :: plan) = (s.okStep e).okRun plan := rfl
theorem State.okRun_append (s : State) (p r : List PinEvent) : s.okRun (p ++ r) = (s.okRun p).okRun r := by
  simp [State.okRun]

@[simp] theorem requestCount_nil : requestCount [] = 0 := rfl
theorem requestCount_cons (e : PinEvent) (plan : List PinEvent) :
    requestCount (e :: plan) = (if e.isRequest then 1 else 0) + requestCount plan := by
  simp [requestCount, List.countP_cons]; omega
theorem requestCount_append (p r : List PinEvent) : requestCount (p ++ r) = requestCount p + requestCount r := by
  simp [requestCount]

section OkRun
variable (s : State) (plan : List PinEvent)

@[simp] theorem State.okRun_params : (s.okRun plan).params = s.params := by
  induction plan generalizing s <;> simp [*]
@[simp] theorem State.okRun_life : (s.okRun plan).life = s.life := by
  induction plan generalizing s <;> simp [*]
@[simp] theorem State.okRun_pinId : (s.okRun plan).pinId = s.pinId := by
  induction plan generalizing s <;> simp [*]
@[simp] theorem State.okRun_commands : (s.okRun plan).commands = s.commands := by
  induction plan generalizing s <;> simp [*]
@[simp] theorem State.okRun_results : (s.okRun plan).results = s.results := by
  induction plan generalizing s <;> simp [*]
@[simp] theorem State.okRun_chains : (s.okRun plan).chains = s.chains := by
  induction plan generalizing s <;> simp [*]
@[simp] theorem State.okRun_trace : (s.okRun plan).trace = s.trace ++ plan := by
  induction plan generalizing s <;> simp [*]
theorem State.okRun_active :
    (s.okRun plan).active = s.active.map fun a => { a with seq := a.seq + plan.length } := by
  induction plan generalizing s with
  | nil => simp
  | cons e plan ih => simp [ih, Option.map_map, Function.comp_def, Activity.advance, Nat.add_comm, Nat.add_left_comm]
theorem State.okRun_calls : (s.okRun plan).calls = s.calls ++ plan.flatMap (callOf s.pinId) := by
  induction plan generalizing s <;> simp [*]
theorem State.okRun_answers : (s.okRun plan).answers = s.answers.drop (requestCount plan) := by
  induction plan generalizing s with
  | nil => simp
  | cons e plan ih => rw [State.okRun_cons, ih, State.okStep_answers, requestCount_cons, Supply.drop_add]
end OkRun

theorem flatMap_callOf_some (ids : PinIds) (plan : List PinEvent) :
    plan.flatMap (callOf (some ids)) = callsOf ids plan := by
  induction plan with
  | nil => rfl
  | cons e plan ih => cases e <;> simp [List.flatMap_cons, ih, callOf, callsOf]

/-- A trace whose requests all succeed runs to its end. -/
theorem State.runPlan_ok {s : State} {plan : List PinEvent} (h : s.succeeds (requestCount plan)) :
    State.runPlan plan s = (none, s.okRun plan) := by
  induction plan generalizing s with
  | nil => rfl
  | cons e plan ih =>
    rw [requestCount_cons] at h
    have he : s.perform e = (true, s.okStep e) := State.perform_ok fun hr => h 0 (by simp [hr])
    rw [State.runPlan, he]
    exact ih (State.succeeds_of_answers h (State.okStep_answers s e))

/-- A trace stops at its first failing request (R133). -/
theorem State.runPlan_bad {s : State} {before after : List PinEvent} {e : PinEvent}
    (h : s.succeeds (requestCount before)) (he : e.isRequest = true) (hb : s.answer (requestCount before) = false) :
    State.runPlan (before ++ e :: after) s = (some e, (s.okRun before).badStep e) := by
  induction before generalizing s with
  | nil => rw [List.nil_append, State.runPlan, State.perform_bad he hb]; rfl
  | cons d before ih =>
    rw [requestCount_cons] at h hb
    have hd : s.perform d = (true, s.okStep d) := State.perform_ok fun hr => h 0 (by simp [hr])
    rw [List.cons_append, State.runPlan, hd]
    refine ih (State.succeeds_of_answers h (State.okStep_answers s d)) ?_
    rw [State.answer_of_answers (State.okStep_answers s d)]; exact hb

/-- Shifting and latching keep the length of the register (R19, R36, R37). -/
theorem State.okStep_registerSized {s : State} (h : s.registerSized) (e : PinEvent) : (s.okStep e).registerSized := by
  obtain ⟨h1, h2⟩ := h
  cases e with
  | writeReq p l =>
    refine ⟨?_, ?_⟩ <;> simp only [State.okStep, State.drive_eq] <;> split <;> simp [h1, h2]
  | _ => exact ⟨h1, h2⟩

theorem State.okRun_registerSized {s : State} (h : s.registerSized) (plan : List PinEvent) :
    (s.okRun plan).registerSized := by
  induction plan generalizing s with
  | nil => exact h
  | cons e plan ih => exact ih (State.okStep_registerSized h e)

theorem State.drawRegister_registerSized (s : State) : s.drawRegister.registerSized := by
  simp [State.registerSized]

/-- Either every request of a trace succeeds, or there is a first one that fails. -/
theorem State.first_failure (s : State) (plan : List PinEvent) :
    s.succeeds (requestCount plan) ∨
      ∃ before e after, plan = before ++ e :: after ∧ e.isRequest = true ∧ s.succeeds (requestCount before) ∧
        s.answer (requestCount before) = false := by
  induction plan using List.reverseRecOn with
  | nil => exact .inl fun k hk => by simp at hk
  | append_singleton plan e ih =>
    rcases ih with h | ⟨before, d, after, rfl, hd, hs, hb⟩
    · cases he : e.isRequest with
      | false => left; simpa [requestCount_append, requestCount_cons, he] using h
      | true =>
        cases ha : s.answer (requestCount plan) with
        | true =>
          left
          intro k hk
          simp only [requestCount_append, requestCount_cons, he, if_true, requestCount_nil] at hk
          rcases Nat.lt_succ_iff_lt_or_eq.1 hk with hk | rfl
          · exact h k hk
          · exact ha
        | false => exact .inr ⟨plan, e, [], rfl, he, h, ha⟩
    · exact .inr ⟨before, d, after ++ [e], by simp, hd, hs, hb⟩

/-- An operation whose requests all succeed. -/
theorem State.operate_ok {s : State} {plan : List PinEvent} (h : s.succeeds (requestCount plan)) (i : Instr)
    (done : State → State)
    (failed : State → PinEvent → State) :
    s.operate i plan done failed = (done ((s.beginOp i).okRun plan)).endOp.complete .none := by
  rw [State.operate, State.runPlan_ok (s := s.beginOp i) h]

/-- An operation one of whose requests is the first to fail. -/
theorem State.operate_bad {s : State} {before after : List PinEvent} {e : PinEvent}
    (h : s.succeeds (requestCount before)) (he : e.isRequest = true) (hb : s.answer (requestCount before) = false)
    (i : Instr) (done : State → State)
    (failed : State → PinEvent → State) :
    s.operate i (before ++ e :: after) done failed =
      (failed (((s.beginOp i).okRun before).badStep e) e).endOp.raise (.hardwareIO e) := by
  rw [State.operate, State.runPlan_bad (s := s.beginOp i) h he hb]

/-- Everything an operation with a trace can do (R133). -/
theorem State.operate_cases (s : State) (i : Instr) (plan : List PinEvent) (done : State → State)
    (failed : State → PinEvent → State) :
    (s.succeeds (requestCount plan) ∧
      s.operate i plan done failed = (done ((s.beginOp i).okRun plan)).endOp.complete .none) ∨
    (∃ before e after, plan = before ++ e :: after ∧ e.isRequest = true ∧ s.succeeds (requestCount before) ∧
      s.answer (requestCount before) = false ∧
      s.operate i plan done failed =
        (failed (((s.beginOp i).okRun before).badStep e) e).endOp.raise (.hardwareIO e)) := by
  rcases s.first_failure plan with h | ⟨before, e, after, rfl, he, hs, hb⟩
  · exact .inl ⟨h, State.operate_ok h i done failed⟩
  · exact .inr ⟨before, e, after, rfl, he, hs, hb, State.operate_bad hs he hb i done failed⟩

end Sys2Proof.Machine
end

