-- ==== Sys2Proof/Laws/Serializer.lean ====
section
/-! SUPPORT. What the serializer's traces do when every request succeeds: the levels they leave, the chain after n bits
(20_memory.md R48), the latch pulse; and the bits of the wire word. -/

namespace Sys2Proof.Machine

open Sys2Proof

/-! ### Traces of writes and waits -/

/-- A list of events that opens and closes no pin. -/
def writesOnly (plan : List PinEvent) : Prop := ∀ e ∈ plan, e = .wait ∨ ∃ p l, e = .writeReq p l

theorem writesOnly_append {p r : List PinEvent} (hp : writesOnly p) (hr : writesOnly r) : writesOnly (p ++ r) := by
  intro e he
  rcases List.mem_append.1 he with h | h
  · exact hp e h
  · exact hr e h

theorem writesOnly_bitTrace (l : Level) : writesOnly (bitTrace l) := by
  intro e he; simp only [bitTrace, List.mem_cons, List.not_mem_nil, or_false] at he
  rcases he with rfl | rfl | rfl | rfl | rfl | rfl <;> simp

theorem writesOnly_bitsTrace (bits : List Bool) : writesOnly (bitsTrace bits) := by
  intro e he
  obtain ⟨b, -, hb⟩ := List.mem_flatMap.1 he
  exact writesOnly_bitTrace _ e hb

theorem writesOnly_latchTrace : writesOnly latchTrace := by
  intro e he; simp only [latchTrace, List.mem_cons, List.not_mem_nil, or_false] at he
  rcases he with rfl | rfl | rfl | rfl <;> simp

theorem State.okStep_of_write {s : State} {e : PinEvent} (h : e = .wait ∨ ∃ p l, e = .writeReq p l) :
    (s.okStep e).pinOpen = s.pinOpen ∧ (s.okStep e).levels = s.levels ∧
      (s.okStep e).pinLevel = levelsAfter s.pinLevel [e] := by
  rcases h with rfl | ⟨p, l, rfl⟩ <;> simp [State.okStep, State.drive_eq, levelsAfter]

theorem levelsAfter_append (x : PerPin Level) (p r : List PinEvent) :
    levelsAfter x (p ++ r) = levelsAfter (levelsAfter x p) r := by
  induction p generalizing x with
  | nil => rfl
  | cons e p ih => cases e <;> simp [levelsAfter, ih]

/-- Writes and waits change no `pin_open` and take no draw, and leave the levels as last written. -/
theorem State.okRun_of_writes {s : State} {plan : List PinEvent} (h : writesOnly plan) :
    (s.okRun plan).pinOpen = s.pinOpen ∧ (s.okRun plan).levels = s.levels ∧
      (s.okRun plan).pinLevel = levelsAfter s.pinLevel plan := by
  induction plan generalizing s with
  | nil => exact ⟨rfl, rfl, rfl⟩
  | cons e plan ih =>
    obtain ⟨h1, h2, h3⟩ := State.okStep_of_write (s := s) (h e (by simp))
    obtain ⟨i1, i2, i3⟩ := ih (s := s.okStep e) fun d hd => h d (by simp [hd])
    refine ⟨by simp [i1, h1], by simp [i2, h2], ?_⟩
    rw [State.okRun_cons, i3, h3, ← levelsAfter_append]; rfl

theorem levelsAfter_bitTrace (x : PerPin Level) (l : Level) :
    levelsAfter x (bitTrace l) = { x with data := l, clock := .low } := by simp [levelsAfter, bitTrace]

theorem levelsAfter_bitsTrace (x : PerPin Level) (bits : List Bool) (b : Bool) :
    levelsAfter x (bitsTrace (bits ++ [b])) = { x with data := Level.ofBit b, clock := .low } := by
  induction bits generalizing x with
  | nil => simp [bitsTrace, levelsAfter_bitTrace]
  | cons c bits ih =>
    have : bitsTrace (c :: bits ++ [b]) = bitTrace (Level.ofBit c) ++ bitsTrace (bits ++ [b]) := by simp [bitsTrace]
    rw [this, levelsAfter_append, ih, levelsAfter_bitTrace]

theorem levelsAfter_latchTrace (x : PerPin Level) : levelsAfter x latchTrace = { x with latch := .low } := by
  simp [levelsAfter, latchTrace]

/-! ### The chain (R36, R48) -/

/-- A chain of `n` stages after bits are shifted in, first bit first. -/
def shiftBits (n : Nat) (x : List Bool) (bits : List Bool) : List Bool := bits.foldl (fun x b => (b :: x).take n) x

/-- R48: the last bit stands in stage 0, the bits before it above, the old stages above them, and `n` stages are kept. -/
theorem shiftBits_eq (n : Nat) (x : List Bool) {bits : List Bool} (h : bits ≠ []) :
    shiftBits n x bits = (bits.reverse ++ x).take n := by
  induction bits using List.reverseRecOn with
  | nil => exact absurd rfl h
  | append_singleton bits b ih =>
    have hs : shiftBits n x (bits ++ [b]) = (b :: shiftBits n x bits).take n := by simp [shiftBits]
    have ht : ∀ y : List Bool, (b :: y.take n).take n = (b :: y).take n := by
      intro y; cases n <;> simp [List.take_take]
    rcases eq_or_ne bits [] with rfl | hb
    · simp [shiftBits]
    · rw [hs, ih hb, ht]; simp

theorem State.okRun_bitTrace_env (s : State) (l : Level) :
    (s.okRun (bitTrace l)).sr =
      (if s.pinLevel.clock = .low then (l.bit :: s.sr).take s.params.srLen else s.sr) ∧
    (s.okRun (bitTrace l)).q = s.q := by
  simp [bitTrace, State.okRun, State.okStep, State.drive_eq]

/-- R48: from CLOCK low, every bit is shifted in. -/
theorem State.okRun_bits_env {s : State} (bits : List Bool) (h : s.pinLevel.clock = .low) :
    (s.okRun (bitsTrace bits)).sr = shiftBits s.params.srLen s.sr bits ∧ (s.okRun (bitsTrace bits)).q = s.q := by
  induction bits generalizing s with
  | nil => exact ⟨rfl, rfl⟩
  | cons b bits ih =>
    have hb : bitsTrace (b :: bits) = bitTrace (Level.ofBit b) ++ bitsTrace bits := by simp [bitsTrace]
    obtain ⟨h1, h2⟩ := s.okRun_bitTrace_env (Level.ofBit b)
    have hl : (s.okRun (bitTrace (Level.ofBit b))).pinLevel.clock = .low := by
      rw [(State.okRun_of_writes (writesOnly_bitTrace _)).2.2, levelsAfter_bitTrace]
    obtain ⟨i1, i2⟩ := ih hl
    rw [hb, State.okRun_append, i1, i2, h1, h2, if_pos h]
    simp [shiftBits]

/-- R152: from CLOCK high, the first bit makes no edge and is lost. -/
theorem State.okRun_bits_env_high {s : State} (b : Bool) (bits : List Bool) (h : s.pinLevel.clock = .high) :
    (s.okRun (bitsTrace (b :: bits))).sr = shiftBits s.params.srLen s.sr bits ∧ (s.okRun (bitsTrace (b :: bits))).q = s.q := by
  have hb : bitsTrace (b :: bits) = bitTrace (Level.ofBit b) ++ bitsTrace bits := by simp [bitsTrace]
  obtain ⟨h1, h2⟩ := s.okRun_bitTrace_env (Level.ofBit b)
  have hl : (s.okRun (bitTrace (Level.ofBit b))).pinLevel.clock = .low := by
    rw [(State.okRun_of_writes (writesOnly_bitTrace _)).2.2, levelsAfter_bitTrace]
  obtain ⟨i1, i2⟩ := State.okRun_bits_env bits hl
  rw [hb, State.okRun_append, i1, i2, h1, h2, if_neg (by simp [h]), State.okRun_params]
  exact ⟨rfl, rfl⟩

theorem State.okRun_latchTrace_env (s : State) :
    (s.okRun latchTrace).sr = s.sr ∧ (s.okRun latchTrace).q = if s.pinLevel.latch = .low then s.sr else s.q := by
  simp [latchTrace, State.okRun, State.okStep, State.drive_eq]

/-! ### Requests -/

@[simp] theorem requestCount_bitTrace (l : Level) : requestCount (bitTrace l) = 3 := rfl

@[simp] theorem requestCount_latchTrace : requestCount latchTrace = 2 := rfl

theorem requestCount_bitsTrace (bits : List Bool) : requestCount (bitsTrace bits) = 3 * bits.length := by
  induction bits with
  | nil => rfl
  | cons b bits ih =>
    have hb : bitsTrace (b :: bits) = bitTrace (Level.ofBit b) ++ bitsTrace bits := by simp [bitsTrace]
    rw [hb, requestCount_append, ih, requestCount_bitTrace, List.length_cons]; omega

@[simp] theorem requestCount_byteTrace (b : Byte) : requestCount (byteTrace b) = 24 := by
  simp [byteTrace, requestCount_bitsTrace, byteBits]

theorem bitsTrace_append (a b : List Bool) : bitsTrace (a ++ b) = bitsTrace a ++ bitsTrace b := by simp [bitsTrace]

theorem length_bitsTrace (bits : List Bool) : (bitsTrace bits).length = 6 * bits.length := by
  induction bits with
  | nil => rfl
  | cons b bits ih =>
    have hb : bitsTrace (b :: bits) = bitTrace (Level.ofBit b) ++ bitsTrace bits := by simp [bitsTrace]
    rw [hb, List.length_append, ih, List.length_cons]; simp [bitTrace]; omega

/-! ### The frame on the wire (R52, R53) -/

/-- The 32 bits WRITE_FRAME sends, first bit first. -/
def frameBits (order : IndOrder) (f : Frame) : List Bool :=
  byteBits f.g2 ++ byteBits f.g1 ++ byteBits f.g0 ++ [false, false, false, false, false] ++
    [(f.indicatorBits order).1, (f.indicatorBits order).2.1, (f.indicatorBits order).2.2]

theorem frameTrace_eq (order : IndOrder) (f : Frame) : frameTrace order f = bitsTrace (frameBits order f) ++ latchTrace := by
  simp only [frameTrace, frameBits, bitsTrace_append, byteTrace]

@[simp] theorem length_frameBits (order : IndOrder) (f : Frame) : (frameBits order f).length = 32 := rfl

@[simp] theorem requestCount_frameTrace (order : IndOrder) (f : Frame) : requestCount (frameTrace order f) = 98 := by
  rw [frameTrace_eq, requestCount_append, requestCount_bitsTrace]; rfl

theorem writesOnly_frameTrace (order : IndOrder) (f : Frame) : writesOnly (frameTrace order f) := by
  rw [frameTrace_eq]; exact writesOnly_append (writesOnly_bitsTrace _) writesOnly_latchTrace

/-- Bit `i` of the wire word is the bit sent at time 31 − i (R52). -/
theorem wireWord_getLsbD (order : IndOrder) (f : Frame) (i : Nat) (hi : i < 32) :
    (f.wireWord order).getLsbD i = (frameBits order f).reverse[i]?.getD false := by
  simp only [Frame.wireWord, BitVec.getLsbD_append, frameBits, byteBits, List.cons_append, List.nil_append,
    List.reverse_cons, List.reverse_nil]
  interval_cases i <;> simp [BitVec.getLsbD_eq_getElem]

/-- The stages a byte fills are its bits, the last one sent first (R114). -/
theorem reverse_byteBits (b : Byte) : (byteBits b).reverse = stagesOf b := by
  simp [byteBits, stagesOf, List.range_succ, BitVec.getLsbD_eq_getElem]

/-- The stages a frame fills are the bits of its wire word (R53). -/
theorem reverse_frameBits (order : IndOrder) (f : Frame) : (frameBits order f).reverse = stagesOf (f.wireWord order) := by
  apply List.ext_getElem
  · simp [stagesOf]
  · intro i h1 h2
    have hi : i < 32 := by simpa using h1
    simp [stagesOf, wireWord_getLsbD order f i hi, List.getElem?_eq_getElem h1]

/-- After the 32 bits of a frame the chain holds the wire word, then what it held before, as far as it reaches. -/
theorem shiftBits_frameBits (n : Nat) (x : List Bool) (order : IndOrder) (f : Frame) :
    shiftBits n x (frameBits order f) = (stagesOf (f.wireWord order) ++ x).take n := by
  rw [shiftBits_eq _ _ (by simp [← List.length_pos_iff]), reverse_frameBits]

/-- The same with the first bit of the frame lost (R152). -/
theorem shiftBits_frameBits_tail (n : Nat) (x : List Bool) (order : IndOrder) (f : Frame) :
    shiftBits n x (frameBits order f).tail = ((stagesOf (f.wireWord order)).take 31 ++ x).take n := by
  have h : (frameBits order f).tail.reverse = (frameBits order f).reverse.take 31 := by
    rw [← List.dropLast_reverse, List.dropLast_eq_take]; simp
  rw [shiftBits_eq _ _ (by simp [← List.length_pos_iff]), h, reverse_frameBits]

end Sys2Proof.Machine
end

