-- ==== Sys2Proof/Laws/Lifecycle.lean ====
section
/-! SUPPORT. OPEN and CLOSE: when they run, which pins a trace leaves open, and that a trace without a rising CLOCK or
LATCH write leaves the register (20_memory.md R39). -/

namespace Sys2Proof.Machine

open Sys2Proof

/-- OPEN on a closed serializer with distinct identifiers runs its trace (R111). -/
theorem exec_open {s : State} (hl : s.life = .closed) {pins : PinIds} (hd : pins.distinct = true) :
    exec (.openPins pins) s =
      .next ((s.setPins pins).operate (.openPins pins) openTrace State.openDone State.openFailed) := by
  show execOpen pins s = _
  rw [execOpen, hl]; simp [hd]

/-- CLOSE on an open serializer runs its trace (R112). -/
theorem exec_close {s : State} (hl : s.life = .opened) :
    exec .closePins s = .next (s.operate .closePins closeTrace State.closeDone State.closeFailed) := by
  show execClose s = _
  rw [execClose, hl]

/-- Everything OPEN can do when it answers a next state. -/
theorem exec_open_next {s t : State} {pins : PinIds} (h : exec (.openPins pins) s = .next t) :
    s.life = .closed ∧
      ((pins.distinct = true ∧
          t = (s.setPins pins).operate (.openPins pins) openTrace State.openDone State.openFailed) ∨
        (pins.distinct = false ∧ t = s.raise (.invalidArgument (.pins pins)))) := by
  change execOpen pins s = _ at h
  rw [execOpen] at h
  split at h
  · refine ⟨‹_›, ?_⟩
    split at h
    · exact .inl ⟨‹_›, by cases h; rfl⟩
    · exact .inr ⟨Bool.eq_false_iff.2 ‹_›, by cases h; rfl⟩
  · cases h
  · cases h

/-- Everything CLOSE can do when it answers a next state. -/
theorem exec_close_next {s t : State} (h : exec .closePins s = .next t) :
    (s.life = .closed ∧ t = s.complete .none) ∨
      (s.life = .opened ∧ t = s.operate .closePins closeTrace State.closeDone State.closeFailed) := by
  change execClose s = _ at h
  rw [execClose] at h
  split at h
  · exact .inl ⟨‹_›, by cases h; rfl⟩
  · exact .inr ⟨‹_›, by cases h; rfl⟩
  · cases h

/-! ### A failing request of OPEN or CLOSE (60_exceptions.md R136) -/

@[simp] theorem State.enableWriteFailed_params (s : State) : s.enableWriteFailed.params = s.params := by
  rw [State.enableWriteFailed]; split <;> rfl
@[simp] theorem State.enableWriteFailed_life (s : State) : s.enableWriteFailed.life = s.life := by
  rw [State.enableWriteFailed]; split <;> rfl
@[simp] theorem State.enableWriteFailed_pinId (s : State) : s.enableWriteFailed.pinId = s.pinId := by
  rw [State.enableWriteFailed]; split <;> rfl
@[simp] theorem State.enableWriteFailed_pinOpen (s : State) : s.enableWriteFailed.pinOpen = s.pinOpen := by
  rw [State.enableWriteFailed]; split <;> rfl
@[simp] theorem State.enableWriteFailed_pinLevel (s : State) : s.enableWriteFailed.pinLevel = s.pinLevel := by
  rw [State.enableWriteFailed]; split <;> rfl
@[simp] theorem State.enableWriteFailed_active (s : State) : s.enableWriteFailed.active = s.active := by
  rw [State.enableWriteFailed]; split <;> rfl
@[simp] theorem State.enableWriteFailed_commands (s : State) : s.enableWriteFailed.commands = s.commands := by
  rw [State.enableWriteFailed]; split <;> rfl
@[simp] theorem State.enableWriteFailed_results (s : State) : s.enableWriteFailed.results = s.results := by
  rw [State.enableWriteFailed]; split <;> rfl
@[simp] theorem State.enableWriteFailed_trace (s : State) : s.enableWriteFailed.trace = s.trace := by
  rw [State.enableWriteFailed]; split <;> rfl
@[simp] theorem State.enableWriteFailed_calls (s : State) : s.enableWriteFailed.calls = s.calls := by
  rw [State.enableWriteFailed]; split <;> rfl
@[simp] theorem State.enableWriteFailed_answers (s : State) : s.enableWriteFailed.answers = s.answers := by
  rw [State.enableWriteFailed]; split <;> rfl
@[simp] theorem State.enableWriteFailed_levels (s : State) : s.enableWriteFailed.levels = s.levels := by
  rw [State.enableWriteFailed]; split <;> rfl

/-- The register after a failed ENABLE write, by the parameter (log entry 18). -/
theorem State.enableWriteFailed_register (s : State) :
    (s.params.failedEnableWrite = .keepsRegister ∧ s.enableWriteFailed = s) ∨
      (s.params.failedEnableWrite = .losesRegister ∧ s.enableWriteFailed = s.drawRegister) := by
  rw [State.enableWriteFailed]; split
  · exact .inl ⟨‹_›, rfl⟩
  · exact .inr ⟨‹_›, rfl⟩

section LifecycleFailed
variable (s : State) (e : PinEvent)
@[simp] theorem State.lifecycleFailed_params : (s.lifecycleFailed e).params = s.params := by
  cases e <;> simp [State.lifecycleFailed]
@[simp] theorem State.lifecycleFailed_life : (s.lifecycleFailed e).life = .failed := by
  cases e <;> simp [State.lifecycleFailed]
@[simp] theorem State.lifecycleFailed_pinId : (s.lifecycleFailed e).pinId = s.pinId := by
  cases e <;> simp [State.lifecycleFailed]
@[simp] theorem State.lifecycleFailed_pinOpen : (s.lifecycleFailed e).pinOpen = s.pinOpen := by
  cases e <;> simp [State.lifecycleFailed]
@[simp] theorem State.lifecycleFailed_active : (s.lifecycleFailed e).active = s.active := by
  cases e <;> simp [State.lifecycleFailed]
@[simp] theorem State.lifecycleFailed_commands : (s.lifecycleFailed e).commands = s.commands := by
  cases e <;> simp [State.lifecycleFailed]
@[simp] theorem State.lifecycleFailed_results : (s.lifecycleFailed e).results = s.results := by
  cases e <;> simp [State.lifecycleFailed]
@[simp] theorem State.lifecycleFailed_trace : (s.lifecycleFailed e).trace = s.trace := by
  cases e <;> simp [State.lifecycleFailed]
@[simp] theorem State.lifecycleFailed_calls : (s.lifecycleFailed e).calls = s.calls := by
  cases e <;> simp [State.lifecycleFailed]
@[simp] theorem State.lifecycleFailed_answers : (s.lifecycleFailed e).answers = s.answers := by
  cases e <;> simp [State.lifecycleFailed]

/-- A failing request that is no write, or one under R136's reading, leaves the register. -/
theorem State.lifecycleFailed_keeps
    (h : (∀ p l, e ≠ .writeReq p l) ∨ s.params.failedEnableWrite = .keepsRegister) :
    (s.lifecycleFailed e).sr = s.sr ∧ (s.lifecycleFailed e).q = s.q ∧ (s.lifecycleFailed e).chains = s.chains := by
  cases e with
  | writeReq p l =>
    have hk := h.resolve_left fun h => h p l rfl
    simp [State.lifecycleFailed, State.enableWriteFailed, hk]
  | _ => simp [State.lifecycleFailed]

/-- A failing write under R39's reading leaves the register unspecified. -/
theorem State.lifecycleFailed_loses {p : PinRole} {l : Level} (h : s.params.failedEnableWrite = .losesRegister) :
    (s.lifecycleFailed (.writeReq p l)).sr = s.drawnStages 0 ∧
      (s.lifecycleFailed (.writeReq p l)).q = s.drawnStages s.params.srLen ∧
      (s.lifecycleFailed (.writeReq p l)).chains = s.chains.drop (2 * s.params.srLen) := by
  simp only [State.lifecycleFailed, State.enableWriteFailed, State.drawAllLevels_params, h]
  exact ⟨rfl, rfl, rfl⟩

/-- The register keeps its length. -/
theorem State.lifecycleFailed_registerSized {s : State} (h : s.registerSized) (e : PinEvent) :
    (s.lifecycleFailed e).registerSized := by
  by_cases hk : (∀ p l, e ≠ .writeReq p l) ∨ s.params.failedEnableWrite = .keepsRegister
  · obtain ⟨h1, h2, -⟩ := s.lifecycleFailed_keeps e hk
    simpa [State.registerSized, h1, h2] using h
  · cases e with
    | writeReq p l =>
      have hl : s.params.failedEnableWrite = .losesRegister := by
        cases hp : s.params.failedEnableWrite with
        | keepsRegister => exact absurd (.inr hp) hk
        | losesRegister => rfl
      obtain ⟨h1, h2, -⟩ := s.lifecycleFailed_loses (p := p) (l := l) hl
      simp [State.registerSized, h1, h2]
    | _ => exact absurd (.inl (by simp)) hk
end LifecycleFailed

/-- What a successful event does to `pin_open` (R17). -/
def opensAfter (isOpen : PerPin Bool) : PinEvent → PerPin Bool
  | .openReq p => isOpen.set p true
  | .closeReq p => isOpen.set p false
  | .writeReq _ _ => isOpen
  | .wait => isOpen

theorem State.okStep_pinOpen (s : State) (e : PinEvent) : (s.okStep e).pinOpen = opensAfter s.pinOpen e := by
  cases e <;> simp [State.okStep, State.drive_eq, opensAfter]

theorem State.okRun_pinOpen (s : State) (plan : List PinEvent) :
    (s.okRun plan).pinOpen = plan.foldl opensAfter s.pinOpen := by
  induction plan generalizing s with
  | nil => rfl
  | cons e plan ih => rw [State.okRun_cons, ih, State.okStep_pinOpen, List.foldl_cons]

/-- OPEN's last request leaves ENABLE low. -/
theorem State.okRun_openTrace_enable (s : State) : (s.okRun openTrace).pinLevel.enable = .low := by
  have h : openTrace = openTrace.take 4 ++ [.writeReq .enable .low] := rfl
  rw [h, State.okRun_append]
  simp [State.okRun, State.okStep, State.drive_eq]

/-- An event that makes no edge on CLOCK or LATCH. -/
def PinEvent.isQuiet : PinEvent → Bool
  | .writeReq .clock .high => false
  | .writeReq .latch .high => false
  | _ => true

theorem State.okStep_quiet {s : State} {e : PinEvent} (h : e.isQuiet = true) :
    (s.okStep e).sr = s.sr ∧ (s.okStep e).q = s.q := by
  rcases e with p | ⟨p, l⟩ | p | _
  · simp [State.okStep]
  · cases p <;> cases l <;> simp_all [State.okStep, State.drive_eq, PinEvent.isQuiet]
  · simp [State.okStep]
  · simp [State.okStep]

/-- Nothing else moves the register (R39). -/
theorem State.okRun_quiet {s : State} {plan : List PinEvent} (h : plan.all PinEvent.isQuiet = true) :
    (s.okRun plan).sr = s.sr ∧ (s.okRun plan).q = s.q := by
  induction plan generalizing s with
  | nil => exact ⟨rfl, rfl⟩
  | cons e plan ih =>
    rw [List.all_cons, Bool.and_eq_true] at h
    obtain ⟨i1, i2⟩ := ih (s := s.okStep e) h.2
    obtain ⟨j1, j2⟩ := State.okStep_quiet (s := s) h.1
    exact ⟨by rw [State.okRun_cons, i1, j1], by rw [State.okRun_cons, i2, j2]⟩

end Sys2Proof.Machine
end

