-- ==== Sys2Proof/Laws/Writes.lean ====
section
/-! SUPPORT. The four write operations: when they have a meaning, what a completed one leaves, and the frame trace as a
whole. -/

namespace Sys2Proof.Machine

open Sys2Proof

/-- When open, a write runs its trace (R120). -/
theorem State.writeOp_open {s : State} (h : s.life = .opened) (i : Instr) (plan : List PinEvent) :
    s.writeOp i plan = .next (s.operate i plan State.writeDone State.writeFailed) := by
  rw [State.writeOp, h]

/-- A write that answers a next state was open and ran its trace. -/
theorem State.writeOp_next {s t : State} {i : Instr} {plan : List PinEvent} (h : s.writeOp i plan = .next t) :
    s.life = .opened ∧ t = s.operate i plan State.writeDone State.writeFailed := by
  rw [State.writeOp] at h
  split at h
  · exact ⟨‹_›, by cases h; rfl⟩
  · cases h
  · cases h

/-- The four write operations have one shape. -/
theorem exec_write {i : Instr} (hi : isWriteOp i = true) (s : State) :
    exec i s = s.writeOp i (tracePlan s.params.indOrder i) := by
  cases i <;> first | rfl | cases hi

theorem writesOnly_tracePlan {i : Instr} (hi : isWriteOp i = true) (order : IndOrder) :
    writesOnly (tracePlan order i) := by
  cases i <;> try cases hi
  · exact writesOnly_bitTrace _
  · exact writesOnly_bitsTrace _
  · exact writesOnly_latchTrace
  · exact writesOnly_frameTrace _ _

/-- A write operation, every request succeeding, in one record; the register is `okRun`'s. -/
theorem exec_write_ok {i : Instr} (hi : isWriteOp i = true) {s : State} (hl : s.life = .opened)
    (hs : s.succeeds (requestCount (tracePlan s.params.indOrder i))) :
    exec i s = .next { s with
      pinLevel := levelsAfter s.pinLevel (tracePlan s.params.indOrder i)
      sr := ((s.beginOp i).okRun (tracePlan s.params.indOrder i)).sr
      q := ((s.beginOp i).okRun (tracePlan s.params.indOrder i)).q
      active := none
      results := s.results ++ [.ok .none]
      trace := s.trace ++ tracePlan s.params.indOrder i
      calls := s.calls ++ (tracePlan s.params.indOrder i).flatMap (callOf s.pinId)
      answers := s.answers.drop (requestCount (tracePlan s.params.indOrder i)) } := by
  rw [exec_write hi, State.writeOp_open hl, State.operate_ok hs]
  have hw := State.okRun_of_writes (s := s.beginOp i) (writesOnly_tracePlan hi s.params.indOrder)
  congr 1
  apply State.ext <;> simp [State.writeDone, hw, State.okRun_calls, State.okRun_answers]

/-- WRITE_FRAME leaves DATA at its last bit, Red, and CLOCK and LATCH low. -/
theorem levelsAfter_frameTrace (x : PerPin Level) (order : IndOrder) (f : Frame) :
    levelsAfter x (frameTrace order f) = { x with data := Level.ofBit f.red, clock := .low, latch := .low } := by
  rw [frameTrace_eq, levelsAfter_append, levelsAfter_latchTrace]
  have h : frameBits order f = (frameBits order f).dropLast ++ [f.red] := by cases order <;> rfl
  rw [h, levelsAfter_bitsTrace]

/-- The register after a frame, from any levels (R121, R152). -/
theorem State.okRun_frameTrace_env (s : State) (order : IndOrder) (f : Frame) :
    (s.okRun (frameTrace order f)).sr =
      (if s.pinLevel.clock = .low then (stagesOf (f.wireWord order) ++ s.sr).take s.params.srLen
        else ((stagesOf (f.wireWord order)).take 31 ++ s.sr).take s.params.srLen) ∧
    (s.okRun (frameTrace order f)).q =
      if s.pinLevel.latch = .low then (s.okRun (frameTrace order f)).sr else s.q := by
  have hr : (s.okRun (bitsTrace (frameBits order f))).sr =
        (if s.pinLevel.clock = .low then (stagesOf (f.wireWord order) ++ s.sr).take s.params.srLen
          else ((stagesOf (f.wireWord order)).take 31 ++ s.sr).take s.params.srLen) ∧
      (s.okRun (bitsTrace (frameBits order f))).q = s.q := by
    cases hc : s.pinLevel.clock with
    | low =>
      obtain ⟨h1, h2⟩ := State.okRun_bits_env (frameBits order f) hc
      simp [h1, h2, shiftBits_frameBits]
    | high =>
      have hcons : frameBits order f =
          (frameBits order f).head (by simp [← List.length_pos_iff]) :: (frameBits order f).tail := by simp
      obtain ⟨h1, h2⟩ := State.okRun_bits_env_high _ (frameBits order f).tail hc
      rw [hcons, h1, h2, shiftBits_frameBits_tail]; simp
  have hl := (State.okRun_of_writes (s := s) (writesOnly_bitsTrace (frameBits order f))).2.2
  obtain ⟨k1, k2⟩ := (s.okRun (bitsTrace (frameBits order f))).okRun_latchTrace_env
  rw [frameTrace_eq, State.okRun_append, k1, k2, hr.1, hr.2, hl]
  have h : frameBits order f = (frameBits order f).dropLast ++ [f.red] := by cases order <;> rfl
  rw [h, levelsAfter_bitsTrace]; exact ⟨rfl, rfl⟩

/-! ### Several writes -/

/-- The register and the levels after events depend on the register, its length and the levels before them only. -/
theorem State.okRun_env_congr {s t : State} (hsr : s.sr = t.sr) (hq : s.q = t.q) (hl : s.pinLevel = t.pinLevel)
    (hp : s.params = t.params) {plan : List PinEvent} (h : writesOnly plan) :
    (s.okRun plan).sr = (t.okRun plan).sr ∧ (s.okRun plan).q = (t.okRun plan).q := by
  induction plan generalizing s t with
  | nil => exact ⟨hsr, hq⟩
  | cons e plan ih =>
    have he := h e (by simp)
    refine ih ?_ ?_ ?_ (by simp [hp]) fun d hd => h d (by simp [hd])
    · rcases he with rfl | ⟨p, l, rfl⟩
      · exact hsr
      · simp [State.okStep, State.drive_eq, hsr, hq, hl, hp]; rfl
    · rcases he with rfl | ⟨p, l, rfl⟩
      · exact hq
      · simp [State.okStep, State.drive_eq, hsr, hq, hl, hp]; rfl
    · rw [(State.okStep_of_write he).2.2, (State.okStep_of_write he).2.2, hl]

/-- Several writes, every request succeeding: one trace after the other. -/
theorem execAll_writes_ok {ops : List Instr} (hw : ∀ i ∈ ops, isWriteOp i = true) {s : State} (hl : s.life = .opened)
    {order : IndOrder} (ho : s.params.indOrder = order)
    (hs : s.succeeds (requestCount (ops.flatMap (tracePlan order)))) :
    execAll ops s = .next { s with
      pinLevel := levelsAfter s.pinLevel (ops.flatMap (tracePlan order))
      sr := (s.okRun (ops.flatMap (tracePlan order))).sr
      q := (s.okRun (ops.flatMap (tracePlan order))).q
      active := if ops = [] then s.active else none
      results := s.results ++ List.replicate ops.length (.ok .none)
      trace := s.trace ++ ops.flatMap (tracePlan order)
      calls := s.calls ++ (ops.flatMap (tracePlan order)).flatMap (callOf s.pinId)
      answers := s.answers.drop (requestCount (ops.flatMap (tracePlan order))) } := by
  subst ho
  induction ops generalizing s with
  | nil => simp [execAll, levelsAfter]
  | cons i ops ih =>
    rw [List.flatMap_cons, requestCount_append] at hs
    have hi := hw i (by simp)
    rw [execAll, exec_write_ok hi hl (State.succeeds_mono hs (by omega))]
    simp only
    rw [ih (fun j hj => hw j (by simp [hj])) (by exact hl) (by exact State.succeeds_of_answers hs rfl)]
    have hc : ∀ u : State, u.sr = ((s.beginOp i).okRun (tracePlan s.params.indOrder i)).sr →
        u.q = ((s.beginOp i).okRun (tracePlan s.params.indOrder i)).q →
        u.pinLevel = levelsAfter s.pinLevel (tracePlan s.params.indOrder i) → u.params = s.params →
        (u.okRun (ops.flatMap (tracePlan s.params.indOrder))).sr =
            (s.okRun ((i :: ops).flatMap (tracePlan s.params.indOrder))).sr ∧
          (u.okRun (ops.flatMap (tracePlan s.params.indOrder))).q =
            (s.okRun ((i :: ops).flatMap (tracePlan s.params.indOrder))).q := by
      intro u h1 h2 h3 h4
      have hwo := writesOnly_tracePlan hi s.params.indOrder
      obtain ⟨e1, e2⟩ := State.okRun_env_congr (s := s.beginOp i) (t := s) rfl rfl rfl rfl hwo
      rw [List.flatMap_cons, State.okRun_append]
      refine State.okRun_env_congr (by rw [h1, e1]) (by rw [h2, e2]) (by rw [h3, (State.okRun_of_writes hwo).2.2])
        (by simp [h4]) ?_
      intro d hd
      obtain ⟨j, hj, hd⟩ := List.mem_flatMap.1 hd
      exact writesOnly_tracePlan (hw j (by simp [hj])) _ d hd
    congr 1
    apply State.ext
    all_goals simp only []
    · rw [← levelsAfter_append]; rfl
    · exact (hc _ (by rfl) (by rfl) (by rfl) (by rfl)).1
    · exact (hc _ (by rfl) (by rfl) (by rfl) (by rfl)).2
    · split <;> rfl
    · simp [List.replicate_succ]
    · simp
    · simp
    · rw [List.flatMap_cons, requestCount_append, Supply.drop_add]

end Sys2Proof.Machine
end

