-- ==== Sys2Proof/Laws/Run.lean ====
section
/-! SUPPORT. Everything an operation can do when it answers a next state: a pure one returns a result, the other six
have one shape. -/

namespace Sys2Proof.Machine

open Sys2Proof

/-- A pure operation that completes or raises. -/
theorem exec_pure_next {i : Instr} (hi : i.isPure = true) {s t : State} (h : exec i s = .next t) :
    (∃ v, t = s.complete v) ∨ ∃ b, t = s.raise (.invalidArgument b) := by
  cases i <;> (try cases hi) <;>
    simp only [exec, execIntDigits, execFracDigits, execDigitAt, execEncDigit, execEncSymbol, execEncRaw,
      execFrameNew, execWithStatus, execWithGlyph, execWithPushed, execFmtText, execFmtDecimal] at h
  all_goals (repeat' split at h) <;> cases h <;> first | exact .inl ⟨_, rfl⟩ | exact .inr ⟨_, rfl⟩

/-- What an operation writes before its first event: OPEN its identifiers (R111). -/
def State.prepare (s : State) : Instr → State
  | .openPins pins => s.setPins pins
  | _ => s

section Prepare
variable (s : State) (i : Instr)
@[simp] theorem State.prepare_params : (s.prepare i).params = s.params := by cases i <;> rfl
@[simp] theorem State.prepare_life : (s.prepare i).life = s.life := by cases i <;> rfl
@[simp] theorem State.prepare_pinOpen : (s.prepare i).pinOpen = s.pinOpen := by cases i <;> rfl
@[simp] theorem State.prepare_pinLevel : (s.prepare i).pinLevel = s.pinLevel := by cases i <;> rfl
@[simp] theorem State.prepare_sr : (s.prepare i).sr = s.sr := by cases i <;> rfl
@[simp] theorem State.prepare_q : (s.prepare i).q = s.q := by cases i <;> rfl
@[simp] theorem State.prepare_active : (s.prepare i).active = s.active := by cases i <;> rfl
@[simp] theorem State.prepare_commands : (s.prepare i).commands = s.commands := by cases i <;> rfl
@[simp] theorem State.prepare_results : (s.prepare i).results = s.results := by cases i <;> rfl
@[simp] theorem State.prepare_trace : (s.prepare i).trace = s.trace := by cases i <;> rfl
@[simp] theorem State.prepare_calls : (s.prepare i).calls = s.calls := by cases i <;> rfl
@[simp] theorem State.prepare_answers : (s.prepare i).answers = s.answers := by cases i <;> rfl
@[simp] theorem State.prepare_levels : (s.prepare i).levels = s.levels := by cases i <;> rfl
@[simp] theorem State.prepare_chains : (s.prepare i).chains = s.chains := by cases i <;> rfl

@[simp] theorem State.finishPlan_params : (s.finishPlan i).params = s.params := by cases i <;> rfl
@[simp] theorem State.finishPlan_pinId : (s.finishPlan i).pinId = s.pinId := by cases i <;> rfl
@[simp] theorem State.finishPlan_pinOpen : (s.finishPlan i).pinOpen = s.pinOpen := by cases i <;> rfl
@[simp] theorem State.finishPlan_pinLevel : (s.finishPlan i).pinLevel = s.pinLevel := by cases i <;> rfl
@[simp] theorem State.finishPlan_sr : (s.finishPlan i).sr = s.sr := by cases i <;> rfl
@[simp] theorem State.finishPlan_q : (s.finishPlan i).q = s.q := by cases i <;> rfl
@[simp] theorem State.finishPlan_commands : (s.finishPlan i).commands = s.commands := by cases i <;> rfl
@[simp] theorem State.finishPlan_results : (s.finishPlan i).results = s.results := by cases i <;> rfl
@[simp] theorem State.finishPlan_trace : (s.finishPlan i).trace = s.trace := by cases i <;> rfl
@[simp] theorem State.finishPlan_calls : (s.finishPlan i).calls = s.calls := by cases i <;> rfl
@[simp] theorem State.finishPlan_answers : (s.finishPlan i).answers = s.answers := by cases i <;> rfl

@[simp] theorem State.abandonPlan_params (e : PinEvent) : (s.abandonPlan i e).params = s.params := by
  cases i <;> simp [State.abandonPlan, State.openFailed, State.closeFailed, State.writeFailed]
@[simp] theorem State.abandonPlan_pinId (e : PinEvent) : (s.abandonPlan i e).pinId = s.pinId := by
  cases i <;> simp [State.abandonPlan, State.openFailed, State.closeFailed, State.writeFailed]
@[simp] theorem State.abandonPlan_pinOpen (e : PinEvent) : (s.abandonPlan i e).pinOpen = s.pinOpen := by
  cases i <;> simp [State.abandonPlan, State.openFailed, State.closeFailed, State.writeFailed]
@[simp] theorem State.abandonPlan_commands (e : PinEvent) : (s.abandonPlan i e).commands = s.commands := by
  cases i <;> simp [State.abandonPlan, State.openFailed, State.closeFailed, State.writeFailed]
@[simp] theorem State.abandonPlan_results (e : PinEvent) : (s.abandonPlan i e).results = s.results := by
  cases i <;> simp [State.abandonPlan, State.openFailed, State.closeFailed, State.writeFailed]
@[simp] theorem State.abandonPlan_trace (e : PinEvent) : (s.abandonPlan i e).trace = s.trace := by
  cases i <;> simp [State.abandonPlan, State.openFailed, State.closeFailed, State.writeFailed]
@[simp] theorem State.abandonPlan_calls (e : PinEvent) : (s.abandonPlan i e).calls = s.calls := by
  cases i <;> simp [State.abandonPlan, State.openFailed, State.closeFailed, State.writeFailed]
@[simp] theorem State.abandonPlan_answers (e : PinEvent) : (s.abandonPlan i e).answers = s.answers := by
  cases i <;> simp [State.abandonPlan, State.openFailed, State.closeFailed, State.writeFailed]
end Prepare

/-- When an operation with a trace runs it (R111, R112, R120). -/
def runsTrace (s : State) : Instr → Prop
  | .openPins pins => s.life = .closed ∧ pins.distinct = true
  | _ => s.life = .opened

/-- An operation with a trace that may run does so. -/
theorem exec_runs {i : Instr} {s : State} (hi : i.isPure = false) (h : runsTrace s i) :
    exec i s = .next ((s.prepare i).operate i (tracePlan s.params.indOrder i) (·.finishPlan i) (·.abandonPlan i ·)) := by
  by_cases hw : isWriteOp i = true
  · have hl : s.life = .opened := by cases i <;> first | exact h | cases hw
    rw [exec_write hw, State.writeOp_open hl]
    cases i <;> first | rfl | cases hw
  · cases i <;> simp [isWriteOp, Instr.isPure] at hi hw
    · rw [exec_open h.1 h.2]; rfl
    · rw [exec_close h]; rfl

/-- Everything the six operations with a trace can do when they answer a next state. -/
theorem exec_next {i : Instr} (hi : i.isPure = false) {s t : State} (h : exec i s = .next t) :
    (i = .closePins ∧ s.life = .closed ∧ t = s.complete .none) ∨
    (∃ pins, i = .openPins pins ∧ s.life = .closed ∧ pins.distinct = false ∧
      t = s.raise (.invalidArgument (.pins pins))) ∨
    (runsTrace s i ∧
      t = (s.prepare i).operate i (tracePlan s.params.indOrder i) (·.finishPlan i) (·.abandonPlan i ·)) := by
  have fin (hr : runsTrace s i) : runsTrace s i ∧
      t = (s.prepare i).operate i (tracePlan s.params.indOrder i) (·.finishPlan i) (·.abandonPlan i ·) := by
    have := exec_runs hi hr
    rw [h] at this
    exact ⟨hr, by cases this; rfl⟩
  by_cases hw : isWriteOp i = true
  · rw [exec_write hw] at h
    have hl := (State.writeOp_next h).1
    exact .inr (.inr (fin (by cases i <;> first | exact hl | cases hw)))
  · cases i <;> simp [isWriteOp, Instr.isPure] at hi hw
    · rename_i pins
      obtain ⟨hl, ⟨hd, -⟩ | ⟨hd, ht⟩⟩ := exec_open_next h
      · exact .inr (.inr (fin ⟨hl, hd⟩))
      · exact .inr (.inl ⟨pins, rfl, hl, hd, ht⟩)
    · rcases exec_close_next h with ⟨hl, ht⟩ | ⟨hl, -⟩
      · exact .inl ⟨rfl, hl, ht⟩
      · exact .inr (.inr (fin hl))

/-- A step that answers a next state ran the operation of the host's first command. -/
theorem step_next {s t : State} (h : step s = .next t) :
    ∃ i c rest, s.active = none ∧ s.life ≠ .failed ∧ s.commands = c :: rest ∧ decode s.params c = .ok i ∧
      exec i { s with commands := rest } = .next t := by
  unfold step at h
  split at h
  · cases h
  · rename_i i u hf
    unfold State.fetch at hf
    split at hf
    · cases hf
    · rename_i ha
      split at hf
      · cases hf
      all_goals
        rename_i hl
        split at hf
        · cases hf
        · rename_i c rest hc
          split at hf
          · cases hf
          · rename_i hd
            cases hf
            exact ⟨_, c, rest, ha, by simp [hl], hc, hd, h⟩

/-- No operation writes a parameter (20_memory.md R32). -/
theorem exec_params {i : Instr} {s t : State} (h : exec i s = .next t) : t.params = s.params := by
  cases hi : i.isPure
  · rcases exec_next hi h with ⟨-, -, rfl⟩ | ⟨_, -, -, -, rfl⟩ | ⟨-, rfl⟩
    · rfl
    · rfl
    · rcases (s.prepare i).operate_cases i (tracePlan s.params.indOrder i) (·.finishPlan i) (·.abandonPlan i ·) with
        ⟨_, h⟩ | ⟨b, e, a, _, _, _, _, h⟩ <;> rw [h] <;> simp
  · rcases exec_pure_next hi h with ⟨v, rfl⟩ | ⟨b, rfl⟩ <;> rfl

end Sys2Proof.Machine
end

