-- ==== Sys2Proof/Laws/Events.lean ====
section
/-! SUPPORT. The event-level machine against whole traces (10_state.md R13). -/

namespace Sys2Proof.Machine

open Sys2Proof

theorem State.eventSteps_none {s : State} (h : s.active = none) (n : Nat) : s.eventSteps n = s := by
  induction n with
  | zero => rfl
  | succ n ih => rw [State.eventSteps, State.eventStep, h]; exact ih

theorem State.eventSteps_succ (s : State) (n : Nat) : s.eventSteps (n + 1) = (s.eventSteps n).eventStep := by
  induction n generalizing s with
  | zero => rfl
  | succ n ih => rw [State.eventSteps, ih]; rfl

/-- The event-level machine runs what is left of a trace, and ends the operation. -/
theorem State.eventSteps_runPlan {i : Instr} {order : IndOrder} {s : State} {k : Nat} (ho : s.params.indOrder = order)
    (ha : s.active = some ⟨i, k⟩) {d : PinEvent} {rest : List PinEvent}
    (hp : (tracePlan order i).drop k = d :: rest) :
    s.eventSteps (rest.length + 1) =
      match State.runPlan (d :: rest) s with
      | (none, t) => (t.finishPlan i).endOp.complete .none
      | (some e, t) => (t.abandonPlan i e).endOp.raise (.hardwareIO e) := by
  have hg : (tracePlan order i)[k]? = some d := by rw [← List.head?_drop, hp]; rfl
  have hlen := congrArg List.length hp
  rw [List.length_drop, List.length_cons] at hlen
  induction rest generalizing s k d with
  | nil =>
    have hl : k + 1 = (tracePlan order i).length := by simp at hlen; omega
    show s.eventStep = _
    rw [State.eventStep, ha, ho]
    simp only [hg, State.runPlan]
    rcases s.perform d with ⟨_ | _, t⟩ <;> simp [hl]
  | cons d' rest ih =>
    have hl : k + 1 ≠ (tracePlan order i).length := by simp at hlen; omega
    have hp' : (tracePlan order i).drop (k + 1) = d' :: rest := by rw [← List.drop_drop, hp]; rfl
    have hperf := s.perform_eq d
    rw [List.length_cons, State.eventSteps, State.eventStep, ha, ho, State.runPlan]
    simp only [hg]
    split at hperf
    · simp only [hperf]
      exact State.eventSteps_none rfl _
    · simp only [hperf, if_neg hl]
      exact ih (by simp [ho]) (k := k + 1) (by simp [ha, Activity.advance]) hp'
        (by rw [← List.head?_drop, hp']; rfl) (by rw [← List.length_drop, hp']; rfl)

/-- While every request succeeds, and before the last event, the event-level machine runs the trace. -/
theorem State.eventSteps_ok {i : Instr} {s : State} {n : Nat} (hn : n < (tracePlan s.params.indOrder i).length)
    (hs : s.succeeds (requestCount ((tracePlan s.params.indOrder i).take n))) :
    (s.beginOp i).eventSteps n = (s.beginOp i).okRun ((tracePlan s.params.indOrder i).take n) := by
  induction n with
  | zero => rfl
  | succ n ih =>
    have ht : (tracePlan s.params.indOrder i).take (n + 1) =
        (tracePlan s.params.indOrder i).take n ++ [(tracePlan s.params.indOrder i)[n]] := by simp
    rw [ht, requestCount_append] at hs
    rw [State.eventSteps_succ, ih (by omega) (State.succeeds_mono hs (by omega)), ht, State.okRun_append,
      State.eventStep]
    have ha : ((s.beginOp i).okRun ((tracePlan s.params.indOrder i).take n)).active = some ⟨i, n⟩ := by
      rw [State.okRun_active]; simp [State.beginOp]; omega
    have hk : (tracePlan s.params.indOrder i)[n]? = some (tracePlan s.params.indOrder i)[n] :=
      List.getElem?_eq_getElem (by omega)
    have hperf : ((s.beginOp i).okRun ((tracePlan s.params.indOrder i).take n)).perform
        (tracePlan s.params.indOrder i)[n] = (true, _) := State.perform_ok fun hr => by
      rw [State.answer_of_answers (s := s.beginOp i) (State.okRun_answers _ _)]
      exact hs _ (by simp [requestCount_cons, hr])
    simp only [ha, State.okRun_params, State.beginOp_params, hk, hperf, if_neg (Nat.ne_of_lt hn)]
    rfl

end Sys2Proof.Machine
end

