-- ==== Sys2Proof/Laws/Format.lean ====
section
/-! SUPPORT. FMT_DECIMAL: what depends on the value of a decimal only, the rounding carry, the frame of a window of
digits (43_frame_format.md). -/

namespace Sys2Proof

open Machine

theorem Decimal.abs_intDigits (v : Decimal) : v.abs.intDigits = v.intDigits := rfl
theorem Decimal.abs_fracDigits (v : Decimal) : v.abs.fracDigits = v.fracDigits := rfl
theorem Decimal.abs_abs_val (v : Decimal) : |v.abs.val| = |v.val| := by rw [Decimal.abs_val, Decimal.abs_val]; rfl

/-- At most one number meets the rule of `round_dec` (R74). -/
theorem round_unique {mode : RoundMode} {x : ℚ} {m n : Nat}
    (hm : |(m : ℚ) - x| ≤ 1 / 2 ∧ (|(m : ℚ) - x| = 1 / 2 → (mode = .halfUp → x < m) ∧ (mode = .halfEven → m % 2 = 0)))
    (hn : |(n : ℚ) - x| ≤ 1 / 2 ∧ (|(n : ℚ) - x| = 1 / 2 → (mode = .halfUp → x < n) ∧ (mode = .halfEven → n % 2 = 0))) :
    m = n := by
  wlog h : m < n generalizing m n
  · rcases Nat.lt_or_ge n m with h' | h'
    · exact (this hn hm h').symm
    · omega
  exfalso
  have h1 := abs_le.1 hm.1
  have h2 := abs_le.1 hn.1
  have h3 : (m : ℚ) + 1 ≤ n := by exact_mod_cast h
  have e1 : (m : ℚ) - x = -(1 / 2) := by linarith
  have e2 : (n : ℚ) - x = 1 / 2 := by linarith
  have hmn : n = m + 1 := by
    have : (n : ℚ) = ((m + 1 : Nat) : ℚ) := by push_cast; linarith
    exact_mod_cast this
  have t1 := hm.2 (by rw [e1]; norm_num)
  have t2 := hn.2 (by rw [e2]; norm_num)
  cases mode with
  | halfUp => have := t1.1 rfl; linarith
  | halfEven => have := t1.2 rfl; have := t2.2 rfl; omega

/-- Rounding depends on the value only (R70). -/
theorem roundedNum_congr (mode : RoundMode) {v w : Decimal} (n : Nat) (h : |v.val| = |w.val|) :
    roundedNum mode v n = roundedNum mode w n := by
  have h1 := roundedNum_spec mode v n
  have h2 := roundedNum_spec mode w n
  rw [← h] at h2
  exact round_unique h1 h2

theorem Decimal.floor_congr {v w : Decimal} (h : |v.val| = |w.val|) : v.floor = w.floor := by
  have h1 := v.floor_abs_val
  have h2 := w.floor_abs_val
  rw [h, h2] at h1
  exact_mod_cast h1.symm

theorem Decimal.intDigits_congr {v w : Decimal} (h : |v.val| = |w.val|) : v.intDigits = w.intDigits := by
  rw [Decimal.intDigits, Decimal.intDigits, Decimal.floor_congr h]

theorem fitsIn_abs (q : ℚ) (n : Nat) : fitsIn q n ↔ fitsIn |q| n := by
    rcases abs_choice q with h | h <;> rw [h]
    constructor <;> rintro ⟨z, hz⟩ <;> refine ⟨-z, ?_⟩ <;> push_cast <;> linarith

theorem Decimal.fracDigits_congr {v w : Decimal} (h : |v.val| = |w.val|) : v.fracDigits = w.fracDigits := by
  apply Nat.le_antisymm
  · rw [← fitsIn_iff, fitsIn_abs, h, ← fitsIn_abs, fitsIn_iff]
  · rw [← fitsIn_iff, fitsIn_abs, ← h, ← fitsIn_abs, fitsIn_iff]

/-- Where `m / 10^fd` is the value, DIGIT_AT reads the digits of `m`. -/
theorem Decimal.digitAt_eq (v : Decimal) (m fd k : Nat) (h : m * 10 ^ v.scale = v.coeff * 10 ^ fd) :
    v.digitAt ((k : Int) - fd) = lastDigit (m / 10 ^ k) := by
  have hs : 0 < 10 ^ v.scale := by positivity
  rcases Nat.lt_or_ge k fd with hk | hk
  · obtain ⟨j, rfl⟩ : ∃ j, fd = k + j + 1 := ⟨fd - k - 1, by omega⟩
    have hi : ((k : Int) - ((k + j + 1 : Nat) : Int)) = Int.negSucc j := by omega
    rw [hi, Decimal.digitAt]
    apply Fin.ext
    simp only [lastDigit]
    have h1 : m / 10 ^ k = v.coeff * 10 ^ (j + 1) / 10 ^ v.scale := by
      rw [← Nat.mul_div_mul_right m (10 ^ k) hs, h, show k + j + 1 = k + (j + 1) by omega, pow_add,
        mul_comm (10 ^ k) (10 ^ v.scale),
        ← mul_assoc, mul_right_comm, Nat.mul_div_mul_right _ _ (by positivity)]
    have h2 : v.coeff * 10 ^ (j + 1) = 10 ^ v.scale * (v.floor * 10 ^ (j + 1)) + v.fracNum * 10 ^ (j + 1) := by
      have := Nat.div_add_mod v.coeff (10 ^ v.scale)
      conv_lhs => rw [← this]
      rw [add_mul, mul_assoc]; rfl
    rw [h1, h2, Nat.mul_add_div hs, show v.floor * 10 ^ (j + 1) = v.floor * 10 ^ j * 10 by rw [pow_succ, mul_assoc]]
    omega
  · obtain ⟨j, rfl⟩ : ∃ j, k = fd + j := ⟨k - fd, by omega⟩
    have hi : (((fd + j : Nat) : Int) - (fd : Int)) = Int.ofNat j := by simp
    rw [hi, Decimal.digitAt]
    congr 1
    have h1 : m / 10 ^ fd = v.floor := by
      rw [Decimal.floor, ← Nat.mul_div_mul_right m (10 ^ fd) hs, h, mul_comm (10 ^ fd),
        Nat.mul_div_mul_right _ _ (by positivity)]
    rw [pow_add, ← Nat.div_div_eq_div_mul, h1]

/-- The digits FRAC_DIGITS counts hold the value exactly. -/
theorem Decimal.exists_num (v : Decimal) : ∃ m : Nat, m * 10 ^ v.scale = v.coeff * 10 ^ v.fracDigits := by
  have : 10 ^ v.scale ∣ v.coeff * 10 ^ v.fracDigits := (stripZeros_le_iff _ _ _).1 (Nat.le_refl _)
  obtain ⟨m, hm⟩ := this
  exact ⟨m, by rw [hm, mul_comm]⟩

/-- DIGIT_AT depends on the value only (R70). -/
theorem Decimal.digitAt_congr {v w : Decimal} (h : |v.val| = |w.val|) (i : Int) : v.digitAt i = w.digitAt i := by
  obtain ⟨m, hm⟩ := Decimal.exists_num v
  have hw : m * 10 ^ w.scale = w.coeff * 10 ^ v.fracDigits := by
    rw [v.abs_val, w.abs_val] at h
    have hd : (10 ^ v.scale : ℚ) ≠ 0 := by positivity
    have hd2 : (10 ^ w.scale : ℚ) ≠ 0 := by positivity
    rw [div_eq_div_iff hd hd2] at h
    have h' : v.coeff * 10 ^ w.scale = w.coeff * 10 ^ v.scale := by exact_mod_cast h
    apply Nat.eq_of_mul_eq_mul_right (by positivity : 0 < 10 ^ v.scale)
    calc m * 10 ^ w.scale * 10 ^ v.scale = (m * 10 ^ v.scale) * 10 ^ w.scale := by ring
      _ = (v.coeff * 10 ^ w.scale) * 10 ^ v.fracDigits := by rw [hm]; ring
      _ = _ := by rw [h']; ring
  have key : ∀ fd k : Nat, v.digitAt ((k : Int) - fd) = w.digitAt ((k : Int) - fd) := by
    intro fd k
    have e : ∀ x : Decimal, m * 10 ^ x.scale = x.coeff * 10 ^ v.fracDigits →
        x.digitAt ((k : Int) - fd) = lastDigit (m * 10 ^ fd / 10 ^ (k + v.fracDigits)) := by
      intro x hx
      have := Decimal.digitAt_eq x (m * 10 ^ fd) (v.fracDigits + fd) (k + v.fracDigits)
        (by rw [pow_add, ← mul_assoc, ← hx]; ring)
      rw [← this]; congr 1; push_cast; ring
    rw [e v hm, e w hw]
  rcases Int.le_total 0 i with hi | hi
  · obtain ⟨k, rfl⟩ := Int.eq_ofNat_of_zero_le hi
    simpa using key 0 k
  · obtain ⟨k, hk⟩ := Int.eq_ofNat_of_zero_le (Int.neg_nonneg.2 hi)
    have : i = ((0 : Nat) : Int) - (k : Nat) := by omega
    rw [this]; exact key k 0

theorem Decimal.isNegative_congr {v w : Decimal} (h : v.val = w.val) : v.isNegative = w.isNegative := by
  rw [Bool.eq_iff_iff, v.isNegative_iff, w.isNegative_iff, h]

theorem Decimal.outOfRange_eq_false {v : Decimal} (h : |v.val| ≤ 999) : v.outOfRange = false := by
  cases hv : v.outOfRange
  · rfl
  · exact absurd ((v.outOfRange_iff).1 hv) (not_lt.2 h)

theorem Machine.Shown.glyphAt_congr {a b : Decimal} (h : |a.val| = |b.val|) (p : Params) (neg : Bool) (id fd k : Nat) :
    Shown.glyphAt ⟨a, id, fd⟩ p neg k = Shown.glyphAt ⟨b, id, fd⟩ p neg k := by
  simp only [Shown.glyphAt, Decimal.digitAt_congr h]; rfl

theorem Machine.Shown.frame_congr {a b : Decimal} (h : |a.val| = |b.val|) (p : Params) (neg : Bool) (ind : BitVec 2)
    (id fd : Nat) :
    Shown.frame ⟨a, id, fd⟩ p neg ind = Shown.frame ⟨b, id, fd⟩ p neg ind := by
  simp only [Shown.frame, Shown.glyphAt_congr h]; rfl

/-- The magnitude has `intDigits` integer digits (R71). -/
theorem Decimal.intDigits_abs (v : Decimal) :
    |v.val| < 10 ^ v.intDigits ∧ (1 < v.intDigits → 10 ^ (v.intDigits - 1) ≤ |v.val|) := by
  obtain ⟨h1, h2, h3, h4⟩ := v.intDigits_spec
  have hf := v.floor_abs_val
  constructor
  · have : ⌊|v.val|⌋ < ((10 ^ v.intDigits : Nat) : Int) := by rw [hf]; exact_mod_cast h2
    have := Int.floor_lt.1 this
    push_cast at this
    exact this
  · intro hk
    have h0 : v.floor ≠ 0 := fun h => by have := h3 h; omega
    have : ((10 ^ (v.intDigits - 1) : Nat) : Int) ≤ ⌊|v.val|⌋ := by rw [hf]; exact_mod_cast h4 h0
    have := Int.le_floor.1 this
    push_cast at this
    exact this

theorem Decimal.intDigits_le_three {v : Decimal} (h : |v.val| ≤ 999) : v.intDigits ≤ 3 := by
  by_contra hk
  have := (Decimal.intDigits_abs v).2 (by omega)
  have h2 : (10 : ℚ) ^ 3 ≤ 10 ^ (v.intDigits - 1) := pow_le_pow_right₀ (by norm_num) (by omega)
  norm_num at h2
  linarith

/-- Rounding carries exactly on the two ranges of R105, under either mode. -/
theorem carry_iff (mode : RoundMode) {v : Decimal} (h : |v.val| ≤ 999) :
    (3 < v.intDigits + v.fracDigits ∧ 1000 ≤ roundedNum mode v.abs (3 - v.intDigits)) ↔ carries v.val := by
  obtain ⟨hi1, -, -, -⟩ := v.intDigits_spec
  have hi3 := Decimal.intDigits_le_three h
  obtain ⟨hlt, hge⟩ := Decimal.intDigits_abs v
  obtain ⟨hr1, hr2⟩ := roundedNum_spec mode v.abs (3 - v.intDigits)
  rw [Decimal.abs_abs_val] at hr1 hr2
  set r := roundedNum mode v.abs (3 - v.intDigits) with hr
  have hr1' := abs_le.1 hr1
  have cast : 1000 ≤ r → (1000 : ℚ) ≤ r := fun hh => by exact_mod_cast hh
  have ncast : ¬ 1000 ≤ r → (r : ℚ) ≤ 999 := fun hh => by
    have : r ≤ 999 := by omega
    exact_mod_cast this
  -- tie
  have tie : ∀ x : ℚ, x = |v.val| * 10 ^ (3 - v.intDigits) → 999.5 ≤ x → 1000 ≤ r := by
    intro x hx hx1
    by_contra hh
    have h999 := ncast hh
    rw [← hx] at hr1 hr2 hr1'
    have hx2 : x = 999.5 ∧ (r : ℚ) = 999 := by constructor <;> linarith [hr1'.1, hr1'.2]
    have hr999 : r = 999 := by exact_mod_cast hx2.2
    have := hr2 (by rw [hx2.1, hx2.2]; norm_num [abs_of_neg])
    cases mode with
    | halfUp => have := this.1 rfl; rw [hx2.1, hx2.2] at this; norm_num at this
    | halfEven => have := this.2 rfl; omega
  have nofit : ∀ n : Nat, n = 3 - v.intDigits → 999 < |v.val| * 10 ^ n → |v.val| * 10 ^ n < 1000 →
      3 < v.intDigits + v.fracDigits := by
    intro n hn h1 h2
    by_contra hc
    obtain ⟨z, hz⟩ := (fitsIn_abs _ _).1 ((fitsIn_iff v n).2 (by omega))
    rw [hz] at h1 h2
    have : (999 : Int) < z := by exact_mod_cast h1
    have : z < (1000 : Int) := by exact_mod_cast h2
    omega
  unfold carries
  rcases (show v.intDigits = 1 ∨ v.intDigits = 2 ∨ v.intDigits = 3 by omega) with hid | hid | hid <;>
    simp only [hid] at hlt hge hr1' tie nofit hr1 ⊢ <;> norm_num at hlt hge hr1' tie nofit ⊢
  · constructor
    · rintro ⟨_, hc⟩; left; have := cast hc; constructor <;> linarith
    · rintro (⟨h1, h2⟩ | ⟨h1, h2⟩)
      · exact ⟨nofit (by linarith) (by linarith), tie (by linarith)⟩
      · linarith
  · constructor
    · rintro ⟨_, hc⟩; right; have := cast hc; constructor <;> linarith
    · rintro (⟨h1, h2⟩ | ⟨h1, h2⟩)
      · linarith
      · exact ⟨nofit (by linarith) (by linarith), tie (by linarith)⟩
  · constructor
    · rintro ⟨_, hc⟩; have := cast hc; linarith
    · rintro (⟨h1, h2⟩ | ⟨h1, h2⟩) <;> linarith

/-- What FMT_DECIMAL shows, for a value in range. -/
theorem shownDecimal_eq (mode : RoundMode) {v : Decimal} (h : |v.val| ≤ 999) :
    shownDecimal mode v =
      if 3 < v.intDigits + v.fracDigits then
        if 1000 ≤ roundedNum mode v.abs (3 - v.intDigits) then none
        else some ⟨⟨false, roundedNum mode v.abs (3 - v.intDigits), 3 - v.intDigits⟩, v.intDigits, 3 - v.intDigits⟩
      else some ⟨v.abs, v.intDigits, v.fracDigits⟩ := by
  have hi3 := Decimal.intDigits_le_three h
  have : 10 ^ v.intDigits * 10 ^ (3 - v.intDigits) = 1000 := by
    rw [← pow_add, show v.intDigits + (3 - v.intDigits) = 3 by omega]; norm_num
  simp only [shownDecimal, roundDec, this]

/-- The minus glyph. -/
theorem Params.symGlyph_minus (p : Params) : p.symGlyph 0x2D false = p.symMinus := by
  simp [Params.symGlyph, Params.withPoint, Params.symLookup, Params.sym]

theorem indicator_cases (ind : BitVec 2) : ind = 0 ∨ ind = 1 ∨ ind = 2 ∨ ind = 3 := by
  revert ind; decide

/-- The frame of a window, slot by slot, where `m / 10^fd` is the value shown (R103 steps 5 to 7). -/
theorem Machine.Shown.frame_spec (a : Decimal) (id fd m : Nat) (p : Params) (neg : Bool) (ind : BitVec 2) (hind : ind ≠ 3)
    (hm : m * 10 ^ a.scale = a.coeff * 10 ^ fd) :
    let f := Shown.frame ⟨a, id, fd⟩ p neg ind
    (∀ k < 3, slotGlyph f k =
        if k < id + fd then
          p.digitGlyph ⟨m / 10 ^ k % 10, Nat.mod_lt _ (by decide)⟩
            (match p.dpPlacement with
              | .rightmostInteger => decide (0 < fd ∧ k = fd)
              | .leftmostInteger => decide (0 < fd ∧ k + 1 = id + fd))
        else if k = id + fd ∧ neg = true then p.symMinus else 0x00) ∧
      (f.red = decide (neg = true ∧ id + fd = 3 ∧ ind = 0)) ∧
      (f.green = decide (neg = true ∧ id + fd = 3 ∧ ind = 1)) ∧
      (f.blue = decide (neg = true ∧ id + fd = 3 ∧ ind = 2)) := by
  intro f
  have hg : ∀ k < 3, slotGlyph f k = Shown.glyphAt ⟨a, id, fd⟩ p neg k := by
    intro k hk
    have : f = Shown.frame ⟨a, id, fd⟩ p neg ind := rfl
    rw [this, Shown.frame]
    rcases indicator_cases ind with rfl | rfl | rfl | rfl <;> split <;> interval_cases k <;> rfl
  refine ⟨fun k hk => ?_, ?_⟩
  · rw [hg k hk]
    simp only [Shown.glyphAt, Shown.size, Decimal.digitAt_eq a m fd k hm, Params.symGlyph_minus, lastDigit]
    rfl
  · have : f = Shown.frame ⟨a, id, fd⟩ p neg ind := rfl
    rw [this, Shown.frame, Shown.size]
    rcases indicator_cases ind with rfl | rfl | rfl | rfl
    · split <;> simp_all [Frame.setIndicator]
    · split <;> simp_all [Frame.setIndicator]
    · split <;> simp_all [Frame.setIndicator]
    · exact absurd rfl hind

end Sys2Proof
end

