-- ==== Sys2Proof/Laws/PerInstr.lean ====
section
/-! SUPPORT. Statements made per operation. -/

namespace Sys2Proof.Laws

open Sys2Proof

/-- Under any parameters, the operand bytes of a well-formed operation, read by the reader its selector names, give the operation back and
leave what follows them. -/
def OperandsReadBack.Statement (i : Instr) : Prop :=
  ∀ p : Params, i.wf p = true → ∀ rest : List Byte, readOperands p i.selector (i.operandBytes ++ rest) = .ok (i, rest)

namespace OperandsReadBack

theorem intDigits (v : Decimal) : Statement (.intDigits v) := fun p h rest => by
  simp [Instr.selector, Instr.operandBytes, readOperands, readDecimal_encodeDecimal (p := p) (v := v) h]
theorem fracDigits (v : Decimal) : Statement (.fracDigits v) := fun p h rest => by
  simp [Instr.selector, Instr.operandBytes, readOperands, readDecimal_encodeDecimal (p := p) (v := v) h]
theorem digitAt (v : Decimal) (i : Int) : Statement (.digitAt v i) := fun p h rest => by
  simp [Instr.selector, Instr.operandBytes, readOperands, readDecimal_encodeDecimal (p := p) (v := v) h]
theorem encDigit (d : BitVec 4) (point : Bool) : Statement (.encDigit d point) := fun _ _ rest => by
  simp [Instr.selector, Instr.operandBytes, readOperands, readBits_setWidth]
theorem encSymbol (c : CharCode) (point : Bool) : Statement (.encSymbol c point) := fun p h rest => by
  simp [Instr.selector, Instr.operandBytes, readOperands, readChar_encodeNat (p := p) (c := c) h]
theorem encRaw (raw : Byte) : Statement (.encRaw raw) := fun _ _ rest => by
  simp [Instr.selector, Instr.operandBytes, readOperands]
theorem frameNew (g2 g1 g0 : Glyph) (red green blue : Bool) : Statement (.frameNew g2 g1 g0 red green blue) :=
  fun _ _ rest => by simp [Instr.selector, Instr.operandBytes, readOperands]
theorem withStatus (f : Frame) (ind : BitVec 2) (value : Bool) : Statement (.withStatus f ind value) := fun _ _ rest => by
  simp [Instr.selector, Instr.operandBytes, readOperands, readBits_setWidth]
theorem withGlyph (f : Frame) (index : BitVec 2) (g : Glyph) : Statement (.withGlyph f index g) := fun _ _ rest => by
  simp [Instr.selector, Instr.operandBytes, readOperands, readBits_setWidth]
theorem withPushed (f : Frame) (g : Glyph) (fromLeft : Bool) : Statement (.withPushed f g fromLeft) := fun _ _ rest => by
  simp [Instr.selector, Instr.operandBytes, readOperands]
theorem fmtText (s : List CharCode) : Statement (.fmtText s) := fun p h rest => by
  simp [Instr.selector, Instr.operandBytes, readOperands, readText_encode (p := p) (s := s) h]
theorem fmtDecimal (v : Decimal) (ind : BitVec 2) : Statement (.fmtDecimal v ind) := fun p h rest => by
  simp [Instr.selector, Instr.operandBytes, readOperands, readDecimal_encodeDecimal (p := p) (v := v) h, readBits_setWidth]
theorem openPins (pins : PinIds) : Statement (.openPins pins) := fun _ _ rest => by
  simp [Instr.selector, Instr.operandBytes, readOperands]
theorem closePins : Statement .closePins := fun _ _ rest => by
  simp [Instr.selector, Instr.operandBytes, readOperands]
theorem writeBit (level : Level) : Statement (.writeBit level) := fun _ _ rest => by
  simp [Instr.selector, Instr.operandBytes, readOperands]
theorem writeByte (byte : Byte) : Statement (.writeByte byte) := fun _ _ rest => by
  simp [Instr.selector, Instr.operandBytes, readOperands]
theorem latch : Statement .latch := fun _ _ rest => by
  simp [Instr.selector, Instr.operandBytes, readOperands]
theorem writeFrame (f : Frame) : Statement (.writeFrame f) := fun _ _ rest => by
  simp [Instr.selector, Instr.operandBytes, readOperands]

end OperandsReadBack

end Sys2Proof.Laws
end

