-- ==== Sys2Proof/Tests/Slice0.lean ====
section
/-! SUPPORT. The implementer's own tests. Expected bytes come from spec/95_test_vectors.md and the examples of the rules;
`reftab` is its reference table, for tests only. The
`witness_` theorems each show that the hypotheses of one statement can be met together. -/

namespace Sys2Proof.Tests

open Sys2Proof Sys2Proof.Machine

/-! ### States -/

/-- REFTAB (95_test_vectors.md section 0). -/
def reftab : Params where
  digit := #v[0x3F, 0x06, 0x5B, 0x4F, 0x66, 0x6D, 0x7D, 0x07, 0x7F, 0x6F]
  symMinus := 0x40
  symQuestion := 0x53
  symOther := [(0x41, 0x77), (0x62, 0x7C), (0x43, 0x39), (0x63, 0x58), (0x64, 0x5E), (0x45, 0x79), (0x46, 0x71),
    (0x48, 0x76), (0x68, 0x74), (0x4C, 0x38), (0x6F, 0x5C), (0x50, 0x73), (0x55, 0x3E), (0x75, 0x1C)]
  pointBit := 7
  indOrder := .bgr
  dpPlacement := .rightmostInteger
  roundMode := .halfEven
  decMaxScale := 28
  decCoeffBits := 96
  charBits := 8
  srLen := 32
  tWaitMicros := 10
  failedEnableWrite := .keepsRegister

/-- The 32 stages that hold a word. -/
def word (x : BitVec 32) : List Bool := stagesOf x

/-- A launch state: Closed, REFTAB, the given register, and a backend that answers and drives as scripted. -/
def launch (sr q : BitVec 32) (answers : List Bool) (levels : List Level) : State where
  params := reftab
  life := .closed
  pinId := none
  pinOpen := PerPin.all false
  pinLevel := PerPin.all .low
  sr := word sr
  q := word q
  active := none
  commands := []
  results := []
  trace := []
  calls := []
  answers := ⟨answers, 0⟩
  levels := ⟨levels, 0⟩
  chains := ⟨[], 0⟩

/-- An open serializer with the given levels. -/
def opened (levels : PerPin Level) (sr q : BitVec 32) (answers : List Bool) : State :=
  { launch sr q answers [] with
    life := .opened
    pinId := some Config.defaultPins
    pinOpen := PerPin.all true
    pinLevel := levels }

/-- The last result of an outcome. -/
def lastResult : Host.Outcome State Fault Refusal → Option Status
  | .next s => s.results.getLast?
  | .fault _ => none
  | .refused _ => none

/-- The refusal of an outcome. -/
def refusalOf : Host.Outcome State Fault Refusal → Option Refusal
  | .next _ => none
  | .fault _ => none
  | .refused r => some r

/-- The state of an outcome, or the state given. -/
def stateOr (s : State) : Host.Outcome State Fault Refusal → State
  | .next t => t
  | .fault _ => s
  | .refused _ => s

/-- The outcome is a next state. -/
def isNext : Host.Outcome State Fault Refusal → Bool
  | .next _ => true
  | .fault _ => false
  | .refused _ => false

theorem eq_next {s : State} {o : Host.Outcome State Fault Refusal} (h : isNext o = true) : o = .next (stateOr s o) := by
  cases o <;> first | rfl | cases h

/-- A closed machine with REFTAB and nothing else. -/
def plain : State := launch 0 0 [] []

/-- Open and idle-low, every one of the next 400 requests succeeding. -/
def idle (sr q : BitVec 32) : State := opened (PerPin.all .low) sr q (List.replicate 400 true)

/-- Closed, REFTAB, every one of the next 400 requests succeeding. -/
def fresh : State := launch 0xDEADBEEF 0x12345678 (List.replicate 400 true) []

/-- The frame `1.23` with the Blue indicator (vector S18). -/
def shown : Frame := ⟨0x86, 0x5B, 0x4F, false, false, true⟩

/-- CLOCK high, the other pins low. -/
def clockHigh : PerPin Level := ⟨.low, .high, .low, .low⟩

/-- LATCH high, the other pins low. -/
def latchHigh : PerPin Level := ⟨.low, .low, .high, .low⟩

/-- The last result of an operation on a machine with REFTAB. -/
def resultOf (i : Instr) : Option Status := lastResult (exec i plain)

/-- The state after an operation that answers a next state. -/
def after (i : Instr) (s : State) : State := stateOr s (exec i s)

/-- A state whose host has issued one command. -/
def issued (c : List Byte) : State := { plain with commands := [c] }

/-- Scripted answers that all succeed. -/
theorem succeeds_of_script {s : State} {m : Nat} (h : s.answers = ⟨List.replicate m true, 0⟩) {n : Nat} (hn : n ≤ m) :
    s.succeeds n := by
  intro k hk
  rw [State.answer, h, Supply.peek_script _ _ _ _ (by simpa using (by omega : k < m))]
  simp

theorem fresh_succeeds {n : Nat} (h : n ≤ 400) : fresh.succeeds n := succeeds_of_script (m := 400) rfl h

theorem opened_succeeds (levels : PerPin Level) (sr q : BitVec 32) {n : Nat} (h : n ≤ 400) :
    (opened levels sr q (List.replicate 400 true)).succeeds n := succeeds_of_script (m := 400) rfl h

/-- REFTAB meets two of the hypotheses of 41_glyph_encoder.md R88. -/
theorem test_reftab : reftab.hPoint ∧ reftab.hDigit := by unfold Params.hPoint Params.hDigit; decide

/-! ### Decoding: the selector of each row of 30_encoding.md R58, written bit by bit -/

theorem test_decode_int_digits : decode reftab [0b00000000, 0, 12, 1] = .ok (.intDigits ⟨false, 12, 1⟩) := by decide
theorem test_decode_frac_digits : decode reftab [0b00000001, 1, 12, 1] = .ok (.fracDigits ⟨true, 12, 1⟩) := by decide
theorem test_decode_digit_at : decode reftab [0b00000010, 0, 12, 1, 1, 3] = .ok (.digitAt ⟨false, 12, 1⟩ (-3)) := by decide
theorem test_decode_enc_digit : decode reftab [0b00000011, 9, 1] = .ok (.encDigit 9 true) := by decide
theorem test_decode_enc_symbol : decode reftab [0b00000100, 0x41, 0] = .ok (.encSymbol 0x41 false) := by decide
theorem test_decode_enc_raw : decode reftab [0b00000101, 0xFF] = .ok (.encRaw 0xFF) := by decide
theorem test_decode_frame_new :
    decode reftab [0b00000110, 0x86, 0x5B, 0x4F, 0, 0, 1] = .ok (.frameNew 0x86 0x5B 0x4F false false true) := by decide
/-- R90, R55: operands left out, at the end of the command or by the byte 2. -/
theorem test_decode_defaults :
    decode reftab [0x06, 0x86, 0x5B, 0x4F] = .ok (.frameNew 0x86 0x5B 0x4F false false false) ∧
    decode reftab [0x06, 0x86, 0x5B, 0x4F, 2, 1] = .ok (.frameNew 0x86 0x5B 0x4F false true false) ∧
    decode reftab [0x03, 9] = .ok (.encDigit 9 false) ∧ decode reftab [0x0C, 0] = .ok (.openPins ⟨22, 23, 24, 25⟩) := by
  decide

theorem test_decode_with_status :
    decode reftab [0b00000111, 0x86, 0x5B, 0x4F, 0, 0, 1, 2, 1] = .ok (.withStatus shown 2 true) := by decide
theorem test_decode_with_glyph :
    decode reftab [0b00001000, 0x86, 0x5B, 0x4F, 0, 0, 1, 3, 0x40] = .ok (.withGlyph shown 3 0x40) := by decide
theorem test_decode_with_pushed :
    decode reftab [0b00001001, 0x86, 0x5B, 0x4F, 0, 0, 1, 0x66, 1] = .ok (.withPushed shown 0x66 true) := by decide
theorem test_decode_fmt_text : decode reftab [0b00001010, 2, 0x31, 0x2E] = .ok (.fmtText [0x31, 0x2E]) := by decide
theorem test_decode_fmt_decimal : decode reftab [0b00001011, 1, 123, 2, 2] = .ok (.fmtDecimal ⟨true, 123, 2⟩ 2) := by decide
theorem test_decode_open : decode reftab [0b00001100, 1, 1, 0x80, 1, 3, 4] = .ok (.openPins ⟨1, 128, 3, 4⟩) := by decide
theorem test_decode_close : decode reftab [0b00001101] = .ok .closePins := by decide
theorem test_decode_write_bit : decode reftab [0b00001110, 1] = .ok (.writeBit .high) := by decide
theorem test_decode_write_byte : decode reftab [0b00001111, 0x86] = .ok (.writeByte 0x86) := by decide
theorem test_decode_latch : decode reftab [0b00010000] = .ok .latch := by decide
theorem test_decode_write_frame :
    decode reftab [0b00010001, 0x86, 0x5B, 0x4F, 0, 0, 1] = .ok (.writeFrame shown) := by decide

/-- R59, first and last selector that name no operation. -/
theorem test_decode_unnamed : decode reftab [0b00010010] = .error (.unknownSelector 0x12) ∧
    decode reftab [0b00011111] = .error (.unknownSelector 0x1F) := by decide

/-- A missing operand, an operand too wide, bytes left over: refused by name. -/
theorem test_decode_malformed : decode reftab [] = .error .emptyCommand ∧ decode reftab [0x05] = .error .truncated ∧
    decode reftab [0x03, 16, 0] = .error .operandTooWide ∧ decode reftab [0x0D, 1] = .error .trailingBytes := by decide

/-! ### WellFormed smoke: the two bounds of R70 -/

theorem test_wf_bounds : (Instr.intDigits ⟨true, 2 ^ 96 - 1, 28⟩).wf reftab = true := by decide +kernel

/-- `coeff < 2^DEC_COEFF_BITS`: refused in each operation with a decimal operand. -/
theorem test_wf_coeff : (Instr.intDigits ⟨false, 2 ^ 96, 0⟩).wf reftab = false ∧ (Instr.fracDigits ⟨false, 2 ^ 96, 0⟩).wf reftab = false ∧
    (Instr.digitAt ⟨false, 2 ^ 96, 0⟩ 0).wf reftab = false ∧ (Instr.fmtDecimal ⟨false, 2 ^ 96, 0⟩ 0).wf reftab = false := by
  decide +kernel

/-- `scale ≤ DEC_MAX_SCALE`: refused in each operation with a decimal operand. -/
theorem test_wf_scale : (Instr.intDigits ⟨false, 1, 29⟩).wf reftab = false ∧ (Instr.fracDigits ⟨false, 1, 29⟩).wf reftab = false ∧
    (Instr.digitAt ⟨false, 1, 29⟩ 0).wf reftab = false ∧ (Instr.fmtDecimal ⟨false, 1, 29⟩ 0).wf reftab = false := by decide +kernel

/-- The decoder refuses what is not well formed. -/
theorem test_wf_decoder : decode reftab [0x00, 0, 1, 29] = .error .decimalTooWide ∧ decode reftab [0x00, 0, 1, 28] = .ok (.intDigits ⟨false, 1, 28⟩) := by
  decide

/-- `CHAR_BITS`: a character of eight bits is read, one of nine is not; with `CHAR_BITS` = 9 it is. -/
theorem test_wf_char : (Instr.encSymbol 0x100).wf reftab = false ∧ (Instr.fmtText [0x41, 0x100]).wf reftab = false ∧
    decode reftab [0x04, 0xFF, 1] = .ok (.encSymbol 0xFF) ∧ decode reftab [0x04, 0x80, 2] = .error .operandTooWide ∧
    decode { reftab with charBits := 9 } [0x04, 0x80, 2] = .ok (.encSymbol 0x100) := by decide

/-! ### Reset and fetch -/

/-- R23, R150. -/
theorem test_reset : State.reset.life = .closed ∧ State.reset.pinId = none ∧ State.reset.pinOpen = PerPin.all false := by
  decide

/-- R161: nothing issued, nothing runs. -/
theorem test_reset_runs_nothing : refusalOf (step State.reset) = some .runEnded := by decide

/-- The word of ENC_RAW as the first operation after reset: `EMPTY`. -/
theorem test_fetch_enc_raw : lastResult (step (State.reset.withFetchWord 8 0x05)) = some (.ok (.glyph 0x00)) := by decide

/-- The word of LATCH after reset: fetched, and refused by R120 since the serializer is closed. -/
theorem test_fetch_latch : refusalOf (step (State.reset.withFetchWord 8 0x10)) = some .notOpen := by decide

/-- R16: nothing runs after a failure inside OPEN. -/
theorem test_step_failed : refusalOf (step { issued [0x05, 0] with life := .failed }) = some .serializerFailed := by decide

/-! ### One step per operation; the vector is named in front -/

/-- A2, A5. -/
theorem test_int_digits : resultOf (.intDigits ⟨false, 9999, 3⟩) = some (.ok (.nat 1)) ∧
    resultOf (.intDigits ⟨false, 999, 0⟩) = some (.ok (.nat 3)) := by decide

/-- A8. -/
theorem test_int_digits_negative : refusalOf (exec (.intDigits ⟨true, 1, 0⟩) plain) = some .negativeOperand := by decide

/-- A11, A12. -/
theorem test_frac_digits : resultOf (.fracDigits ⟨false, 120, 2⟩) = some (.ok (.nat 1)) ∧
    resultOf (.fracDigits ⟨false, 12001, 4⟩) = some (.ok (.nat 4)) := by decide

/-- A15, A14. -/
theorem test_frac_digits_bounds : resultOf (.fracDigits ⟨false, 1, 28⟩) = some (.ok (.nat 28)) ∧
    resultOf (.fracDigits ⟨false, 0, 3⟩) = some (.ok (.nat 0)) := by decide +kernel

/-- A16, A18. -/
theorem test_digit_at : resultOf (.digitAt ⟨false, 12345, 2⟩ 2) = some (.ok (.nat 1)) ∧
    resultOf (.digitAt ⟨false, 12345, 2⟩ 3) = some (.ok (.nat 0)) := by decide

/-- A17. -/
theorem test_digit_at_fraction : resultOf (.digitAt ⟨false, 12345, 2⟩ (-2)) = some (.ok (.nat 5)) ∧
    resultOf (.digitAt ⟨false, 12345, 2⟩ (-3)) = some (.ok (.nat 0)) := by decide

/-- A22, A24. -/
theorem test_round_dec : roundedNum .halfEven ⟨false, 1225, 3⟩ 2 = 122 ∧ roundedNum .halfUp ⟨false, 1225, 3⟩ 2 = 123 ∧
    roundedNum .halfEven ⟨false, 5, 3⟩ 2 = 0 ∧ roundedNum .halfUp ⟨false, 5, 3⟩ 2 = 1 := by decide

/-- G2, G4. -/
theorem test_enc_digit : resultOf (.encDigit 1 true) = some (.ok (.glyph 0x86)) ∧
    resultOf (.encDigit 9 false) = some (.ok (.glyph 0x6F)) := by decide

/-- G5. -/
theorem test_enc_digit_illegal : resultOf (.encDigit 10 false) = some (.error (.invalidArgument (.digit 10))) := by decide

/-- G11, G12, G13: the third try, the second, the first. -/
theorem test_enc_symbol : resultOf (.encSymbol 0x42 false) = some (.ok (.glyph 0x7C)) ∧
    resultOf (.encSymbol 0x61 false) = some (.ok (.glyph 0x77)) ∧
    resultOf (.encSymbol 0x63 false) = some (.ok (.glyph 0x58)) := by decide

/-- G17, G7. -/
theorem test_enc_symbol_point : resultOf (.encSymbol 0x5A true) = some (.ok (.glyph 0xD3)) ∧
    resultOf (.encSymbol 0x20 true) = some (.ok (.glyph 0x80)) := by decide

/-- G21. -/
theorem test_enc_raw : resultOf (.encRaw 0xFF) = some (.ok (.glyph 0xFF)) := by decide

/-- The rule's own example (R90): `FRAME_NEW(EMPTY, EMPTY, ENC_DIGIT(0, 0))`. -/
theorem test_frame_new_defaults : resultOf (.frameNew emptyGlyph emptyGlyph 0x3F)
    = some (.ok (.frame ⟨0x00, 0x00, 0x3F, false, false, false⟩)) := by decide

/-- F2, and its wire word. -/
theorem test_frame_new : resultOf (.frameNew 0xFF 0xFF 0xFF true true true)
    = some (.ok (.frame ⟨0xFF, 0xFF, 0xFF, true, true, true⟩)) ∧
    Frame.wireWord .gbr ⟨0xFF, 0xFF, 0xFF, true, true, true⟩ = 0xFFFFFF07 := by decide

/-- F4, and its wire word in both orders. -/
theorem test_with_status : resultOf (.withStatus ⟨0x06, 0x5B, 0x4F, false, false, false⟩ 1 true)
    = some (.ok (.frame ⟨0x06, 0x5B, 0x4F, false, true, false⟩)) ∧
    Frame.wireWord .bgr ⟨0x06, 0x5B, 0x4F, false, true, false⟩ = 0x065B4F02 ∧
    Frame.wireWord .gbr ⟨0x06, 0x5B, 0x4F, false, true, false⟩ = 0x065B4F04 := by decide

/-- F7. -/
theorem test_with_status_illegal : resultOf (.withStatus shown 3 true)
    = some (.error (.invalidArgument (.indicator 3))) := by decide

/-- F8, F9. -/
theorem test_with_glyph : resultOf (.withGlyph shown 2 0x40) = some (.ok (.frame ⟨0x40, 0x5B, 0x4F, false, false, true⟩)) ∧
    resultOf (.withGlyph shown 0 0x40) = some (.ok (.frame ⟨0x86, 0x5B, 0x40, false, false, true⟩)) := by decide

/-- F10. -/
theorem test_with_glyph_illegal : resultOf (.withGlyph shown 3 0x40) = some (.error (.invalidArgument (.index 3))) := by
  decide

/-- F11, F12. -/
theorem test_with_pushed : resultOf (.withPushed shown 0x66 false) = some (.ok (.frame ⟨0x5B, 0x4F, 0x66, false, false, true⟩)) ∧
    resultOf (.withPushed shown 0x66 true) = some (.ok (.frame ⟨0x66, 0x86, 0x5B, false, false, true⟩)) := by decide

/-- T15, T5. -/
theorem test_fmt_text : resultOf (.fmtText [0x61, 0x2E, 0x2E, 0x62]) = some (.ok (.frame ⟨0xF7, 0x53, 0x7C, false, false, false⟩)) ∧
    resultOf (.fmtText [0x31, 0x32, 0x33, 0x34]) = some (.ok (.frame ⟨0x5B, 0x4F, 0x66, false, false, false⟩)) := by decide

/-- T6, T11. -/
theorem test_fmt_text_period : resultOf (.fmtText [0x31, 0x2E, 0x32]) = some (.ok (.frame ⟨0x00, 0x86, 0x5B, false, false, false⟩)) ∧
    resultOf (.fmtText [0x2E, 0x35]) = some (.ok (.frame ⟨0x00, 0x53, 0x6D, false, false, false⟩)) := by decide

/-- S18, D15v, D8v. -/
theorem test_fmt_decimal : resultOf (.fmtDecimal ⟨true, 123, 2⟩ 2) = some (.ok (.frame ⟨0x86, 0x5B, 0x4F, false, false, true⟩)) ∧
    resultOf (.fmtDecimal ⟨false, 123, 1⟩ 2) = some (.ok (.frame ⟨0x06, 0xDB, 0x4F, false, false, false⟩)) ∧
    resultOf (.fmtDecimal ⟨true, 12, 0⟩ 2) = some (.ok (.frame ⟨0x40, 0x06, 0x5B, false, false, false⟩)) := by decide

/-- D21v, D23v, D32v, D34v. -/
theorem test_fmt_decimal_edges : resultOf (.fmtDecimal ⟨false, 12001, 4⟩ 2) = some (.ok (.frame ⟨0x86, 0x5B, 0x3F, false, false, false⟩)) ∧
    resultOf (.fmtDecimal ⟨true, 1, 3⟩ 2) = some (.ok (.frame ⟨0xBF, 0x3F, 0x3F, false, false, true⟩)) ∧
    refusalOf (exec (.fmtDecimal ⟨false, 9995, 3⟩ 2) plain) = some .roundingCarry ∧
    resultOf (.fmtDecimal ⟨false, 9994, 1⟩ 2) = some (.error (.invalidArgument (.decimal ⟨false, 9994, 1⟩))) := by decide

/-- W13. -/
theorem test_open : (after (.openPins Config.defaultPins) fresh).trace =
      [.openReq .data, .openReq .clock, .openReq .latch, .openReq .enable, .writeReq .enable .low] ∧
    (after (.openPins Config.defaultPins) fresh).life = .opened ∧
    (after (.openPins Config.defaultPins) fresh).pinOpen = PerPin.all true ∧
    (after (.openPins Config.defaultPins) fresh).sr = word 0xDEADBEEF := by decide +kernel

/-- W19, W14, W15. -/
theorem test_open_failures :
    (after (.openPins Config.defaultPins) (launch 0 0 [true, true, false] [])).pinOpen = ⟨true, true, false, false⟩ ∧
    resultOf (.openPins ⟨22, 22, 24, 25⟩) = some (.error (.invalidArgument (.pins ⟨22, 22, 24, 25⟩))) ∧
    refusalOf (exec (.openPins Config.defaultPins) (idle 0 0)) = some .notClosed := by decide +kernel

/-- W16, W17. -/
theorem test_close : (after .closePins (idle 1 2)).trace =
      [.writeReq .enable .high, .closeReq .data, .closeReq .clock, .closeReq .latch, .closeReq .enable] ∧
    (after .closePins (idle 1 2)).life = .closed ∧ (after .closePins (idle 1 2)).q = word 2 ∧
    (after .closePins plain).trace = [] := by decide +kernel

/-- R112, D24: CLOSE after a failure. -/
theorem test_close_failed : refusalOf (exec .closePins { plain with life := .failed }) = some .closeAfterFailure := by decide

/-- W1, W9. -/
theorem test_write_bit : (after (.writeBit .high) (idle 0x80000001 7)).sr = word 0x00000003 ∧
    (after (.writeBit .high) (idle 0x80000001 7)).q = word 7 ∧
    (after (.writeBit .high) (opened clockHigh 0 0 (List.replicate 400 true))).sr = word 0 := by decide +kernel

/-- W12. -/
theorem test_write_bit_closed : refusalOf (exec (.writeBit .high) plain) = some .notOpen := by decide

/-- W3, and the last line of W4. -/
theorem test_write_byte : (after (.writeByte 0x86) (idle 0 0)).sr = word 0x86 ∧
    (after (.writeByte 0x86) (idle 0 0)).trace.length = 48 ∧
    (after (.writeByte 0x4F) (idle 0xFFFF865B 0)).sr = word 0xFF865B4F := by decide +kernel

/-- W5, W10. -/
theorem test_latch : (after .latch (idle 0x40865B00 0x12345678)).q = word 0x40865B00 ∧
    (after .latch (opened latchHigh 0x11111111 0x22222222 (List.replicate 400 true))).q = word 0x22222222 ∧
    (after .latch (opened latchHigh 0x11111111 0x22222222 (List.replicate 400 true))).pinLevel.latch = .low := by
  decide +kernel

/-- W6. -/
theorem test_write_frame : (after (.writeFrame shown) (idle 0xDEADBEEF 0)).sr = word 0x865B4F04 ∧
    (after (.writeFrame shown) (idle 0xDEADBEEF 0)).q = word 0x865B4F04 ∧
    (after (.writeFrame shown) (idle 0xDEADBEEF 0)).trace.length = 196 := by decide +kernel

/-- W18: the tenth pin write fails. -/
theorem test_write_frame_failure :
    let t := after (.writeFrame shown) (opened (PerPin.all .low) 0 0 (List.replicate 9 true ++ [false]))
    t.results = [.error (.hardwareIO (.writeReq .data .low))] ∧ t.life = .opened ∧ t.pinLevel.clock = .low ∧
      t.trace.length = 19 := by decide +kernel

/-- `SR_LEN` = 40: after a frame the old low byte stands above the wire word (R36, D23 "old bits would survive"). -/
theorem test_longer_chain :
    (after (.writeFrame shown) { idle 0 0 with params := { reftab with srLen := 40 }, sr := stagesOf (0xA5 : BitVec 40) }).sr
      = stagesOf (0xA5865B4F04 : BitVec 40) := by decide +kernel

/-- R39 against R136: the failed ENABLE write of CLOSE, by the parameter (log entry 18). -/
theorem test_failed_enable_write :
    let s := opened (PerPin.all .low) 1 2 [false]
    (after .closePins s).sr = word 1 ∧
    (after .closePins { s with params := { reftab with failedEnableWrite := .losesRegister },
                               chains := ⟨word 7 ++ word 8, 0⟩ }).q = word 8 := by decide +kernel

/-! ### Witnesses: the hypotheses of each statement hold together somewhere -/

theorem witness_DecodeEncodeAgree : (Instr.digitAt ⟨true, 2 ^ 96 - 1, 28⟩ (-1000)).wf reftab = true := by decide +kernel

theorem witness_DecodedOperationsAreWellFormed : decode reftab [0x0B, 1, 123, 28, 2] = .ok (.fmtDecimal ⟨true, 123, 28⟩ 2) := by decide

theorem witness_UnnamedSelectorsRefused : (issued [0x12]).active = none ∧ (issued [0x12]).life ≠ .failed ∧
    (issued [0x12]).commands = [[0x12]] ∧ (issued [0xFF, 7]).commands = [[0xFF, 7]] ∧
    0x12 ≤ (0x12 : Byte).toNat % 32 ∧ 0x12 ≤ (0xFF : Byte).toNat % 32 := by decide

theorem witness_StepRunsTheDecodedOperation : (issued [0x05, 7]).active = none ∧ (issued [0x05, 7]).life ≠ .failed ∧
    (issued [0x05, 7]).commands = [[0x05, 7]] ∧ decode reftab [0x05, 7] = .ok (.encRaw 7) := by decide

theorem witness_StepRefusesWhenNothingMayRun : { plain with active := some ⟨.latch, 1⟩ }.active ≠ none ∧
    ({ plain with life := .failed }.active = none ∧ { plain with life := .failed }.life = .failed) ∧
    (plain.active = none ∧ plain.life ≠ .failed ∧ plain.commands = []) := by decide

theorem witness_IntDigitsCountsTheIntegerPart : 0 ≤ (⟨true, 0, 28⟩ : Decimal).val ∧ 0 ≤ (⟨false, 999, 3⟩ : Decimal).val ∧
    ⌊(⟨false, 999, 3⟩ : Decimal).val⌋ = 0 ∧ 0 ≤ (⟨false, 10, 0⟩ : Decimal).val ∧ ⌊(⟨false, 10, 0⟩ : Decimal).val⌋ ≠ 0 := by
  norm_num [Decimal.val, Int.floor_eq_zero_iff]

theorem witness_FracDigitsIsTheLeastExactScale : 0 ≤ (⟨false, 12001, 4⟩ : Decimal).val := by norm_num [Decimal.val]

theorem witness_DigitAtReadsTheDecimalExpansion :
    0 ≤ (⟨false, 12345, 2⟩ : Decimal).val ∧ (0 : Int) ≤ 0 ∧ (-1 : Int) < 0 := by norm_num [Decimal.val]

theorem witness_NegativeOperandsRefused : (⟨true, 1, 28⟩ : Decimal).val < 0 := by norm_num [Decimal.val]

theorem witness_DecimalOperationsDependOnTheValueOnly : (⟨true, 999, 0⟩ : Decimal).val = (⟨true, 9990, 1⟩ : Decimal).val ∧
    |(⟨true, 999, 0⟩ : Decimal).val| ≤ 999 := by norm_num [Decimal.val]

theorem witness_SourceDigitProperties : (1 : Nat) ≤ 28 ∧ 28 ≤ 28 := by decide

theorem witness_RoundDecIsNearest : 0 ≤ (⟨false, 1225, 3⟩ : Decimal).val ∧
    |((122 : Nat) : ℚ) - (⟨false, 1225, 3⟩ : Decimal).val * 10 ^ 2| = 1 / 2 := by
  norm_num [Decimal.val, abs_of_neg]

theorem witness_EncDigitReadsTheDigitTable : (9 : BitVec 4).toNat < 10 ∧ 10 ≤ (10 : BitVec 4).toNat := by decide

theorem witness_SingleCaseLettersIgnoreCase : upper 0x61 ≠ lower 0x61 ∧
    (reftab.sym (upper 0x61)).isSome ≠ (reftab.sym (lower 0x61)).isSome := by decide

theorem witness_WithStatusSetsOneIndicator : (2 : BitVec 2) ≠ 3 ∧ (0 : BitVec 2) ≠ 3 := by decide

theorem witness_WithGlyphReplacesOneSlot : (2 : BitVec 2) ≠ 3 ∧ (0 : BitVec 2) ≠ 3 := by decide

theorem witness_TokensFoldPeriods : ([] : List CharCode).head? ≠ some 0x2E ∧ [(0x41 : CharCode)].head? ≠ some 0x2E := by decide

theorem witness_FmtDecimalRejectsBeforeFormatting : (2 : BitVec 2) ≠ 3 ∧ 999 < |(⟨true, 9990001, 4⟩ : Decimal).val| :=
  ⟨by decide, by norm_num [Decimal.val]⟩

theorem witness_FmtDecimalRefusedExactlyOnCarry : (0 : BitVec 2) ≠ 3 ∧
    |(⟨true, 9995, 3⟩ : Decimal).val| ≤ 999 ∧ carries (⟨true, 9995, 3⟩ : Decimal).val ∧
    |(⟨false, 9995, 2⟩ : Decimal).val| ≤ 999 ∧ carries (⟨false, 9995, 2⟩ : Decimal).val ∧
    |(⟨false, 999, 0⟩ : Decimal).val| ≤ 999 ∧ ¬ carries (⟨false, 999, 0⟩ : Decimal).val :=
  ⟨by decide, by norm_num [Decimal.val, carries]⟩

theorem witness_FmtDecimalShowsTheRoundedValue : (2 : BitVec 2) ≠ 3 ∧ |(⟨true, 9994, 3⟩ : Decimal).val| ≤ 999 ∧
    ¬ carries (⟨true, 9994, 3⟩ : Decimal).val ∧ |(⟨false, 9985, 1⟩ : Decimal).val| ≤ 999 ∧
    ¬ carries (⟨false, 9985, 1⟩ : Decimal).val := ⟨by decide, by norm_num [Decimal.val, carries]⟩

theorem witness_ZeroShowsASingleDigit : (⟨true, 0, 2⟩ : Decimal).val = 0 ∧ (2 : BitVec 2) ≠ 3 :=
  ⟨by norm_num [Decimal.val], by decide⟩

theorem witness_SourceFormatExamples : 999 < |(⟨true, 1000, 0⟩ : Decimal).val| := by norm_num [Decimal.val]

theorem witness_PureAndRejectedOperationsTouchNothing : (Instr.encRaw 7).isPure = true ∧
    exec (.encRaw 7) plain = .next (after (.encRaw 7) plain) ∧
    exec (.openPins ⟨1, 1, 2, 3⟩) plain = .next (after (.openPins ⟨1, 1, 2, 3⟩) plain) ∧
    (after (.openPins ⟨1, 1, 2, 3⟩) plain).results = plain.results ++ [.error (.invalidArgument (.pins ⟨1, 1, 2, 3⟩))] :=
  ⟨rfl, eq_next (by decide), eq_next (by decide), by decide⟩

theorem witness_InvalidOperationIsNeverRaised : exec (.encRaw 7) plain = .next (after (.encRaw 7) plain) ∧
    isWriteOp .latch = true ∧ plain.life = .closed ∧ (idle 0 0).life = .opened :=
  ⟨eq_next (by decide), rfl, rfl, rfl⟩

theorem witness_ParametersNeverChange : step (issued [0x05, 7]) = .next (stateOr plain (step (issued [0x05, 7]))) :=
  eq_next (by decide)

theorem witness_OpenOpensTheSerializer :
    fresh.life = .closed ∧ Config.defaultPins.distinct = true ∧ fresh.succeeds 5 :=
  ⟨rfl, rfl, fresh_succeeds (by decide)⟩

theorem witness_OpenLeavesTheLevelsFree :
    fresh.life = .closed ∧ Config.defaultPins.distinct = true ∧ fresh.succeeds 5 :=
  ⟨rfl, rfl, fresh_succeeds (by decide)⟩

/-- The first and the last request of OPEN. -/
theorem witness_OpenFailsAtTheFirstFailingRequest :
    let s := launch 0 0 [false] []
    let t := launch 0 0 [true, true, true, true, false] []
    (s.life = .closed ∧ s.pinOpen = PerPin.all false ∧ openTrace[0]? = some (.openReq .data) ∧ s.answer 0 = false) ∧
      (t.life = .closed ∧ t.pinOpen = PerPin.all false ∧ openTrace[4]? = some (.writeReq .enable .low) ∧
        (∀ k < 4, t.answer k = true) ∧ t.answer 4 = false) := by
  decide +kernel

theorem witness_CloseReleasesThePins :
    (idle 0 0).life = .opened ∧ (idle 0 0).pinId = some Config.defaultPins ∧ (idle 0 0).succeeds 5 :=
  ⟨rfl, rfl, opened_succeeds _ _ _ (by decide)⟩

/-- The first and the last request of CLOSE. -/
theorem witness_CloseFailsAtTheFirstFailingRequest :
    let s := opened (PerPin.all .low) 0 0 [false]
    let t := opened (PerPin.all .low) 0 0 [true, true, true, true, false]
    (s.life = .opened ∧ s.pinOpen = PerPin.all true ∧ s.pinId = some Config.defaultPins ∧
        closeTrace[0]? = some (.writeReq .enable .high) ∧ s.answer 0 = false) ∧
      (t.life = .opened ∧ t.pinOpen = PerPin.all true ∧ t.pinId = some Config.defaultPins ∧
        closeTrace[4]? = some (.closeReq .enable) ∧ (∀ k < 4, t.answer k = true) ∧ t.answer 4 = false) := by
  decide +kernel

theorem witness_LifecycleMisuse : isWriteOp .latch = true ∧ plain.life ≠ .opened ∧ (idle 0 0).life ≠ .closed ∧
    plain.life = .closed ∧ { plain with life := .failed }.life = .failed ∧ PinIds.distinct ⟨22, 22, 24, 25⟩ = false := by decide

theorem witness_WriteBitShiftsOneBit :
    ((idle 0 0).life = .opened ∧ (idle 0 0).pinId = some Config.defaultPins ∧ (idle 0 0).succeeds 3) ∧
    (opened clockHigh 0 0 (List.replicate 400 true)).succeeds 3 ∧
    (opened clockHigh 0 0 (List.replicate 400 true)).life = .opened :=
  ⟨⟨rfl, rfl, opened_succeeds _ _ _ (by decide)⟩, opened_succeeds _ _ _ (by decide), rfl⟩

theorem witness_WriteByteShiftsEightBits :
    (idle 0 0).life = .opened ∧ (idle 0 0).pinId = some Config.defaultPins ∧ (idle 0 0).succeeds 24 :=
  ⟨rfl, rfl, opened_succeeds _ _ _ (by decide)⟩

theorem witness_LatchCopiesTheChain :
    ((idle 0 0).life = .opened ∧ (idle 0 0).pinId = some Config.defaultPins ∧ (idle 0 0).succeeds 2) ∧
    (opened latchHigh 0 0 (List.replicate 400 true)).succeeds 2 ∧
    (opened latchHigh 0 0 (List.replicate 400 true)).life = .opened :=
  ⟨⟨rfl, rfl, opened_succeeds _ _ _ (by decide)⟩, opened_succeeds _ _ _ (by decide), rfl⟩

/-- From idle-low, from CLOCK high and from LATCH high. -/
theorem witness_WriteFramePutsTheWireWord : ∀ levels ∈ [PerPin.all .low, clockHigh, latchHigh],
    let s := opened levels 0 0 (List.replicate 400 true)
    s.life = .opened ∧ s.pinId = some Config.defaultPins ∧ s.succeeds 98 ∧ s.pinLevel = levels ∧ s.params.srLen = 32 ∧
      clockHigh.clock = .high ∧ latchHigh.latch = .high := fun _ _ =>
  ⟨rfl, rfl, opened_succeeds _ _ _ (by decide), rfl, rfl, rfl, rfl⟩

/-- LATCH whose second request fails. -/
theorem witness_FailedWriteStopsThere :
    let s := opened (PerPin.all .low) 0 0 [true, false]
    isWriteOp .latch = true ∧ s.life = .opened ∧ s.pinId = some Config.defaultPins ∧
      tracePlan s.params.indOrder .latch =
        [.writeReq .latch .high, .wait] ++ (.writeReq .latch .low) :: [.wait] ∧
      (PinEvent.writeReq .latch .low).isRequest = true ∧
      (∀ k < requestCount [.writeReq .latch .high, .wait], s.answer k = true) ∧
      s.answer (requestCount [.writeReq .latch .high, .wait]) = false := by
  decide +kernel

/-- LATCH whose second request fails; OPEN and CLOSE whose ENABLE write fails, under R39's reading. -/
theorem witness_FailedWriteLeavesTheRegisterFree :
    let s := opened (PerPin.all .low) 0 0 [true, false]
    let p : Params := { reftab with failedEnableWrite := .losesRegister }
    let t := { launch 0 0 [true, true, true, true, false] [] with params := p }
    let u := { opened (PerPin.all .low) 0 0 [false] with params := p }
    (isWriteOp .latch = true ∧ s.life = .opened ∧ (word 5).length = s.params.srLen ∧
      tracePlan s.params.indOrder .latch =
        [.writeReq .latch .high, .wait] ++ (.writeReq .latch .low) :: [.wait] ∧
      (PinEvent.writeReq .latch .low).role = some .latch ∧
      (∀ k < requestCount [.writeReq .latch .high, .wait], s.answer k = true) ∧
      s.answer (requestCount [.writeReq .latch .high, .wait]) = false) ∧
    (t.life = .closed ∧ Config.defaultPins.distinct = true ∧ t.params.failedEnableWrite = .losesRegister ∧
      (word 5).length = t.params.srLen ∧ (∀ k < 4, t.answer k = true) ∧ t.answer 4 = false) ∧
    (u.life = .opened ∧ u.params.failedEnableWrite = .losesRegister ∧ (word 5).length = u.params.srLen ∧
      u.answer 0 = false) := by
  decide +kernel

theorem witness_OperationsRunToTheirEndOrFirstFailure : Instr.isPure .latch = false ∧
    exec .latch (idle 3 4) = .next (after .latch (idle 3 4)) := ⟨rfl, eq_next (by decide +kernel)⟩

theorem witness_IdleLowIsKept :
    (exec (.writeBit .high) (idle 3 4) = .next (after (.writeBit .high) (idle 3 4)) ∧
      (after (.writeBit .high) (idle 3 4)).results = [.ok .none]) ∧
    (exec .latch (idle 3 4) = .next (after .latch (idle 3 4)) ∧ (after .latch (idle 3 4)).results = [.ok .none]) ∧
    ((idle 3 4).pinLevel.clock = .low ∧ (idle 3 4).pinLevel.latch = .low) ∧
    (after (.writeBit .high) (opened (PerPin.all .low) 0 0 [false])).results =
      [.error (.hardwareIO (.writeReq .data .high))] :=
  ⟨⟨eq_next (by decide +kernel), by decide +kernel⟩, ⟨eq_next (by decide +kernel), by decide +kernel⟩, ⟨rfl, rfl⟩,
    by decide +kernel⟩

theorem witness_SecondFrameIsExact : (opened clockHigh 0 0 (List.replicate 400 true)).life = .opened ∧
    (opened clockHigh 0 0 (List.replicate 400 true)).succeeds 196 ∧
    (opened clockHigh 0 0 (List.replicate 400 true)).pinLevel.enable = .low ∧
    (opened clockHigh 0 0 (List.replicate 400 true)).params.srLen ≤ 32 :=
  ⟨rfl, opened_succeeds _ _ _ (by decide), rfl, by decide⟩

theorem witness_FrameByHandEqualsWriteFrame : (idle 0 0).life = .opened ∧ (idle 0 0).succeeds 98 :=
  ⟨rfl, opened_succeeds _ _ _ (by decide)⟩

theorem witness_SessionShowsTheFrame :
    fresh.life = .closed ∧ Config.defaultPins.distinct = true ∧ fresh.succeeds 206 ∧ fresh.params.srLen = 32 :=
  ⟨rfl, rfl, fresh_succeeds (by decide), rfl⟩

theorem witness_EnableIsTouchedByOpenAndCloseOnly :
    exec .latch (idle 3 4) = .next (after .latch (idle 3 4)) ∧
    (exec (.openPins Config.defaultPins) fresh = .next (after (.openPins Config.defaultPins) fresh) ∧
      (after (.openPins Config.defaultPins) fresh).life = .opened ∧
      (after (.openPins Config.defaultPins) fresh).results ≠ [.error (.hardwareIO (.writeReq .enable .low))]) ∧
    (exec .closePins (idle 3 4) = .next (after .closePins (idle 3 4)) ∧ (idle 3 4).life = .opened ∧
      (after .closePins (idle 3 4)).results ≠ [.error (.hardwareIO (.writeReq .enable .high))]) ∧
    (fresh.params.failedEnableWrite = .keepsRegister ∧ (idle 3 4).params.failedEnableWrite = .keepsRegister) :=
  ⟨eq_next (by decide +kernel), ⟨eq_next (by decide +kernel), by decide +kernel⟩,
    ⟨eq_next (by decide +kernel), rfl, by decide +kernel⟩, rfl, rfl⟩

theorem witness_OutputsChangeOnlyAtTheLatchPulse :
    (exec (.writeBit .high) (idle 3 4) = .next (after (.writeBit .high) (idle 3 4)) ∧
      (after (.writeBit .high) (idle 3 4)).results = [.ok .none]) ∧ (idle 3 4).succeeds 96 :=
  ⟨⟨eq_next (by decide +kernel), by decide +kernel⟩, opened_succeeds _ _ _ (by decide)⟩

theorem witness_EventLevelReachesTheOperationResult : (isWriteOp .latch = true ∧ (idle 0 0).life = .opened) ∧
    (plain.life = .closed ∧ Config.defaultPins.distinct = true) := by decide

theorem witness_EarlierLevelsDoNotShapeTheTrace : exec .latch (idle 3 4) = .next (after .latch (idle 3 4)) ∧
    (idle 3 4).pinLevel.get .clock = .low ∧ (opened clockHigh 0 0 []).pinLevel.get .clock = .high :=
  ⟨eq_next (by decide +kernel), rfl, rfl⟩

theorem witness_EnvironmentIsNeverRead : exec .latch plain = .refused .notOpen ∧
    exec .latch (idle 3 4) = .next (after .latch (idle 3 4)) := ⟨rfl, eq_next (by decide +kernel)⟩

/-- An open machine whose host has issued LATCH meets the invariant and steps. -/
theorem witness_EveryStepKeepsTheInvariant :
    { idle 3 4 with commands := [[0x10]] }.Inv ∧
      step { idle 3 4 with commands := [[0x10]] } =
        .next (stateOr plain (step { idle 3 4 with commands := [[0x10]] })) :=
  ⟨⟨rfl, fun ids h => by cases h; rfl, ⟨rfl, rfl, by decide⟩, rfl, rfl⟩, eq_next (by decide +kernel)⟩

theorem witness_WritesGoToOpenPins :
    { idle 3 4 with commands := [[0x10]] }.Inv ∧
      step { idle 3 4 with commands := [[0x10]] } =
        .next (stateOr plain (step { idle 3 4 with commands := [[0x10]] })) :=
  witness_EveryStepKeepsTheInvariant

end Sys2Proof.Tests
end

namespace Sys2Proof

theorem PerPin.set_get_self {α : Type} (x : PerPin α) (p : PinRole) : x.set p (x.get p) = x := by cases p <;> rfl

end Sys2Proof

namespace Sys2Proof.Machine

open Sys2Proof

/-! ### What a run depends on (20_memory.md R34, R35)

An operation decides what to do by the parameters, `life`, the identifiers and the backend's answers. States that agree
in these, and in what the host and the backend have seen, keep agreeing, whatever the pin levels and the register. -/

/-- `s` and `u` agree in everything an operation decides by and in everything the host and the backend have seen. -/
structure State.SameRun (s u : State) : Prop where
  params : u.params = s.params
  life : u.life = s.life
  pinId : u.pinId = s.pinId
  answers : u.answers = s.answers
  results : u.results = s.results
  trace : u.trace = s.trace
  calls : u.calls = s.calls

/-- What the end of an operation makes of `life` depends on `life` alone. -/
theorem State.finishPlan_life_congr {s u : State} (h : u.life = s.life) (i : Instr) :
    (u.finishPlan i).life = (s.finishPlan i).life := by
  cases i <;> first | rfl | exact h

/-- What a failing request makes of `life` depends on `life` alone. -/
theorem State.abandonPlan_life_congr {s u : State} (h : u.life = s.life) (i : Instr) (e : PinEvent) :
    (u.abandonPlan i e).life = (s.abandonPlan i e).life := by
  cases i <;> simp [State.abandonPlan, State.openFailed, State.closeFailed, State.writeFailed, h]

/-- OPEN sets the identifiers from its operand, every other operation leaves them (R111). -/
theorem State.prepare_pinId_congr {s u : State} (h : u.pinId = s.pinId) (i : Instr) :
    (u.prepare i).pinId = (s.prepare i).pinId := by
  cases i <;> first | rfl | exact h

namespace State.SameRun
variable {s u : State} (h : s.SameRun u)
include h

theorem prepare (i : Instr) : (s.prepare i).SameRun (u.prepare i) where
  params := by simp [h.params]
  life := by simp [h.life]
  pinId := State.prepare_pinId_congr h.pinId i
  answers := by simp [h.answers]
  results := by simp [h.results]
  trace := by simp [h.trace]
  calls := by simp [h.calls]

theorem beginOp (i : Instr) : (s.beginOp i).SameRun (u.beginOp i) := { h with }

theorem endOp : s.endOp.SameRun u.endOp := { h with }

theorem complete (v : Value) : (s.complete v).SameRun (u.complete v) :=
  { h with results := by simp [h.results] }

theorem raise (e : OpError) : (s.raise e).SameRun (u.raise e) :=
  { h with results := by simp [h.results] }

theorem okRun (plan : List PinEvent) : (s.okRun plan).SameRun (u.okRun plan) where
  params := by simp [h.params]
  life := by simp [h.life]
  pinId := by simp [h.pinId]
  answers := by simp [State.okRun_answers, h.answers]
  results := by simp [h.results]
  trace := by simp [h.trace]
  calls := by simp [State.okRun_calls, h.calls, h.pinId]

theorem badStep {e : PinEvent} (he : e.isRequest = true) : (s.badStep e).SameRun (u.badStep e) where
  params := by simp [h.params]
  life := by simp [h.life]
  pinId := by simp [h.pinId]
  answers := by simp [State.badStep_answers _ _ he, h.answers]
  results := by simp [h.results]
  trace := by simp [h.trace]
  calls := by simp [h.calls, h.pinId]

theorem finishPlan (i : Instr) : (s.finishPlan i).SameRun (u.finishPlan i) where
  params := by simp [h.params]
  life := State.finishPlan_life_congr h.life i
  pinId := by simp [h.pinId]
  answers := by simp [h.answers]
  results := by simp [h.results]
  trace := by simp [h.trace]
  calls := by simp [h.calls]

theorem abandonPlan (i : Instr) (e : PinEvent) : (s.abandonPlan i e).SameRun (u.abandonPlan i e) where
  params := by simp [h.params]
  life := State.abandonPlan_life_congr h.life i e
  pinId := by simp [h.pinId]
  answers := by simp [h.answers]
  results := by simp [h.results]
  trace := by simp [h.trace]
  calls := by simp [h.calls]

/-- A trace ends the same way from both states: by the same answers it completes in both, or the same request fails. -/
theorem operate (i : Instr) (plan : List PinEvent) :
    (s.operate i plan (·.finishPlan i) (·.abandonPlan i ·)).SameRun
      (u.operate i plan (·.finishPlan i) (·.abandonPlan i ·)) := by
  have succeeds (n : Nat) : u.succeeds n ↔ s.succeeds n := State.succeeds_congr h.answers n
  have answer (k : Nat) : u.answer k = s.answer k := by simp [State.answer, h.answers]
  rcases s.operate_cases i plan (·.finishPlan i) (·.abandonPlan i ·) with
    ⟨hs, ht⟩ | ⟨before, e, after, rfl, he, hs, hb, ht⟩
  · rw [ht, State.operate_ok ((succeeds _).2 hs)]
    exact (((h.beginOp i).okRun plan).finishPlan i).endOp.complete .none
  · rw [ht, State.operate_bad ((succeeds _).2 hs) he (by rw [answer, hb])]
    exact ((((h.beginOp i).okRun before).badStep he).abandonPlan i e).endOp.raise _

theorem runsTrace {i : Instr} (hr : Machine.runsTrace s i) : Machine.runsTrace u i := by
  cases i <;> simpa [Machine.runsTrace, h.life] using hr

end State.SameRun

/-- What a pure operation answers from `s` and from `u`, when it answers the same: the same refusal, value or error. -/
inductive SameAnswer (s u : State) : Host.Outcome State Fault Refusal → Host.Outcome State Fault Refusal → Prop
  | refused (r : Refusal) : SameAnswer s u (.refused r) (.refused r)
  | complete (v : Value) : SameAnswer s u (.next (s.complete v)) (.next (u.complete v))
  | raise (e : OpError) : SameAnswer s u (.next (s.raise e)) (.next (u.raise e))

theorem SameAnswer.ite {s u : State} {c : Prop} [Decidable c] {a b a' b' : Host.Outcome State Fault Refusal}
    (ha : SameAnswer s u a a') (hb : SameAnswer s u b b') :
    SameAnswer s u (if c then a else b) (if c then a' else b') := by
  split
  · exact ha
  · exact hb

/-- A pure operation reads the parameters and nothing else of the state. -/
theorem exec_pure_sameAnswer {i : Instr} (hi : i.isPure = true) {s u : State} (hp : u.params = s.params) :
    SameAnswer s u (exec i s) (exec i u) := by
  cases i with
  | intDigits v => exact .ite (.refused _) (.complete _)
  | fracDigits v => exact .ite (.refused _) (.complete _)
  | digitAt v k => exact .ite (.refused _) (.complete _)
  | encDigit d point =>
    simp only [exec, execEncDigit, hp]
    exact .ite (.raise _) (.complete _)
  | encSymbol c point =>
    simp only [exec, execEncSymbol, hp]
    exact .complete _
  | encRaw raw => exact .complete _
  | frameNew g2 g1 g0 red green blue => exact .complete _
  | withStatus f ind value => exact .ite (.raise _) (.complete _)
  | withGlyph f index g => exact .ite (.raise _) (.complete _)
  | withPushed f g fromLeft => exact .complete _
  | fmtText text =>
    simp only [exec, execFmtText, hp]
    exact .complete _
  | fmtDecimal v ind =>
    simp only [exec, execFmtDecimal, hp]
    refine .ite (.raise _) (.ite (.raise _) ?_)
    split
    · exact .refused _
    · exact .complete _
  | openPins _ | closePins | writeBit _ | writeByte _ | latch | writeFrame _ => cases hi

/-- States that agree still agree after the same answer of a pure operation. -/
theorem SameAnswer.sameRun {s u t : State} {o : Host.Outcome State Fault Refusal} (h : s.SameRun u)
    (ho : SameAnswer s u (.next t) o) : ∃ v, o = .next v ∧ t.SameRun v := by
  cases ho with
  | complete v => exact ⟨_, rfl, h.complete v⟩
  | raise e => exact ⟨_, rfl, h.raise e⟩

/-- CLOSE on a closed serializer only completes (R112). -/
theorem exec_close_closed {s : State} (hl : s.life = .closed) : exec .closePins s = .next (s.complete .none) := by
  show execClose s = _
  rw [execClose, hl]

/-- OPEN on a closed serializer rejects identifiers that are not distinct (R111). -/
theorem exec_open_indistinct {s : State} (hl : s.life = .closed) {pins : PinIds} (hd : pins.distinct = false) :
    exec (.openPins pins) s = .next (s.raise (.invalidArgument (.pins pins))) := by
  show execOpen pins s = _
  rw [execOpen, hl]; simp [hd]

/-- An operation that answers a next state answers one from every state that agrees, and the two agree. -/
theorem exec_sameRun {i : Instr} {s u t : State} (h : s.SameRun u) (hx : exec i s = .next t) :
    ∃ v, exec i u = .next v ∧ t.SameRun v := by
  cases hi : i.isPure with
  | true =>
    exact SameAnswer.sameRun h (hx ▸ exec_pure_sameAnswer hi h.params)
  | false =>
    rcases exec_next hi hx with ⟨rfl, hl, rfl⟩ | ⟨pins, rfl, hl, hd, rfl⟩ | ⟨hr, rfl⟩
    · exact ⟨_, exec_close_closed (h.life.trans hl), h.complete _⟩
    · exact ⟨_, exec_open_indistinct (h.life.trans hl) hd, h.raise _⟩
    · refine ⟨_, exec_runs hi (h.runsTrace hr), ?_⟩
      rw [h.params]
      exact (h.prepare i).operate i _

/-! ### A write that changes no level (R35) -/

/-- The environment reacts to edges only: a write of the level the pin has makes none. -/
theorem State.react_same_level {s : State} {p : PinRole} {l : Level} (h : s.pinLevel.get p = l) : s.react p l = s := by
  subst h
  cases p with
  | data => rfl
  | enable => rfl
  | clock => cases hc : s.pinLevel.clock <;> simp [State.react, PerPin.get, hc]
  | latch => cases hc : s.pinLevel.latch <;> simp [State.react, PerPin.get, hc]

theorem State.drive_same_level {s : State} {p : PinRole} {l : Level} (h : s.pinLevel.get p = l) : s.drive p l = s := by
  rw [State.drive, State.react_same_level h, State.setLevel, ← h, PerPin.set_get_self]

/-- Settles O56: an operation decides by nothing that the levels shape (`exec_sameRun`), and a write of the level a pin
has makes no edge (`drive_same_level`). -/
theorem earlierLevelsDoNotShapeTheTrace : Obligations.EarlierLevelsDoNotShapeTheTrace := by
  refine ⟨fun i s t levels hx => ?_, fun s p l h => State.drive_same_level h⟩
  have agree : s.SameRun { s with pinLevel := levels } := ⟨rfl, rfl, rfl, rfl, rfl, rfl, rfl⟩
  obtain ⟨u, hu, same⟩ := exec_sameRun agree hx
  exact ⟨u, hu, same.trace, same.calls, same.results, same.life⟩

end Sys2Proof.Machine

namespace Sys2Proof

/-! ### Digit arithmetic on values that are not negative (40_digit_arithmetic.md R71 to R73, R77) -/

/-- The bounds of R71 leave one number of digits. -/
theorem Decimal.intDigits_eq_succ {v : Decimal} {k : Nat} (lower : 10 ^ k ≤ v.floor) (upper : v.floor < 10 ^ (k + 1)) :
    v.intDigits = k + 1 := by
  obtain ⟨one_le, floor_lt, -, le_floor⟩ := v.intDigits_spec
  have hpos : 0 < 10 ^ k := by positivity
  have h1 : k < v.intDigits := (Nat.pow_lt_pow_iff_right (by decide)).1 (lower.trans_lt floor_lt)
  have h2 : v.intDigits - 1 < k + 1 :=
    (Nat.pow_lt_pow_iff_right (by decide)).1 ((le_floor (by omega)).trans_lt upper)
  omega

theorem Decimal.floor_of_scale_zero (neg : Bool) (n : Nat) : (⟨neg, n, 0⟩ : Decimal).floor = n := by
  simp [Decimal.floor]

theorem Decimal.intDigits_pow_ten (k : Nat) : (⟨false, 10 ^ k, 0⟩ : Decimal).intDigits = k + 1 := by
  apply Decimal.intDigits_eq_succ <;> rw [Decimal.floor_of_scale_zero]
  exact Nat.pow_lt_pow_right (by decide) (Nat.lt_succ_self k)

theorem Decimal.intDigits_pow_ten_sub_one (k : Nat) : (⟨false, 10 ^ (k + 1) - 1, 0⟩ : Decimal).intDigits = k + 1 := by
  have hpos : 0 < 10 ^ k := by positivity
  apply Decimal.intDigits_eq_succ <;> rw [Decimal.floor_of_scale_zero, pow_succ] <;> omega

theorem Decimal.digitAt_zero (i : Int) : (⟨false, 0, 0⟩ : Decimal).digitAt i = 0 := by
  cases i with
  | ofNat k => simp [Decimal.digitAt, Decimal.floor, lastDigit]
  | negSucc k => simp [Decimal.digitAt, Decimal.fracNum, lastDigit]

end Sys2Proof

namespace Sys2Proof.Machine

open Sys2Proof

section NotNegative
variable {v : Decimal} {s : State} {n : Nat}

theorem returnsOnly_intDigits (hv : v.isNegative = false) (hn : v.intDigits = n) : returnsOnly (.intDigits v) s (.nat n) := by
  show execIntDigits v s = .next (s.complete (.nat n))
  simp [execIntDigits, hv, hn]

theorem returnsOnly_fracDigits (hv : v.isNegative = false) (hn : v.fracDigits = n) :
    returnsOnly (.fracDigits v) s (.nat n) := by
  show execFracDigits v s = .next (s.complete (.nat n))
  simp [execFracDigits, hv, hn]

theorem returnsOnly_digitAt {i : Int} (hv : v.isNegative = false) (hn : (v.digitAt i : Nat) = n) :
    returnsOnly (.digitAt v i) s (.nat n) := by
  show execDigitAt v i s = .next (s.complete (.nat n))
  simp [execDigitAt, hv, hn]

end NotNegative

/-- Settles O12: INT_DIGITS of the powers of ten and their predecessors by the bounds of R71 (`intDigits_eq_succ`),
DIGIT_AT of 0 by the sign of the index, and the single values of R77 by evaluation. -/
theorem sourceDigitProperties : Obligations.SourceDigitProperties := by
  intro s
  refine ⟨returnsOnly_intDigits rfl rfl, fun k _ => returnsOnly_intDigits rfl (Decimal.intDigits_pow_ten k),
    fun k hk _ => ?_, ?_⟩
  · obtain ⟨j, rfl⟩ := Nat.exists_eq_add_of_le' hk
    exact returnsOnly_intDigits rfl (Decimal.intDigits_pow_ten_sub_one j)
  · exact ⟨returnsOnly_fracDigits rfl rfl, returnsOnly_fracDigits rfl rfl, returnsOnly_fracDigits rfl rfl,
      returnsOnly_fracDigits rfl rfl, returnsOnly_fracDigits rfl rfl,
      fun i => returnsOnly_digitAt rfl (congrArg Fin.val (Decimal.digitAt_zero i)),
      returnsOnly_digitAt rfl rfl, returnsOnly_digitAt rfl rfl, returnsOnly_digitAt rfl rfl,
      returnsOnly_digitAt rfl rfl, returnsOnly_digitAt rfl rfl, returnsOnly_digitAt rfl rfl⟩

end Sys2Proof.Machine

namespace Sys2Proof.Machine

open Sys2Proof

/-! ### Glyph encoder (41_glyph_encoder.md) -/

/-- ENC_RAW reads neither the glyph tables nor anything else of the state (R85). -/
theorem returnsOnly_encRaw (raw : Byte) (s : State) : returnsOnly (.encRaw raw) s (.glyph raw) := by
  show execEncRaw raw s = .next (s.complete (.glyph raw))
  rfl

/-- Settles O17: ENC_RAW returns its operand from every state (`returnsOnly_encRaw`), and its row of R58 has the
selector 0x05. -/
theorem encRawIsTheByte : Obligations.EncRawIsTheByte := by
  intro raw s
  have selector : (Instr.encRaw raw).selector = 0x05 := rfl
  exact ⟨returnsOnly_encRaw raw s, selector⟩

end Sys2Proof.Machine

namespace Sys2Proof

/-! ### Frame operations (42_frame_ops.md) -/

section SetGlyph
variable (f : Frame) (index : BitVec 2) (g : Glyph)

@[simp] theorem Frame.setGlyph_red : (f.setGlyph index g).red = f.red := by
  unfold Frame.setGlyph
  split <;> rfl

@[simp] theorem Frame.setGlyph_green : (f.setGlyph index g).green = f.green := by
  unfold Frame.setGlyph
  split <;> rfl

@[simp] theorem Frame.setGlyph_blue : (f.setGlyph index g).blue = f.blue := by
  unfold Frame.setGlyph
  split <;> rfl

end SetGlyph

/-- An index that is not the illegal code names one of the three slots (R92). -/
theorem slotIndex_cases : ∀ {index : BitVec 2}, index ≠ 3 → index = 0 ∨ index = 1 ∨ index = 2 := by decide

end Sys2Proof

namespace Sys2Proof.Machine

open Sys2Proof

theorem slotGlyph_setGlyph (f : Frame) {index : BitVec 2} (g : Glyph) (hi : index ≠ 3) {k : Nat} (hk : k < 3) :
    slotGlyph (f.setGlyph index g) k = if k = index.toNat then g else slotGlyph f k := by
  obtain rfl | rfl | rfl := slotIndex_cases hi
  · interval_cases k <;> rfl
  · interval_cases k <;> rfl
  · interval_cases k <;> rfl

theorem returnsOnly_withGlyph (f : Frame) {index : BitVec 2} (g : Glyph) (s : State) (hi : index ≠ 3) :
    returnsOnly (.withGlyph f index g) s (.frame (f.setGlyph index g)) := by
  show execWithGlyph f index g s = .next (s.complete (.frame (f.setGlyph index g)))
  exact if_neg hi

theorem raisesOnly_withGlyph (f : Frame) {index : BitVec 2} (g : Glyph) (s : State) (hi : index = 3) :
    raisesOnly (.withGlyph f index g) s (.invalidArgument (.index index)) := by
  show execWithGlyph f index g s = .next (s.raise (.invalidArgument (.index index)))
  exact if_pos hi

/-- Settles O21: a legal index returns `f.setGlyph index g`, whose slots are those of `slotGlyph_setGlyph` and whose
indicators are those of `f`; index 3 raises; the row of R58 has the selector 0x08. -/
theorem withGlyphReplacesOneSlot : Obligations.WithGlyphReplacesOneSlot := by
  intro f index g s
  have selector : (Instr.withGlyph f index g).selector = 0x08 := rfl
  refine ⟨fun hi => ⟨f.setGlyph index g, returnsOnly_withGlyph f g s hi, fun k hk => slotGlyph_setGlyph f g hi hk, ?_⟩,
    raisesOnly_withGlyph f g s, selector⟩
  exact ⟨f.setGlyph_red index g, f.setGlyph_green index g, f.setGlyph_blue index g⟩

end Sys2Proof.Machine

namespace Sys2Proof

/-! ### Decimals of value 0 (43_frame_format.md R104) -/

theorem Decimal.val_of_coeff_zero {v : Decimal} (h : v.coeff = 0) : v.val = 0 := by simp [Decimal.val, h]

section ValueZero
variable {v : Decimal} (hv : v.val = 0)
include hv

/-- A decimal of value 0 agrees in magnitude with 0, and so in everything that depends on the magnitude only. -/
theorem Decimal.abs_val_eq_zero_val : |v.val| = |(⟨false, 0, 0⟩ : Decimal).val| := by
  rw [hv, Decimal.val_of_coeff_zero rfl]

theorem Decimal.intDigits_of_val_zero : v.intDigits = 1 := Decimal.intDigits_congr (Decimal.abs_val_eq_zero_val hv)

theorem Decimal.fracDigits_of_val_zero : v.fracDigits = 0 := Decimal.fracDigits_congr (Decimal.abs_val_eq_zero_val hv)

theorem Decimal.digitAt_abs_of_val_zero (i : Int) : v.abs.digitAt i = 0 := by
  have same : |v.abs.val| = |(⟨false, 0, 0⟩ : Decimal).val| := by rw [v.abs_abs_val, Decimal.abs_val_eq_zero_val hv]
  rw [Decimal.digitAt_congr same, Decimal.digitAt_zero]

end ValueZero

/-- Turning off an indicator of a frame that shows none leaves the frame. -/
theorem Frame.setIndicator_false_of_none_on (g2 g1 g0 : Glyph) (ind : BitVec 2) :
    Frame.setIndicator ⟨g2, g1, g0, false, false, false⟩ ind false = ⟨g2, g1, g0, false, false, false⟩ := by
  unfold Frame.setIndicator
  split <;> rfl

end Sys2Proof

namespace Sys2Proof.Machine

open Sys2Proof

/-! ### FMT_DECIMAL (43_frame_format.md R103) -/

section Window
variable {w : Shown} {p : Params} {negative : Bool} {ind : BitVec 2} {k : Nat}

theorem Shown.glyphAt_digit (hk : k < w.size) :
    w.glyphAt p negative k = p.digitGlyph (w.value.digitAt ((k : Int) - w.fracDigits)) (w.pointAt p.dpPlacement k) :=
  if_pos hk

theorem Shown.glyphAt_minus (hk : k = w.size) : w.glyphAt p true k = p.symMinus := by
  rw [Shown.glyphAt, if_neg (by omega), if_pos ⟨hk, rfl⟩, Params.symGlyph_minus]

theorem Shown.glyphAt_empty (hk : w.size ≤ k) : w.glyphAt p false k = emptyGlyph := by
  rw [Shown.glyphAt, if_neg (by omega), if_neg (by simp)]

/-- With one integer digit both placements of the point name the same slot. -/
theorem Shown.pointAt_of_one_integer_digit (hid : w.intDigits = 1) (place : DpPlacement) (k : Nat) :
    w.pointAt place k = decide (0 < w.fracDigits ∧ k = w.fracDigits) := by
  cases place with
  | rightmostInteger => rfl
  | leftmostInteger => simp [Shown.pointAt, Shown.size, hid, Nat.add_comm 1]

theorem Shown.glyphAt_of_one_integer_digit (hid : w.intDigits = 1) (hk : k ≤ w.fracDigits) :
    w.glyphAt p negative k =
      p.digitGlyph (w.value.digitAt ((k : Int) - w.fracDigits)) (decide (0 < w.fracDigits ∧ k = w.fracDigits)) := by
  rw [Shown.glyphAt_digit (by rw [Shown.size]; omega), Shown.pointAt_of_one_integer_digit hid]

/-- A window that leaves a position free shows no indicator: a sign has room for its glyph. -/
theorem Shown.frame_of_room (h : w.size ≠ 3) :
    w.frame p negative ind = ⟨w.glyphAt p negative 2, w.glyphAt p negative 1, w.glyphAt p negative 0, false, false, false⟩ :=
  if_neg fun both => h both.2

/-- A window of three digits leaves the sign to the indicator. -/
theorem Shown.frame_of_full (h : w.size = 3) :
    w.frame p negative ind =
      Frame.setIndicator ⟨w.glyphAt p negative 2, w.glyphAt p negative 1, w.glyphAt p negative 0, false, false, false⟩
        ind negative := by
  cases negative with
  | false => exact (Frame.setIndicator_false_of_none_on _ _ _ ind).symm
  | true => exact if_pos ⟨rfl, h⟩

end Window

section FmtDecimal
variable {v : Decimal} {ind : BitVec 2} {s : State}

/-- A value in range that three digits hold is shown as it stands, without rounding. -/
theorem returnsOnly_fmtDecimal_of_fits {id fd : Nat} {f : Frame} (hind : ind ≠ 3) (hrange : v.outOfRange = false)
    (hid : v.intDigits = id) (hfd : v.fracDigits = fd) (hfits : id + fd ≤ 3)
    (hframe : Shown.frame ⟨v.abs, id, fd⟩ s.params v.isNegative ind = f) :
    returnsOnly (.fmtDecimal v ind) s (.frame f) := by
  subst hid hfd hframe
  have shown : shownDecimal s.params.roundMode v = some ⟨v.abs, v.intDigits, v.fracDigits⟩ := if_neg (by omega)
  show execFmtDecimal v ind s = .next (s.complete _)
  rw [execFmtDecimal, if_neg hind, hrange, shown]
  rfl

theorem raisesOnly_fmtDecimal_of_outOfRange (hind : ind ≠ 3) (hrange : v.outOfRange = true) :
    raisesOnly (.fmtDecimal v ind) s (.invalidArgument (.decimal v)) := by
  show execFmtDecimal v ind s = .next (s.raise _)
  rw [execFmtDecimal, if_neg hind, if_pos hrange]

end FmtDecimal

section OneIntegerDigit
variable (a : Decimal) (p : Params) (negative : Bool) (ind : BitVec 2)

theorem Shown.frame_one_digit :
    Shown.frame ⟨a, 1, 0⟩ p false ind =
      ⟨emptyGlyph, emptyGlyph, p.digitGlyph (a.digitAt 0) false, false, false, false⟩ := by
  rw [Shown.frame_of_room (by simp [Shown.size])]
  simp [Shown.glyphAt_empty, Shown.size, Shown.glyphAt_of_one_integer_digit]

theorem Shown.frame_one_point_one_negative :
    Shown.frame ⟨a, 1, 1⟩ p true ind =
      ⟨p.symMinus, p.digitGlyph (a.digitAt 0) true, p.digitGlyph (a.digitAt (-1)) false, false, false, false⟩ := by
  rw [Shown.frame_of_room (by simp [Shown.size]), Shown.glyphAt_minus (k := 2) rfl]
  simp [Shown.glyphAt_of_one_integer_digit]

theorem Shown.frame_one_point_two :
    Shown.frame ⟨a, 1, 2⟩ p negative ind =
      Frame.setIndicator ⟨p.digitGlyph (a.digitAt 0) true, p.digitGlyph (a.digitAt (-1)) false,
        p.digitGlyph (a.digitAt (-2)) false, false, false, false⟩ ind negative := by
  rw [Shown.frame_of_full rfl]
  simp [Shown.glyphAt_of_one_integer_digit]

end OneIntegerDigit

/-- Settles O29: a decimal of value 0, whatever its representation, has one integer digit and no fractional digit and is
not negative, so its window is a single digit (`Shown.frame_one_digit`), and that digit is 0. -/
theorem zeroShowsASingleDigit : Obligations.ZeroShowsASingleDigit := by
  intro v ind s hv hind
  have hrange : v.outOfRange = false := Decimal.outOfRange_eq_false (by norm_num [hv])
  have hsign : v.isNegative = false := Decimal.isNegative_eq_false hv.ge
  refine returnsOnly_fmtDecimal_of_fits hind hrange (Decimal.intDigits_of_val_zero hv)
    (Decimal.fracDigits_of_val_zero hv) (by decide) ?_
  rw [hsign, Shown.frame_one_digit, Decimal.digitAt_abs_of_val_zero hv]
  rfl

/-- Settles O30: the zeros by O29, the values that three digits hold by the frame of their window
(`Shown.frame_one_point_two`, `Shown.frame_one_point_one_negative`), the values outside −999..999 by the range check. -/
theorem sourceFormatExamples : Obligations.SourceFormatExamples := by
  intro s d pt
  have blue : (2 : BitVec 2) ≠ 3 := by decide
  refine ⟨fun v hv => ?zeros, ?positive, ?full, ?room, raisesOnly_fmtDecimal_of_outOfRange blue rfl,
    fun v hv => raisesOnly_fmtDecimal_of_outOfRange blue ((v.outOfRange_iff).2 hv)⟩
  case zeros =>
    have hcoeff : v.coeff = 0 := by
      revert v
      decide
    exact zeroShowsASingleDigit v 2 s (Decimal.val_of_coeff_zero hcoeff) blue
  case positive => exact returnsOnly_fmtDecimal_of_fits blue rfl rfl rfl (by decide) (Shown.frame_one_point_two _ _ _ _)
  case full => exact returnsOnly_fmtDecimal_of_fits blue rfl rfl rfl (by decide) (Shown.frame_one_point_two _ _ _ _)
  case room =>
    exact returnsOnly_fmtDecimal_of_fits blue rfl rfl rfl (by decide) (Shown.frame_one_point_one_negative _ _ _)

end Sys2Proof.Machine

namespace Sys2Proof

/-! ### Decoding what was encoded (30_encoding.md sections 4 and 5) -/

/-- A command whose operands are read and followed by zero padding only decodes to what was read. -/
theorem decode_of_readOperands {p : Params} {b : Byte} {bs rest : List Byte} {i : Instr}
    (h : readOperands p (selectorOf b) bs = .ok (i, rest)) (padding : rest.all (· == 0) = true) :
    decode p (b :: bs) = .ok i := by
  rw [decode, h]
  exact if_pos padding

/-- The readers of the rows of R58, all 18 together. -/
theorem readOperands_operandBytes {p : Params} {i : Instr} (h : i.wf p = true) (rest : List Byte) :
    readOperands p i.selector (i.operandBytes ++ rest) = .ok (i, rest) := by
  cases i with
  | intDigits v => exact Laws.OperandsReadBack.intDigits v p h rest
  | fracDigits v => exact Laws.OperandsReadBack.fracDigits v p h rest
  | digitAt v k => exact Laws.OperandsReadBack.digitAt v k p h rest
  | encDigit d point => exact Laws.OperandsReadBack.encDigit d point p h rest
  | encSymbol c point => exact Laws.OperandsReadBack.encSymbol c point p h rest
  | encRaw raw => exact Laws.OperandsReadBack.encRaw raw p h rest
  | frameNew g2 g1 g0 red green blue => exact Laws.OperandsReadBack.frameNew g2 g1 g0 red green blue p h rest
  | withStatus f ind value => exact Laws.OperandsReadBack.withStatus f ind value p h rest
  | withGlyph f index g => exact Laws.OperandsReadBack.withGlyph f index g p h rest
  | withPushed f g fromLeft => exact Laws.OperandsReadBack.withPushed f g fromLeft p h rest
  | fmtText s => exact Laws.OperandsReadBack.fmtText s p h rest
  | fmtDecimal v ind => exact Laws.OperandsReadBack.fmtDecimal v ind p h rest
  | openPins pins => exact Laws.OperandsReadBack.openPins pins p h rest
  | closePins => exact Laws.OperandsReadBack.closePins p h rest
  | writeBit l => exact Laws.OperandsReadBack.writeBit l p h rest
  | writeByte b => exact Laws.OperandsReadBack.writeByte b p h rest
  | latch => exact Laws.OperandsReadBack.latch p h rest
  | writeFrame f => exact Laws.OperandsReadBack.writeFrame f p h rest

/-- Settles O1: the selector read back names the reader (`selectorOf_selector`), the reader gives the operation back and
leaves the padding (`readOperands_operandBytes`). -/
theorem decodeEncodeAgree : Obligations.DecodeEncodeAgree := by
  intro p i k h
  refine decode_of_readOperands (rest := List.replicate k 0) ?_ (by simp)
  rw [selectorOf_selector]
  exact readOperands_operandBytes h _

/-! ### What a reader gives is well formed -/

/-- Whatever the reader reads meets `P`. -/
def Read.Gives {α : Type} (P : α → Prop) (r : Read α) : Prop := ∀ a rest, r = .ok (a, rest) → P a

theorem Read.gives_wf {p : Params} (i : Instr) (rest : List Byte) (h : i.wf p = true) :
    Read.Gives (fun j : Instr => j.wf p = true) (.ok (i, rest)) := by
  rintro _ _ ⟨⟩
  exact h

theorem Read.gives_error {α : Type} {P : α → Prop} (e : DecodeError) : Read.Gives P (.error e) := by
  rintro _ _ ⟨⟩

section AndThen
variable {α β : Type} {P : α → Prop} {Q : β → Prop} {r : Read α} {k : α → List Byte → Read β}

theorem Read.Gives.andThen (hr : r.Gives P) (hk : ∀ a rest, P a → (k a rest).Gives Q) : (r.andThen k).Gives Q := by
  intro b out h
  obtain ⟨a, rest, ha, hb⟩ := Read.andThen_eq_ok h
  exact hk a rest (hr a rest ha) b out hb

/-- A reader whose operand has its width by its type comes first. -/
theorem Read.gives_andThen (hk : ∀ a rest, (k a rest).Gives Q) : (r.andThen k).Gives Q :=
  Read.Gives.andThen (P := fun _ => True) (fun _ _ _ => trivial) fun a rest _ => hk a rest

end AndThen

theorem readDecimal_gives (p : Params) (bs : List Byte) : (readDecimal p bs).Gives fun v => v.wf p = true :=
  fun _ _ => readDecimal_wf

theorem readChar_gives (p : Params) (bs : List Byte) : (readChar p bs).Gives fun c => p.charFits c = true :=
  fun _ _ => readChar_fits

theorem readText_gives (p : Params) (bs : List Byte) : (readText p bs).Gives fun s => s.all p.charFits = true :=
  fun _ _ => readText_fit

/-- Row by row of R58: decimals and characters are checked as they are read, every other operand has its width by its
type. -/
theorem readOperands_gives_wf (p : Params) (op : BitVec 5) (bs : List Byte) :
    (readOperands p op bs).Gives fun i => i.wf p = true := by
  unfold readOperands
  split
  · exact (readDecimal_gives p bs).andThen fun v rest hv => Read.gives_wf (.intDigits v) _ hv
  · exact (readDecimal_gives p bs).andThen fun v rest hv => Read.gives_wf (.fracDigits v) _ hv
  · exact (readDecimal_gives p bs).andThen fun v rest hv => Read.gives_andThen fun i rest =>
      Read.gives_wf (.digitAt v i) _ hv
  · exact Read.gives_andThen fun d rest => Read.gives_andThen fun pt rest => Read.gives_wf _ _ rfl
  · exact (readChar_gives p bs).andThen fun c rest hc => Read.gives_andThen fun pt rest =>
      Read.gives_wf (.encSymbol c pt) _ hc
  · exact Read.gives_andThen fun raw rest => Read.gives_wf _ _ rfl
  · exact Read.gives_andThen fun f rest => Read.gives_wf _ _ rfl
  · exact Read.gives_andThen fun f rest => Read.gives_andThen fun ind rest =>
      Read.gives_andThen fun v rest => Read.gives_wf _ _ rfl
  · exact Read.gives_andThen fun f rest => Read.gives_andThen fun ix rest =>
      Read.gives_andThen fun g rest => Read.gives_wf _ _ rfl
  · exact Read.gives_andThen fun f rest => Read.gives_andThen fun g rest =>
      Read.gives_andThen fun l rest => Read.gives_wf _ _ rfl
  · exact (readText_gives p bs).andThen fun s rest hs => Read.gives_wf (.fmtText s) _ hs
  · exact (readDecimal_gives p bs).andThen fun v rest hv => Read.gives_andThen fun ind rest =>
      Read.gives_wf (.fmtDecimal v ind) _ hv
  · exact Read.gives_andThen fun pins rest => Read.gives_wf _ _ rfl
  · exact Read.gives_wf _ _ rfl
  · exact Read.gives_andThen fun l rest => Read.gives_wf _ _ rfl
  · exact Read.gives_andThen fun b rest => Read.gives_wf _ _ rfl
  · exact Read.gives_wf _ _ rfl
  · exact Read.gives_andThen fun f rest => Read.gives_wf _ _ rfl
  · exact Read.gives_error _

/-- A command that decodes starts with a selector whose reader gave the operation. -/
theorem decode_eq_ok {p : Params} {bs : List Byte} {i : Instr} (h : decode p bs = .ok i) :
    ∃ b operands rest, bs = b :: operands ∧ readOperands p (selectorOf b) operands = .ok (i, rest) := by
  unfold decode at h
  split at h
  · cases h
  · next b operands =>
    split at h
    · cases h
    · next j rest hr =>
      split at h
      · cases h
        exact ⟨b, operands, rest, rfl, hr⟩
      · cases h

/-- Settles O2: what decodes was read by the reader of its selector, and that gives well-formed operations only
(`readOperands_gives_wf`). -/
theorem decodedOperationsAreWellFormed : Obligations.DecodedOperationsAreWellFormed := by
  intro p bs i h
  obtain ⟨b, operands, rest, -, hr⟩ := decode_eq_ok h
  exact readOperands_gives_wf p _ operands i rest hr

/-! ### Selectors (30_encoding.md R58, R59) -/

/-- A selector above 0x11 has no row in R58. -/
theorem readOperands_unnamed (p : Params) {op : BitVec 5} (h : 0x12 ≤ op.toNat) (bs : List Byte) :
    readOperands p op bs = .error (.unknownSelector op) := by
  unfold readOperands
  split
  case h_19 => rfl
  all_goals omega

theorem decode_unnamed (p : Params) {b : Byte} (h : 0x12 ≤ (selectorOf b).toNat) (operands : List Byte) :
    decode p (b :: operands) = .error (.unknownSelector (selectorOf b)) := by
  rw [decode, readOperands_unnamed p h]

theorem toNat_selectorOf (b : Byte) : (selectorOf b).toNat = b.toNat % 32 := by
  simp [selectorOf]

/-- Settles O3, by evaluation of the decoder on the 18 words. -/
theorem selectorBytesNameTheirOperations : Obligations.SelectorBytesNameTheirOperations := by
  unfold Obligations.SelectorBytesNameTheirOperations
  exact ⟨rfl, rfl⟩

end Sys2Proof

namespace Sys2Proof.Machine

open Sys2Proof

/-! ### The host's next operation (10_state.md R10, R13) -/

section Fetch
variable {s : State} {c : List Byte} {rest : List (List Byte)}

/-- The block takes the first command, with nothing in progress and the serializer not Failed. -/
theorem State.fetch_ok {i : Instr} (ha : s.active = none) (hl : s.life ≠ .failed) (hc : s.commands = c :: rest)
    (hd : decode s.params c = .ok i) : s.fetch = .ok (i, { s with commands := rest }) := by
  cases hlife : s.life <;> simp_all [State.fetch]

theorem State.fetch_undecodable {e : DecodeError} (ha : s.active = none) (hl : s.life ≠ .failed)
    (hc : s.commands = c :: rest) (hd : decode s.params c = .error e) : s.fetch = .error (.undecodable e) := by
  cases hlife : s.life <;> simp_all [State.fetch]

theorem State.fetch_of_active (ha : s.active ≠ none) : s.fetch = .error .operationInProgress := by
  obtain ⟨a, ha⟩ := Option.ne_none_iff_exists'.1 ha
  rw [State.fetch, ha]

theorem State.fetch_of_failed (ha : s.active = none) (hl : s.life = .failed) : s.fetch = .error .serializerFailed := by
  rw [State.fetch, ha, hl]

theorem State.fetch_of_no_command (ha : s.active = none) (hl : s.life ≠ .failed) (hc : s.commands = []) :
    s.fetch = .error .runEnded := by
  cases hlife : s.life <;> simp_all [State.fetch]

theorem step_of_fetch_ok {i : Instr} {t : State} (h : s.fetch = .ok (i, t)) : step s = exec i t := by
  rw [step, h]

theorem step_of_fetch_error {r : Refusal} (h : s.fetch = .error r) : step s = .refused r := by
  rw [step, h]

end Fetch

/-- Settles O4: a selector of 0x12 to 0x1F has no row in R58 (`decode_unnamed`), and what does not decode is refused. -/
theorem unnamedSelectorsRefused : Obligations.UnnamedSelectorsRefused := by
  intro s b operands rest ha hl hc hb
  exact step_of_fetch_error
    (State.fetch_undecodable ha hl hc (decode_unnamed _ (by rwa [toNat_selectorOf]) operands))

/-- Settles O5, by what `fetch` takes (`State.fetch_ok`). -/
theorem stepRunsTheDecodedOperation : Obligations.StepRunsTheDecodedOperation := by
  intro s c rest i ha hl hc hd
  exact step_of_fetch_ok (State.fetch_ok ha hl hc hd)

/-- Settles O6: the three ways `fetch` has nothing to take. -/
theorem stepRefusesWhenNothingMayRun : Obligations.StepRefusesWhenNothingMayRun := by
  intro s
  exact ⟨fun ha => step_of_fetch_error (State.fetch_of_active ha),
    fun ha hl => step_of_fetch_error (State.fetch_of_failed ha hl),
    fun ha hl hc => step_of_fetch_error (State.fetch_of_no_command ha hl hc)⟩

end Sys2Proof.Machine

namespace Sys2Proof.Machine

open Sys2Proof

/-! ### Everything an operation can do -/

@[simp] theorem State.prepare_succeeds (s : State) (i : Instr) (n : Nat) : (s.prepare i).succeeds n ↔ s.succeeds n :=
  State.succeeds_congr (s.prepare_answers i) n

@[simp] theorem State.prepare_answer (s : State) (i : Instr) (k : Nat) : (s.prepare i).answer k = s.answer k := by
  simp [State.answer]

/-- The state after the whole trace of an operation. -/
def State.completed (s : State) (i : Instr) : State :=
  ((((s.prepare i).beginOp i).okRun (tracePlan s.params.indOrder i)).finishPlan i).endOp.complete .none

/-- The state after the events `before` of an operation and its request `e`, which failed. -/
def State.stopped (s : State) (i : Instr) (before : List PinEvent) (e : PinEvent) : State :=
  (((((s.prepare i).beginOp i).okRun before).badStep e).abandonPlan i e).endOp.raise (.hardwareIO e)

section Ends
variable (s : State) (i : Instr) (before : List PinEvent) (e : PinEvent)

@[simp] theorem State.completed_params : (s.completed i).params = s.params := by simp [State.completed]
@[simp] theorem State.completed_pinId : (s.completed i).pinId = (s.prepare i).pinId := by simp [State.completed]
@[simp] theorem State.completed_pinOpen :
    (s.completed i).pinOpen = (tracePlan s.params.indOrder i).foldl opensAfter s.pinOpen := by
  simp [State.completed, State.okRun_pinOpen]
@[simp] theorem State.completed_active : (s.completed i).active = none := rfl
@[simp] theorem State.completed_commands : (s.completed i).commands = s.commands := by simp [State.completed]
@[simp] theorem State.completed_results : (s.completed i).results = s.results ++ [.ok .none] := by
  simp [State.completed]
@[simp] theorem State.completed_trace : (s.completed i).trace = s.trace ++ tracePlan s.params.indOrder i := by
  simp [State.completed]

@[simp] theorem State.stopped_params : (s.stopped i before e).params = s.params := by simp [State.stopped]
@[simp] theorem State.stopped_pinId : (s.stopped i before e).pinId = (s.prepare i).pinId := by simp [State.stopped]
@[simp] theorem State.stopped_active : (s.stopped i before e).active = none := rfl
@[simp] theorem State.stopped_commands : (s.stopped i before e).commands = s.commands := by simp [State.stopped]
@[simp] theorem State.stopped_results :
    (s.stopped i before e).results = s.results ++ [.error (.hardwareIO e)] := by simp [State.stopped]
@[simp] theorem State.stopped_trace : (s.stopped i before e).trace = s.trace ++ before ++ [e] := by
  simp [State.stopped]

end Ends

/-- The next states an operation can lead to: it returns at once, rejects an operand, runs its whole trace, or stops at
its first failing request (60_exceptions.md R131, R133). -/
inductive ExecNext (i : Instr) (s : State) : State → Prop
  | returns (v : Value) (h : i.isPure = true ∨ (i = .closePins ∧ s.life = .closed ∧ v = .none)) :
      ExecNext i s (s.complete v)
  | rejects (b : BadOperand)
      (h : i.isPure = true ∨
        ∃ pins, i = .openPins pins ∧ s.life = .closed ∧ pins.distinct = false ∧ b = .pins pins) :
      ExecNext i s (s.raise (.invalidArgument b))
  | runs (impure : i.isPure = false) (may : runsTrace s i)
      (hs : s.succeeds (requestCount (tracePlan s.params.indOrder i))) : ExecNext i s (s.completed i)
  | fails (impure : i.isPure = false) (may : runsTrace s i) (before after : List PinEvent) (e : PinEvent)
      (hp : tracePlan s.params.indOrder i = before ++ e :: after) (he : e.isRequest = true)
      (hs : s.succeeds (requestCount before)) (hb : s.answer (requestCount before) = false) :
      ExecNext i s (s.stopped i before e)

theorem exec_execNext {i : Instr} {s t : State} (h : exec i s = .next t) : ExecNext i s t := by
  cases hi : i.isPure with
  | true =>
    rcases exec_pure_next hi h with ⟨v, rfl⟩ | ⟨b, rfl⟩
    · exact .returns v (.inl hi)
    · exact .rejects b (.inl hi)
  | false =>
    rcases exec_next hi h with ⟨rfl, hl, rfl⟩ | ⟨pins, rfl, hl, hd, rfl⟩ | ⟨may, rfl⟩
    · exact .returns .none (.inr ⟨rfl, hl, rfl⟩)
    · exact .rejects _ (.inr ⟨pins, rfl, hl, hd, rfl⟩)
    · rcases (s.prepare i).operate_cases i (tracePlan s.params.indOrder i) (·.finishPlan i) (·.abandonPlan i ·) with
        ⟨hs, ht⟩ | ⟨before, e, after, hp, he, hs, hb, ht⟩
      · rw [ht]
        exact .runs hi may (by simpa using hs)
      · rw [ht]
        exact .fails hi may before after e hp he (by simpa using hs) (by simpa using hb)

/-! ### The three kinds of operation with a trace -/

theorem traced_cases {i : Instr} (h : i.isPure = false) :
    (∃ pins, i = .openPins pins) ∨ i = .closePins ∨ isWriteOp i = true := by
  cases i with
  | openPins pins => exact .inl ⟨pins, rfl⟩
  | closePins => exact .inr (.inl rfl)
  | writeBit _ | writeByte _ | latch | writeFrame _ => exact .inr (.inr rfl)
  | _ => cases h

section WriteOp
variable {i : Instr} (hi : isWriteOp i = true) (s : State)
include hi

theorem isPure_of_write : i.isPure = false := by
  cases i with
  | writeBit _ | writeByte _ | latch | writeFrame _ => rfl
  | _ => cases hi

theorem State.prepare_of_write : s.prepare i = s := by
  cases i with
  | writeBit _ | writeByte _ | latch | writeFrame _ => rfl
  | _ => cases hi

theorem State.finishPlan_of_write : s.finishPlan i = s := by
  cases i with
  | writeBit _ | writeByte _ | latch | writeFrame _ => rfl
  | _ => cases hi

theorem State.abandonPlan_of_write (e : PinEvent) : s.abandonPlan i e = s.drawRegister := by
  cases i with
  | writeBit _ | writeByte _ | latch | writeFrame _ => rfl
  | _ => cases hi

theorem runsTrace_of_write : runsTrace s i ↔ s.life = .opened := by
  cases i with
  | writeBit _ | writeByte _ | latch | writeFrame _ => exact Iff.rfl
  | _ => cases hi

end WriteOp

/-! ### The events of a write operation (44_serializer.md section 2) -/

/-- Shifting bits writes DATA and CLOCK only. -/
theorem mem_bitsTrace {e : PinEvent} {bits : List Bool} (h : e ∈ bitsTrace bits) :
    e = .wait ∨ ∃ p l, e = .writeReq p l ∧ (p = .data ∨ p = .clock) := by
  obtain ⟨b, -, hb⟩ := List.mem_flatMap.1 h
  simp only [bitTrace, List.mem_cons, List.not_mem_nil, or_false] at hb
  rcases hb with rfl | rfl | rfl | rfl | rfl | rfl <;> simp

/-- The latch pulse writes LATCH only. -/
theorem mem_latchTrace {e : PinEvent} (h : e ∈ latchTrace) : e = .wait ∨ ∃ l, e = .writeReq .latch l := by
  simp only [latchTrace, List.mem_cons, List.not_mem_nil, or_false] at h
  rcases h with rfl | rfl | rfl | rfl <;> simp

theorem bitTrace_eq_bitsTrace (l : Level) : bitTrace l = bitsTrace [l.bit] := by
  cases l <;> rfl

theorem mem_bitsTrace_role {e : PinEvent} {bits : List Bool} (h : e ∈ bitsTrace bits) :
    e.role ≠ some .latch ∧ e.role ≠ some .enable := by
  rcases mem_bitsTrace h with rfl | ⟨p, l, rfl, rfl | rfl⟩ <;> simp [PinEvent.role]

theorem mem_latchTrace_role {e : PinEvent} (h : e ∈ latchTrace) : e.role ≠ some .enable := by
  rcases mem_latchTrace h with rfl | ⟨l, rfl⟩ <;> simp [PinEvent.role]

/-- No write operation touches ENABLE (R143). -/
theorem tracePlan_role_of_write {i : Instr} (hi : isWriteOp i = true) {order : IndOrder} {e : PinEvent}
    (h : e ∈ tracePlan order i) : e.role ≠ some .enable := by
  cases i with
  | writeBit l =>
    rw [tracePlan, bitTrace_eq_bitsTrace] at h
    exact (mem_bitsTrace_role h).2
  | writeByte b => exact (mem_bitsTrace_role h).2
  | latch => exact mem_latchTrace_role h
  | writeFrame f =>
    rw [tracePlan, frameTrace_eq] at h
    rcases List.mem_append.1 h with h | h
    · exact (mem_bitsTrace_role h).2
    · exact mem_latchTrace_role h
  | _ => cases hi

theorem writesOnly_of_eq_append {plan before after : List PinEvent} {e : PinEvent} (h : writesOnly plan)
    (hp : plan = before ++ e :: after) : writesOnly before :=
  fun d hd => h d (by simp [hp, hd])

/-- A pin no event is about keeps its level. -/
theorem levelsAfter_get_of_role {p : PinRole} {plan : List PinEvent} (h : ∀ e ∈ plan, e.role ≠ some p)
    (x : PerPin Level) : (levelsAfter x plan).get p = x.get p := by
  induction plan generalizing x with
  | nil => rfl
  | cons e plan ih =>
    obtain ⟨he, hplan⟩ := List.forall_mem_cons.1 h
    cases e with
    | writeReq r l =>
      have hne : p ≠ r := fun hpr => he (congrArg some hpr.symm)
      rw [levelsAfter, ih hplan, PerPin.get_set_ne _ _ hne]
    | openReq r => exact ih hplan x
    | closeReq r => exact ih hplan x
    | wait => exact ih hplan x

/-- What a completed write leaves of the pins. -/
theorem State.completed_of_write {i : Instr} (hi : isWriteOp i = true) (s : State) :
    (s.completed i).life = s.life ∧ (s.completed i).pinId = s.pinId ∧ (s.completed i).pinOpen = s.pinOpen ∧
      (s.completed i).pinLevel = levelsAfter s.pinLevel (tracePlan s.params.indOrder i) := by
  obtain ⟨hopen, -, hlevel⟩ := State.okRun_of_writes (s := s.beginOp i) (writesOnly_tracePlan hi s.params.indOrder)
  rw [State.completed, State.prepare_of_write hi, State.finishPlan_of_write hi]
  exact ⟨by simp, by simp, hopen, hlevel⟩

/-- What a failed write leaves of the pins: only the failing pin has another level than it was last given (R136). -/
theorem State.stopped_of_write {i : Instr} (hi : isWriteOp i = true) (s : State) {before after : List PinEvent}
    {e : PinEvent} (hp : tracePlan s.params.indOrder i = before ++ e :: after) :
    (s.stopped i before e).life = s.life ∧ (s.stopped i before e).pinId = s.pinId ∧
      (s.stopped i before e).pinOpen = s.pinOpen ∧
      ∀ p, e.role ≠ some p → (s.stopped i before e).pinLevel.get p = (levelsAfter s.pinLevel before).get p := by
  have hwrites := writesOnly_tracePlan hi s.params.indOrder
  obtain ⟨hopen, -, hlevel⟩ := State.okRun_of_writes (s := s.beginOp i) (writesOnly_of_eq_append hwrites hp)
  rw [State.stopped, State.prepare_of_write hi, State.abandonPlan_of_write hi]
  refine ⟨by simp, by simp, ?_, fun p hep => ?_⟩
  · show (((s.beginOp i).okRun before).badStep e).pinOpen = s.pinOpen
    rw [State.badStep_pinOpen, hopen]
    rcases hwrites e (by simp [hp]) with rfl | ⟨p, l, rfl⟩ <;> rfl
  · show (((s.beginOp i).okRun before).badStep e).pinLevel.get p = _
    rw [State.badStep_level _ _ hep, hlevel]
    rfl

@[simp] theorem State.completed_open_life (s : State) (pins : PinIds) : (s.completed (.openPins pins)).life = .opened := by
  simp [State.completed, State.finishPlan]

@[simp] theorem State.completed_close_life (s : State) : (s.completed .closePins).life = .closed := by
  simp [State.completed, State.finishPlan]

/-- ENABLE is low once OPEN has completed (R111). -/
theorem State.completed_open_enable (s : State) (pins : PinIds) :
    (s.completed (.openPins pins)).pinLevel.enable = .low := by
  simpa [State.completed, tracePlan] using State.okRun_openTrace_enable _

@[simp] theorem State.stopped_open_life (s : State) (pins : PinIds) (before : List PinEvent) (e : PinEvent) :
    (s.stopped (.openPins pins) before e).life = .failed := by simp [State.stopped, State.abandonPlan, State.openFailed]

@[simp] theorem State.stopped_close_life (s : State) (before : List PinEvent) (e : PinEvent) :
    (s.stopped .closePins before e).life = .failed := by simp [State.stopped, State.abandonPlan, State.closeFailed]

/-! ### The invariant (10_state.md R13, R15, R16, R17, R19) -/

section LifeAgrees
variable {s : State}

theorem State.lifeAgrees_of_closed (h : s.life = .closed) : s.lifeAgrees ↔ s.pinOpen = PerPin.all false := by
  simp only [State.lifeAgrees, h]

theorem State.lifeAgrees_of_opened (h : s.life = .opened) :
    s.lifeAgrees ↔ s.pinOpen = PerPin.all true ∧ s.pinLevel.enable = .low ∧ s.pinId ≠ none := by
  simp only [State.lifeAgrees, h]

theorem State.lifeAgrees_of_failed (h : s.life = .failed) : s.lifeAgrees := by
  simp only [State.lifeAgrees, h]

end LifeAgrees

theorem State.registerSized_of_eq {s t : State} (h : s.registerSized) (hp : t.params = s.params) (hsr : t.sr = s.sr)
    (hq : t.q = s.q) : t.registerSized := by
  simpa only [State.registerSized, hp, hsr, hq] using h

/-- A failing request leaves the register's length, whatever it does to the contents (R19). -/
theorem State.abandonPlan_registerSized {s : State} (h : s.registerSized) (i : Instr) (e : PinEvent) :
    (s.abandonPlan i e).registerSized := by
  cases i with
  | openPins pins => exact State.lifecycleFailed_registerSized h e
  | closePins => exact State.lifecycleFailed_registerSized h e
  | _ => exact State.drawRegister_registerSized s

/-- OPEN sets distinct identifiers only, the other operations set none (R111). -/
theorem State.prepare_pinsDistinct {s : State} (h : s.pinsDistinct) {i : Instr} (may : runsTrace s i) :
    (s.prepare i).pinsDistinct := by
  cases i with
  | openPins pins =>
    rintro ids ⟨⟩
    exact may.2
  | _ => exact h

section KeepsInvariant
variable {i : Instr} {s : State}

theorem State.begun_registerSized (h : s.registerSized) (i : Instr) : ((s.prepare i).beginOp i).registerSized :=
  State.registerSized_of_eq h (by simp) (by simp) (by simp)

/-- The register keeps its length to the end of an operation. -/
theorem State.completed_registerSized (h : s.registerSized) (i : Instr) : (s.completed i).registerSized := by
  have ran := State.okRun_registerSized (State.begun_registerSized h i) (tracePlan s.params.indOrder i)
  refine State.registerSized_of_eq ran ?_ ?_ ?_ <;> simp [State.completed]

/-- The register keeps its length when a request fails. -/
theorem State.stopped_registerSized (h : s.registerSized) (i : Instr) (before : List PinEvent) (e : PinEvent) :
    (s.stopped i before e).registerSized := by
  have ran := State.okRun_registerSized (State.begun_registerSized h i) before
  have failed : ((((s.prepare i).beginOp i).okRun before).badStep e).registerSized :=
    State.registerSized_of_eq ran (by simp) (by simp) (by simp)
  exact State.abandonPlan_registerSized failed i e

/-- The pins as `life` says after a whole trace. -/
theorem State.completed_lifeAgrees (h : s.lifeAgrees) (impure : i.isPure = false) (may : runsTrace s i) :
    (s.completed i).lifeAgrees := by
  rcases traced_cases impure with ⟨pins, rfl⟩ | rfl | hw
  · have noneOpen : s.pinOpen = PerPin.all false := (State.lifeAgrees_of_closed may.1).1 h
    refine (State.lifeAgrees_of_opened (by simp)).2 ⟨?_, s.completed_open_enable pins, by simp [State.prepare]⟩
    rw [State.completed_pinOpen, noneOpen]
    rfl
  · refine (State.lifeAgrees_of_closed (by simp)).2 ?_
    rw [State.completed_pinOpen]
    rfl
  · have isOpen : s.life = .opened := (runsTrace_of_write hw s).1 may
    obtain ⟨hlife, hids, hopen, hlevel⟩ := State.completed_of_write hw s
    obtain ⟨allOpen, enableLow, idsSet⟩ := (State.lifeAgrees_of_opened isOpen).1 h
    have henable := levelsAfter_get_of_role (fun _ => tracePlan_role_of_write hw (order := s.params.indOrder)) s.pinLevel
    refine (State.lifeAgrees_of_opened (hlife.trans isOpen)).2 ⟨hopen.trans allOpen, ?_, hids ▸ idsSet⟩
    rw [hlevel]
    exact henable.trans enableLow

/-- The pins as `life` says after a failing request: OPEN and CLOSE end Failed, a write stays Open (R136). -/
theorem State.stopped_lifeAgrees (h : s.lifeAgrees) (impure : i.isPure = false) (may : runsTrace s i)
    {before after : List PinEvent} {e : PinEvent} (hp : tracePlan s.params.indOrder i = before ++ e :: after) :
    (s.stopped i before e).lifeAgrees := by
  rcases traced_cases impure with ⟨pins, rfl⟩ | rfl | hw
  · exact State.lifeAgrees_of_failed (s.stopped_open_life pins before e)
  · exact State.lifeAgrees_of_failed (s.stopped_close_life before e)
  · have isOpen : s.life = .opened := (runsTrace_of_write hw s).1 may
    obtain ⟨hlife, hids, hopen, hlevel⟩ := State.stopped_of_write hw s hp
    obtain ⟨allOpen, enableLow, idsSet⟩ := (State.lifeAgrees_of_opened isOpen).1 h
    have untouched : ∀ d ∈ before ++ e :: after, d.role ≠ some .enable := fun d hd =>
      tracePlan_role_of_write hw (hp ▸ hd)
    have henable : (levelsAfter s.pinLevel before).get .enable = s.pinLevel.enable :=
      levelsAfter_get_of_role (fun d hd => untouched d (by simp [hd])) _
    refine (State.lifeAgrees_of_opened (hlife.trans isOpen)).2 ⟨hopen.trans allOpen, ?_, hids ▸ idsSet⟩
    exact ((hlevel .enable (untouched e (by simp))).trans henable).trans enableLow

theorem exec_keeps_inv {t : State} (h : s.Inv) (hx : exec i s = .next t) : t.Inv := by
  obtain ⟨idle, hids, hlife, hsize⟩ := h
  cases exec_execNext hx with
  | returns v h => exact ⟨idle, hids, hlife, hsize⟩
  | rejects b h => exact ⟨idle, hids, hlife, hsize⟩
  | runs impure may hs =>
    refine ⟨rfl, ?_, State.completed_lifeAgrees hlife impure may, State.completed_registerSized hsize i⟩
    simpa [State.pinsDistinct] using State.prepare_pinsDistinct hids may
  | fails impure may before after e hp he hs hb =>
    refine ⟨rfl, ?_, State.stopped_lifeAgrees hlife impure may hp, State.stopped_registerSized hsize i before e⟩
    simpa [State.pinsDistinct] using State.prepare_pinsDistinct hids may

end KeepsInvariant

/-- Settles O59: a step runs the first command's operation (`step_next`) from a state that meets the invariant as well,
and every operation keeps the invariant (`exec_keeps_inv`). -/
theorem everyStepKeepsTheInvariant : Obligations.EveryStepKeepsTheInvariant := by
  intro s t h hstep
  obtain ⟨i, c, rest, -, -, -, -, hx⟩ := step_next hstep
  have taken : { s with commands := rest }.Inv := h
  exact exec_keeps_inv taken hx

end Sys2Proof.Machine

namespace Sys2Proof.Machine

open Sys2Proof

/-- Settles O60, field by field of the reset state. -/
theorem resetMeetsTheInvariant : Obligations.ResetMeetsTheInvariant := by
  have noPins : State.reset.pinsDistinct := by rintro ids ⟨⟩
  have sized : State.reset.registerSized := by simp [State.registerSized, State.reset]
  exact ⟨⟨rfl, noPins, rfl, sized⟩, rfl, rfl, rfl, rfl, rfl⟩

/-! ### Results and parameters (60_exceptions.md R131, R132; 20_memory.md R32) -/

/-- Settles O31: of the ends an operation can have (`exec_execNext`), a pure one reaches only the two that append a
result, and only a rejection appends an InvalidArgument. -/
theorem pureAndRejectedOperationsTouchNothing : Obligations.PureAndRejectedOperationsTouchNothing := by
  refine ⟨fun i s t hi hx => ?_, fun i s t b hx hr => ?_⟩
  · cases exec_execNext hx with
    | returns v => exact ⟨.ok v, rfl, by simp⟩
    | rejects b => exact ⟨.error (.invalidArgument b), rfl, by simp⟩
    | runs impure => simp [hi] at impure
    | fails impure => simp [hi] at impure
  · cases exec_execNext hx with
    | returns v => simp at hr
    | rejects b => rfl
    | runs => simp at hr
    | fails => simp at hr

section Refused
variable {i : Instr} {s : State}

theorem exec_write_refused (hi : isWriteOp i = true) (hl : s.life ≠ .opened) : exec i s = .refused .notOpen := by
  rw [exec_write hi, State.writeOp]
  cases h : s.life <;> simp_all

theorem exec_open_refused (pins : PinIds) (hl : s.life ≠ .closed) : exec (.openPins pins) s = .refused .notClosed := by
  show execOpen pins s = _
  rw [execOpen]
  cases h : s.life <;> simp_all

theorem exec_close_refused (hl : s.life = .failed) : exec .closePins s = .refused .closeAfterFailure := by
  show execClose s = _
  rw [execClose, hl]

end Refused

/-- Settles O32: each end an operation can have appends one result (`exec_execNext`), of which none is InvalidOperation;
misuse of the lifecycle is refused. -/
theorem invalidOperationIsNeverRaised : Obligations.InvalidOperationIsNeverRaised := by
  refine ⟨fun i s t hx => ?_, fun i s hi hl => exec_write_refused hi (by simp [hl]),
    fun pins s hl => exec_open_refused pins (by simp [hl])⟩
  cases exec_execNext hx with
  | returns v => exact ⟨.ok v, rfl, by simp⟩
  | rejects b => exact ⟨.error (.invalidArgument b), rfl, by simp⟩
  | runs => exact ⟨.ok .none, by simp, by simp⟩
  | fails _ _ _ _ e => exact ⟨.error (.hardwareIO e), by simp, by simp⟩

/-- Settles O33: a step runs one operation (`step_next`), and no operation writes a parameter (`exec_params`). -/
theorem parametersNeverChange : Obligations.ParametersNeverChange := by
  intro s t hstep
  obtain ⟨i, c, rest, -, -, -, -, hx⟩ := step_next hstep
  have same : t.params = s.params := (exec_params hx).trans rfl
  exact ⟨same, fun c => by rw [same]⟩

/-- Settles O39: each misuse by the rule of its operation. -/
theorem lifecycleMisuse : Obligations.LifecycleMisuse := by
  intro i pins s
  exact ⟨exec_write_refused, exec_open_refused pins, exec_close_closed, exec_close_refused,
    fun hl hd => exec_open_indistinct hl hd⟩

/-- Settles O48: the four ends of an operation with a trace (`exec_execNext`). -/
theorem operationsRunToTheirEndOrFirstFailure : Obligations.OperationsRunToTheirEndOrFirstFailure := by
  intro i s t impure hx
  cases exec_execNext hx with
  | returns v h =>
    obtain ⟨rfl, hl, rfl⟩ := h.resolve_left (by simp [impure])
    exact ⟨[], by simp, .inr (.inr (.inl ⟨rfl, rfl, hl, rfl⟩))⟩
  | rejects b h =>
    obtain ⟨pins, rfl, -, hd, rfl⟩ := h.resolve_left (by simp [impure])
    exact ⟨[], by simp, .inr (.inr (.inr ⟨pins, rfl, rfl, hd, rfl⟩))⟩
  | runs _ _ hs => exact ⟨_, s.completed_trace i, .inl ⟨rfl, hs, s.completed_results i⟩⟩
  | fails _ _ before after e hp he hs hb =>
    exact ⟨before ++ [e], by simp, .inr (.inl ⟨before, after, e, hp, rfl, he, hs, hb, by simp⟩)⟩

/-! ### Writes go to open pins (10_state.md R17) -/

theorem writesOnlyOpen_of_append {isOpen : PerPin Bool} {p r : List PinEvent}
    (h : writesOnlyOpen isOpen (p ++ r) = true) : writesOnlyOpen isOpen p = true := by
  induction p generalizing isOpen with
  | nil => rfl
  | cons e p ih =>
    cases e with
    | writeReq q l =>
      rw [List.cons_append, writesOnlyOpen, Bool.and_eq_true] at h
      rw [writesOnlyOpen, h.1, ih h.2]
      rfl
    | openReq q => exact ih h
    | closeReq q => exact ih h
    | wait => exact ih h

theorem writesOnlyOpen_of_writes {plan : List PinEvent} (h : writesOnly plan) :
    writesOnlyOpen (PerPin.all true) plan = true := by
  induction plan with
  | nil => rfl
  | cons e plan ih =>
    obtain ⟨he, hplan⟩ := List.forall_mem_cons.1 h
    rcases he with rfl | ⟨p, l, rfl⟩
    · exact ih hplan
    · rw [writesOnlyOpen, ih hplan, PerPin.get_all]
      rfl

/-- A whole trace writes only to pins open at that point, from the open pins `life` says. -/
theorem tracePlan_writesOnlyOpen {i : Instr} {s : State} (h : s.lifeAgrees) (impure : i.isPure = false)
    (may : runsTrace s i) : writesOnlyOpen s.pinOpen (tracePlan s.params.indOrder i) = true := by
  rcases traced_cases impure with ⟨pins, rfl⟩ | rfl | hw
  · rw [(State.lifeAgrees_of_closed may.1).1 h]
    rfl
  · rw [((State.lifeAgrees_of_opened may).1 h).1]
    rfl
  · rw [((State.lifeAgrees_of_opened ((runsTrace_of_write hw s).1 may)).1 h).1]
    exact writesOnlyOpen_of_writes (writesOnly_tracePlan hw _)

/-- Settles O58: a step appends no event, a whole trace or a beginning of one, and the whole trace writes only to open
pins (`tracePlan_writesOnlyOpen`). -/
theorem writesGoToOpenPins : Obligations.WritesGoToOpenPins := by
  intro s t hinv hstep
  obtain ⟨i, c, rest, -, -, -, -, hx⟩ := step_next hstep
  obtain ⟨-, -, hlife, -⟩ := hinv
  cases exec_execNext hx with
  | returns v => exact ⟨[], by simp, rfl⟩
  | rejects b => exact ⟨[], by simp, rfl⟩
  | runs impure may => exact ⟨_, State.completed_trace _ _, tracePlan_writesOnlyOpen (s := s) hlife impure may⟩
  | fails impure may before after e hp =>
    refine ⟨before ++ [e], by simp, ?_⟩
    have whole := tracePlan_writesOnlyOpen (s := s) hlife impure may
    have split : tracePlan s.params.indOrder i = (before ++ [e]) ++ after := by simpa using hp
    exact writesOnlyOpen_of_append (split ▸ whole)

/-! ### OPEN and CLOSE leave the register (20_memory.md R39; 60_exceptions.md R136) -/

/-- OPEN and CLOSE. -/
def isLifecycleOp : Instr → Bool
  | .openPins _ => true
  | .closePins => true
  | _ => false

section LifecycleOp
variable {i : Instr} (hi : isLifecycleOp i = true) (s : State)
include hi

theorem isPure_of_lifecycle : i.isPure = false := by
  cases i with
  | openPins _ | closePins => rfl
  | _ => cases hi

theorem State.abandonPlan_of_lifecycle (e : PinEvent) : s.abandonPlan i e = s.lifecycleFailed e := by
  cases i with
  | openPins _ | closePins => rfl
  | _ => cases hi

theorem tracePlan_quiet_of_lifecycle (order : IndOrder) : (tracePlan order i).all PinEvent.isQuiet = true := by
  cases i with
  | openPins _ | closePins => rfl
  | _ => cases hi

/-- Neither makes an edge on CLOCK or LATCH. -/
theorem State.completed_register_of_lifecycle : (s.completed i).sr = s.sr ∧ (s.completed i).q = s.q := by
  have quiet := tracePlan_quiet_of_lifecycle hi s.params.indOrder
  simpa [State.completed] using State.okRun_quiet (s := (s.prepare i).beginOp i) quiet

/-- A failing open or close leaves the register, a failing ENABLE write does so by R136 (log entry 18). -/
theorem State.stopped_register_of_lifecycle {before after : List PinEvent} {e : PinEvent}
    (hp : tracePlan s.params.indOrder i = before ++ e :: after)
    (h : (∀ p l, e ≠ .writeReq p l) ∨ s.params.failedEnableWrite = .keepsRegister) :
    (s.stopped i before e).sr = s.sr ∧ (s.stopped i before e).q = s.q ∧ (s.stopped i before e).chains = s.chains := by
  have quiet : before.all PinEvent.isQuiet = true := by
    have all := tracePlan_quiet_of_lifecycle hi s.params.indOrder
    rw [hp, List.all_append, Bool.and_eq_true] at all
    exact all.1
  obtain ⟨hsr, hq⟩ := State.okRun_quiet (s := (s.prepare i).beginOp i) quiet
  obtain ⟨ksr, kq, kchains⟩ :=
    State.lifecycleFailed_keeps ((((s.prepare i).beginOp i).okRun before).badStep e) e (by simpa using h)
  rw [State.stopped, State.abandonPlan_of_lifecycle hi]
  refine ⟨ksr.trans ?_, kq.trans ?_, kchains.trans ?_⟩
  · simpa using hsr
  · simpa using hq
  · simp

end LifecycleOp

end Sys2Proof.Machine

namespace Sys2Proof.Machine

open Sys2Proof

/-! ### ENABLE and the outputs (60_exceptions.md R143; 20_memory.md R42, R45) -/

theorem mem_openTrace_write {p : PinRole} {l : Level} (h : .writeReq p l ∈ openTrace) : p = .enable ∧ l = .low := by
  simpa [openTrace] using h

theorem mem_closeTrace_write {p : PinRole} {l : Level} (h : .writeReq p l ∈ closeTrace) : p = .enable ∧ l = .high := by
  simpa [closeTrace] using h

/-- A failing request of OPEN or CLOSE is no write, if the error names no ENABLE write. -/
theorem not_writeReq_of_results {s : State} {e : PinEvent} {level : Level}
    (only : ∀ p l, e = .writeReq p l → p = .enable ∧ l = level)
    (h : s.results ++ [.error (.hardwareIO e)] ≠ s.results ++ [.error (.hardwareIO (.writeReq .enable level))]) :
    ∀ p l, e ≠ .writeReq p l := by
  rintro p l rfl
  obtain ⟨rfl, rfl⟩ := only p l rfl
  exact h rfl

/-- Events that are not about LATCH leave the outputs. -/
theorem State.okRun_q_of_role {s : State} {plan : List PinEvent} (h : ∀ e ∈ plan, e.role ≠ some .latch) :
    (s.okRun plan).q = s.q := by
  induction plan generalizing s with
  | nil => rfl
  | cons e plan ih =>
    obtain ⟨he, hplan⟩ := List.forall_mem_cons.1 h
    rw [State.okRun_cons, ih hplan]
    cases e with
    | writeReq p l => simp_all [State.okStep, State.drive_eq, PinEvent.role]
    | openReq p => simp [State.okStep]
    | closeReq p => simp [State.okStep]
    | wait => rfl

/-- No operation but OPEN and CLOSE touches ENABLE. -/
theorem exec_enable_of_other {i : Instr} {s t : State} (hopen : ∀ pins, i ≠ .openPins pins) (hclose : i ≠ .closePins)
    (hx : exec i s = .next t) :
    t.pinLevel.enable = s.pinLevel.enable ∧
      ∃ events, t.trace = s.trace ++ events ∧ ∀ e ∈ events, e.role ≠ some .enable := by
  have write (impure : i.isPure = false) : isWriteOp i = true := by
    rcases traced_cases impure with ⟨pins, rfl⟩ | rfl | hw
    · exact absurd rfl (hopen pins)
    · exact absurd rfl hclose
    · exact hw
  cases exec_execNext hx with
  | returns v => exact ⟨rfl, [], by simp, by simp⟩
  | rejects b => exact ⟨rfl, [], by simp, by simp⟩
  | runs impure =>
    have untouched : ∀ e ∈ tracePlan s.params.indOrder i, e.role ≠ some .enable := fun e =>
      tracePlan_role_of_write (write impure)
    obtain ⟨-, -, -, hlevel⟩ := State.completed_of_write (write impure) s
    refine ⟨?_, _, s.completed_trace i, untouched⟩
    rw [hlevel]
    exact levelsAfter_get_of_role untouched s.pinLevel
  | fails impure _ before after e hp =>
    have untouched : ∀ d ∈ before ++ e :: after, d.role ≠ some .enable := fun d hd =>
      tracePlan_role_of_write (write impure) (hp ▸ hd)
    obtain ⟨-, -, -, hlevel⟩ := State.stopped_of_write (write impure) s hp
    refine ⟨?_, before ++ [e], by simp, fun d hd => untouched d (by simp at hd ⊢; tauto)⟩
    exact (hlevel .enable (untouched e (by simp))).trans
      (levelsAfter_get_of_role (fun d hd => untouched d (by simp [hd])) _)

/-- Settles O53: writes have no event about ENABLE (`exec_enable_of_other`); OPEN and CLOSE leave the register unless
their ENABLE write fails, and that is the only write either makes. -/
theorem enableIsTouchedByOpenAndCloseOnly : Obligations.EnableIsTouchedByOpenAndCloseOnly := by
  refine ⟨fun i s t => exec_enable_of_other, fun pins s t hx => ?opening, fun s t hx => ?closing⟩
  case opening =>
    cases exec_execNext hx with
    | returns v h => simp [Instr.isPure] at h
    | rejects b h =>
      obtain ⟨_, -, hl, -⟩ := h.resolve_left (by simp [Instr.isPure])
      exact ⟨fun _ => ⟨rfl, rfl⟩, fun hopened => by simp [hl] at hopened⟩
    | runs => exact ⟨fun _ => State.completed_register_of_lifecycle rfl s, fun _ => s.completed_open_enable pins⟩
    | fails _ _ before after e hp =>
      have only : ∀ p l, e = .writeReq p l → p = .enable ∧ l = .low := by
        rintro p l rfl
        exact mem_openTrace_write (show _ ∈ tracePlan s.params.indOrder (.openPins pins) by simp [hp])
      refine ⟨fun h => ?_, fun hopened => by simp at hopened⟩
      rw [State.stopped_results] at h
      obtain ⟨hsr, hq, -⟩ := State.stopped_register_of_lifecycle rfl s hp (h.imp_left (not_writeReq_of_results only))
      exact ⟨hsr, hq⟩
  case closing =>
    cases exec_execNext hx with
    | returns v h =>
      obtain ⟨-, hl, -⟩ := h.resolve_left (by simp [Instr.isPure])
      exact ⟨fun _ => ⟨rfl, rfl⟩, fun hopened => by simp [hl] at hopened⟩
    | rejects b h => simp [Instr.isPure] at h
    | runs =>
      exact ⟨fun _ => State.completed_register_of_lifecycle rfl s, fun _ => ⟨_, s.completed_trace .closePins⟩⟩
    | fails _ _ before after e hp =>
      have only : ∀ p l, e = .writeReq p l → p = .enable ∧ l = .high := by
        rintro p l rfl
        exact mem_closeTrace_write (show _ ∈ tracePlan s.params.indOrder .closePins by simp [hp])
      refine ⟨fun h => ?_, fun _ => ?_⟩
      · rw [State.stopped_results] at h
        obtain ⟨hsr, hq, -⟩ := State.stopped_register_of_lifecycle rfl s hp (h.imp_left (not_writeReq_of_results only))
        exact ⟨hsr, hq⟩
      · cases before with
        | nil =>
          obtain ⟨rfl, -⟩ := List.cons.inj hp
          exact ⟨[], by simp⟩
        | cons d before =>
          obtain ⟨rfl, -⟩ := List.cons.inj hp
          exact ⟨before ++ [e], by simp⟩

/-! ### The outputs while a frame is shifted -/

/-- WRITE_BIT and WRITE_BYTE have no event about LATCH. -/
theorem tracePlan_role_of_shift {i : Instr} (hi : isWriteOp i = true) (hlatch : i ≠ .latch)
    (hframe : ∀ f, i ≠ .writeFrame f) {order : IndOrder} {e : PinEvent} (h : e ∈ tracePlan order i) :
    e.role ≠ some .latch := by
  cases i with
  | writeBit l =>
    rw [tracePlan, bitTrace_eq_bitsTrace] at h
    exact (mem_bitsTrace_role h).1
  | writeByte b => exact (mem_bitsTrace_role h).1
  | latch => exact absurd rfl hlatch
  | writeFrame f => exact absurd rfl (hframe f)
  | _ => cases hi

/-- The first 192 events of WRITE_FRAME are the bits it shifts. -/
theorem take_frameTrace (order : IndOrder) (f : Frame) {n : Nat} (hn : n ≤ 192) :
    (frameTrace order f).take n = (bitsTrace (frameBits order f)).take n := by
  rw [frameTrace_eq, List.take_append_of_le_length]
  simpa [length_bitsTrace] using hn

theorem requestCount_take_frameTrace (order : IndOrder) (f : Frame) {n : Nat} (hn : n ≤ 192) :
    requestCount ((frameTrace order f).take n) ≤ 96 := by
  rw [take_frameTrace order f hn]
  calc requestCount ((bitsTrace (frameBits order f)).take n)
      ≤ requestCount (bitsTrace (frameBits order f)) := (List.take_sublist n _).countP_le
    _ = 96 := by simp [requestCount_bitsTrace]

theorem length_frameTrace (order : IndOrder) (f : Frame) : (frameTrace order f).length = 196 := by
  rw [frameTrace_eq, List.length_append, length_bitsTrace]
  rfl

/-- Settles O54: WRITE_BIT and WRITE_BYTE have no event about LATCH, OPEN and CLOSE none that makes an edge, and the
first 192 events of WRITE_FRAME are those of its bits. -/
theorem outputsChangeOnlyAtTheLatchPulse : Obligations.OutputsChangeOnlyAtTheLatchPulse := by
  refine ⟨fun i s t hlatch hframe hx noError => ?_, fun f s n hs hn => ?_⟩
  · cases exec_execNext hx with
    | returns v => rfl
    | rejects b => rfl
    | runs impure =>
      by_cases hw : isWriteOp i = true
      · have bits := State.okRun_q_of_role (s := (s.prepare i).beginOp i)
          fun e => tracePlan_role_of_shift hw hlatch hframe (order := s.params.indOrder)
        simpa [State.completed] using bits
      · have lifecycle : isLifecycleOp i = true := by
          rcases traced_cases impure with ⟨pins, rfl⟩ | rfl | h
          · rfl
          · rfl
          · exact absurd h hw
        exact (State.completed_register_of_lifecycle lifecycle s).2
    | fails _ _ before after e => exact absurd (s.stopped_results i before e) (noError e)
  · have shifted : (s.beginOp (.writeFrame f)).eventSteps n =
        (s.beginOp (.writeFrame f)).okRun ((frameTrace s.params.indOrder f).take n) :=
      State.eventSteps_ok (i := .writeFrame f) (by simp [tracePlan, length_frameTrace]; omega)
        (State.succeeds_mono hs (requestCount_take_frameTrace _ f hn))
    rw [shifted]
    constructor
    · rw [take_frameTrace _ f hn]
      exact State.okRun_q_of_role fun e he => (mem_bitsTrace_role (List.mem_of_mem_take he)).1
    · rw [State.okRun_active]
      simp [length_frameTrace]
      omega

/-! ### The event-level machine (10_state.md R10, R13) -/

theorem exists_tracePlan_cons {i : Instr} (impure : i.isPure = false) (order : IndOrder) :
    ∃ d rest, tracePlan order i = d :: rest := by
  cases i with
  | openPins _ | closePins | writeBit _ | writeByte _ | latch | writeFrame _ => exact ⟨_, _, rfl⟩
  | _ => cases impure

/-- An operation that may run its trace answers what the event-level machine reaches in as many steps as the trace is
long. -/
theorem exec_eventSteps {i : Instr} {s : State} (impure : i.isPure = false) (may : runsTrace s i) :
    exec i s = .next (((s.prepare i).beginOp i).eventSteps (tracePlan s.params.indOrder i).length) := by
  obtain ⟨d, rest, hp⟩ := exists_tracePlan_cons impure s.params.indOrder
  have steps := State.eventSteps_runPlan (s := (s.prepare i).beginOp i) (by simp) rfl hp
  rw [exec_runs impure may, hp, List.length_cons, steps]
  unfold State.operate
  rcases State.runPlan (d :: rest) ((s.prepare i).beginOp i) with ⟨_ | e, t⟩ <;> rfl

/-- Settles O55: writes, OPEN and CLOSE by the one lemma on operations that run their trace (`exec_eventSteps`). -/
theorem eventLevelReachesTheOperationResult : Obligations.EventLevelReachesTheOperationResult := by
  refine ⟨fun i s hi hl => ?_, fun pins s hl hd => exec_eventSteps rfl ⟨hl, hd⟩, fun s hl => exec_eventSteps rfl hl⟩
  have steps := exec_eventSteps (isPure_of_write hi) ((runsTrace_of_write hi s).2 hl)
  rwa [State.prepare_of_write hi] at steps

/-! ### The external register is never read (10_state.md R19) -/

/-- `u` is `s` with other contents of the chain and the outputs. -/
def State.SameButRegister (s u : State) : Prop := ∃ chain outputs, u = { s with sr := chain, q := outputs }

namespace State.SameButRegister
variable {s u : State} (h : s.SameButRegister u)
include h

theorem prepare (i : Instr) : (s.prepare i).SameButRegister (u.prepare i) := by
  obtain ⟨a, b, rfl⟩ := h
  cases i <;> exact ⟨a, b, rfl⟩

theorem beginOp (i : Instr) : (s.beginOp i).SameButRegister (u.beginOp i) := by
  obtain ⟨a, b, rfl⟩ := h
  exact ⟨a, b, rfl⟩

theorem okStep (e : PinEvent) : (s.okStep e).SameButRegister (u.okStep e) := by
  obtain ⟨a, b, rfl⟩ := h
  cases e with
  | writeReq p l =>
    simp only [State.okStep, State.drive_eq]
    exact ⟨_, _, rfl⟩
  | _ => exact ⟨a, b, rfl⟩

theorem okRun (plan : List PinEvent) : (s.okRun plan).SameButRegister (u.okRun plan) := by
  induction plan generalizing s u with
  | nil => exact h
  | cons e plan ih => exact ih (h.okStep e)

theorem badStep (e : PinEvent) : (s.badStep e).SameButRegister (u.badStep e) := by
  obtain ⟨a, b, rfl⟩ := h
  cases e <;> exact ⟨a, b, rfl⟩

theorem finishPlan (i : Instr) : (s.finishPlan i).SameButRegister (u.finishPlan i) := by
  obtain ⟨a, b, rfl⟩ := h
  cases i <;> exact ⟨a, b, rfl⟩

theorem drawRegister : s.drawRegister.SameButRegister u.drawRegister := by
  obtain ⟨a, b, rfl⟩ := h
  exact ⟨_, _, rfl⟩

theorem lifecycleFailed (e : PinEvent) : (s.lifecycleFailed e).SameButRegister (u.lifecycleFailed e) := by
  obtain ⟨a, b, rfl⟩ := h
  cases e with
  | writeReq p l =>
    simp only [State.lifecycleFailed, State.enableWriteFailed, State.drawAllLevels_params]
    cases s.params.failedEnableWrite
    · exact ⟨a, b, rfl⟩
    · exact ⟨_, _, rfl⟩
  | _ => exact ⟨a, b, rfl⟩

theorem abandonPlan (i : Instr) (e : PinEvent) : (s.abandonPlan i e).SameButRegister (u.abandonPlan i e) := by
  cases i with
  | openPins pins => exact h.lifecycleFailed e
  | closePins => exact h.lifecycleFailed e
  | _ => exact h.drawRegister

theorem endOp : s.endOp.SameButRegister u.endOp := by
  obtain ⟨a, b, rfl⟩ := h
  exact ⟨a, b, rfl⟩

theorem complete (v : Value) : (s.complete v).SameButRegister (u.complete v) := by
  obtain ⟨a, b, rfl⟩ := h
  exact ⟨a, b, rfl⟩

theorem raise (e : OpError) : (s.raise e).SameButRegister (u.raise e) := by
  obtain ⟨a, b, rfl⟩ := h
  exact ⟨a, b, rfl⟩

end State.SameButRegister

theorem State.SameButRegister.operate {s u : State} (h : s.SameButRegister u) (i : Instr) (plan : List PinEvent) :
    (s.operate i plan (·.finishPlan i) (·.abandonPlan i ·)).SameButRegister
      (u.operate i plan (·.finishPlan i) (·.abandonPlan i ·)) := by
  have answers : u.answers = s.answers := by
    obtain ⟨a, b, rfl⟩ := h
    rfl
  have succeeds (n : Nat) : u.succeeds n ↔ s.succeeds n := State.succeeds_congr answers n
  have answer (k : Nat) : u.answer k = s.answer k := by simp [State.answer, answers]
  rcases s.operate_cases i plan (·.finishPlan i) (·.abandonPlan i ·) with
    ⟨hs, ht⟩ | ⟨before, e, after, rfl, he, hs, hb, ht⟩
  · rw [ht, State.operate_ok ((succeeds _).2 hs)]
    exact (((h.beginOp i).okRun plan).finishPlan i).endOp.complete .none
  · rw [ht, State.operate_bad ((succeeds _).2 hs) he (by rw [answer, hb])]
    exact ((((h.beginOp i).okRun before).badStep e).abandonPlan i e).endOp.raise _

theorem exec_sameButRegister {i : Instr} {s u t : State} (h : s.SameButRegister u) (hx : exec i s = .next t) :
    ∃ v, exec i u = .next v ∧ t.SameButRegister v := by
  have same : u.params = s.params ∧ u.life = s.life := by
    obtain ⟨a, b, rfl⟩ := h
    exact ⟨rfl, rfl⟩
  cases hi : i.isPure with
  | true =>
    have answer := exec_pure_sameAnswer hi same.1
    rw [hx] at answer
    generalize exec i u = o at answer
    cases answer with
    | complete v => exact ⟨_, rfl, h.complete v⟩
    | raise e => exact ⟨_, rfl, h.raise e⟩
  | false =>
    rcases exec_next hi hx with ⟨rfl, hl, rfl⟩ | ⟨pins, rfl, hl, hd, rfl⟩ | ⟨may, rfl⟩
    · exact ⟨_, exec_close_closed (same.2.trans hl), h.complete _⟩
    · exact ⟨_, exec_open_indistinct (same.2.trans hl) hd, h.raise _⟩
    · have may' : runsTrace u i := by cases i <;> simpa [runsTrace, same.2] using may
      refine ⟨_, exec_runs hi may', ?_⟩
      rw [same.1]
      exact (h.prepare i).operate i _

/-- When an operation with a trace is refused (R111, R112, R120). -/
theorem exec_traced_refused {i : Instr} {s : State} {r : Refusal} (impure : i.isPure = false)
    (hx : exec i s = .refused r) :
    (isWriteOp i = true ∧ s.life ≠ .opened ∧ r = .notOpen) ∨
      (∃ pins, i = .openPins pins ∧ s.life ≠ .closed ∧ r = .notClosed) ∨
      (i = .closePins ∧ s.life = .failed ∧ r = .closeAfterFailure) := by
  rcases traced_cases impure with ⟨pins, rfl⟩ | rfl | hw
  · have hl : s.life ≠ .closed := fun hl => by
      cases hd : pins.distinct
      · rw [exec_open_indistinct hl hd] at hx
        cases hx
      · rw [exec_open hl hd] at hx
        cases hx
    rw [exec_open_refused pins hl] at hx
    cases hx
    exact .inr (.inl ⟨pins, rfl, hl, rfl⟩)
  · cases hl : s.life with
    | closed =>
      rw [exec_close_closed hl] at hx
      cases hx
    | opened =>
      rw [exec_close hl] at hx
      cases hx
    | failed =>
      rw [exec_close_refused hl] at hx
      cases hx
      exact .inr (.inr ⟨rfl, rfl, rfl⟩)
  · have hl : s.life ≠ .opened := fun hl => by
      rw [exec_write hw, State.writeOp_open hl] at hx
      cases hx
    rw [exec_write_refused hw hl] at hx
    cases hx
    exact .inl ⟨hw, hl, rfl⟩

/-- A refusal depends on the parameters and on `life` only. -/
theorem exec_refused_congr {i : Instr} {s u : State} {r : Refusal} (hp : u.params = s.params) (hl : u.life = s.life)
    (hx : exec i s = .refused r) : exec i u = .refused r := by
  cases hi : i.isPure with
  | true =>
    have answer := exec_pure_sameAnswer hi hp
    rw [hx] at answer
    generalize exec i u = o at answer
    cases answer
    rfl
  | false =>
    rcases exec_traced_refused hi hx with ⟨hw, h, rfl⟩ | ⟨pins, rfl, h, rfl⟩ | ⟨rfl, h, rfl⟩
    · exact exec_write_refused hw (hl ▸ h)
    · exact exec_open_refused pins (hl ▸ h)
    · exact exec_close_refused (hl.trans h)

/-- Settles O57: a refusal depends on the parameters and `life` (`exec_refused_congr`), and states that differ in the
register only lead to states that do (`exec_sameButRegister`). -/
theorem environmentIsNeverRead : Obligations.EnvironmentIsNeverRead := by
  intro i s chain outputs
  have same : s.SameButRegister { s with sr := chain, q := outputs } := ⟨chain, outputs, rfl⟩
  refine ⟨fun r hx => exec_refused_congr (s := s) rfl rfl hx, fun t hx => ?_⟩
  obtain ⟨_, hu, chain', outputs', rfl⟩ := exec_sameButRegister same hx
  exact ⟨chain', outputs', hu⟩

end Sys2Proof.Machine

namespace Sys2Proof.Machine

open Sys2Proof

/-! ### The ends of an operation with a trace, as its outcome -/

section Outcome
variable {i : Instr} {s : State} (impure : i.isPure = false) (may : runsTrace s i)
include impure may

theorem exec_completes (hs : s.succeeds (requestCount (tracePlan s.params.indOrder i))) :
    exec i s = .next (s.completed i) := by
  rw [exec_runs impure may, State.operate_ok (by simpa using hs)]
  rfl

theorem exec_stops {before after : List PinEvent} {e : PinEvent}
    (hp : tracePlan s.params.indOrder i = before ++ e :: after) (he : e.isRequest = true)
    (hs : s.succeeds (requestCount before)) (hb : s.answer (requestCount before) = false) :
    exec i s = .next (s.stopped i before e) := by
  rw [exec_runs impure may, hp, State.operate_bad (by simpa using hs) he (by simpa using hb)]
  rfl

end Outcome

/-- What a failed event does to `pin_open`: only a close ends it (R17). -/
def opensAfterFailed (isOpen : PerPin Bool) : PinEvent → PerPin Bool
  | .closeReq p => isOpen.set p false
  | .openReq _ => isOpen
  | .writeReq _ _ => isOpen
  | .wait => isOpen

section Ends
variable (s : State) (i : Instr) (before : List PinEvent) (e : PinEvent)

@[simp] theorem State.completed_calls :
    (s.completed i).calls = s.calls ++ (tracePlan s.params.indOrder i).flatMap (callOf (s.prepare i).pinId) := by
  simp [State.completed, State.okRun_calls]

@[simp] theorem State.completed_answers :
    (s.completed i).answers = s.answers.drop (requestCount (tracePlan s.params.indOrder i)) := by
  simp [State.completed, State.okRun_answers]

@[simp] theorem State.completed_chains : (s.completed i).chains = s.chains := by
  have finish (t : State) : (t.finishPlan i).chains = t.chains := by cases i <;> rfl
  simp [State.completed, finish]

@[simp] theorem State.stopped_pinOpen :
    (s.stopped i before e).pinOpen = opensAfterFailed (before.foldl opensAfter s.pinOpen) e := by
  rw [State.stopped]
  cases e <;> simp [State.badStep_pinOpen, State.okRun_pinOpen, opensAfterFailed]

@[simp] theorem State.stopped_calls :
    (s.stopped i before e).calls = s.calls ++ (before ++ [e]).flatMap (callOf (s.prepare i).pinId) := by
  simp [State.stopped, State.okRun_calls]

theorem State.stopped_answers (he : e.isRequest = true) :
    (s.stopped i before e).answers = s.answers.drop (requestCount before + 1) := by
  simp [State.stopped, State.badStep_answers _ _ he, State.okRun_answers, Supply.drop_add]

end Ends

/-! ### OPEN and CLOSE (44_serializer.md section 1; 60_exceptions.md R136) -/

theorem State.prepare_close (s : State) : s.prepare .closePins = s := rfl

/-- OPEN leaves DATA, CLOCK and LATCH at drawn levels (R18). -/
theorem State.completed_open_pinLevel (s : State) (pins : PinIds) :
    (s.completed (.openPins pins)).pinLevel =
      ⟨s.levels.peek Config.freeLevel 0, s.levels.peek Config.freeLevel 1, s.levels.peek Config.freeLevel 2, .low⟩ := by
  simp [State.completed, tracePlan, openTrace, State.okRun, State.okStep, State.drive_eq, Supply.peek_rest]

/-- OPEN or CLOSE whose requests all succeed, in one record: the register keeps its contents. -/
theorem exec_lifecycle_completes {i : Instr} {s : State} (hi : isLifecycleOp i = true) (may : runsTrace s i)
    (hs : s.succeeds (requestCount (tracePlan s.params.indOrder i))) :
    exec i s = .next { s with
      life := (s.completed i).life
      pinId := (s.prepare i).pinId
      pinOpen := (tracePlan s.params.indOrder i).foldl opensAfter s.pinOpen
      pinLevel := (s.completed i).pinLevel
      active := none
      results := s.results ++ [.ok .none]
      trace := s.trace ++ tracePlan s.params.indOrder i
      calls := s.calls ++ (tracePlan s.params.indOrder i).flatMap (callOf (s.prepare i).pinId)
      answers := s.answers.drop (requestCount (tracePlan s.params.indOrder i))
      levels := (s.completed i).levels } := by
  obtain ⟨hsr, hq⟩ := State.completed_register_of_lifecycle hi s
  rw [exec_completes (isPure_of_lifecycle hi) may hs]
  congr 1
  apply State.ext
  case sr => exact hsr
  case q => exact hq
  all_goals simp

/-- Settles O34: OPEN leaves what `exec_lifecycle_completes` says, with all pins opened one by one and the levels of
`completed_open_pinLevel`. -/
theorem openOpensTheSerializer : Obligations.OpenOpensTheSerializer := by
  intro pins s hl hd hs
  have run := exec_lifecycle_completes (i := .openPins pins) rfl ⟨hl, hd⟩ hs
  rw [State.completed_open_life, State.completed_open_pinLevel] at run
  exact ⟨_, _, _, _, run⟩

/-- Settles O35: the three levels are the first three draws (`completed_open_pinLevel`), which a script may choose. -/
theorem openLeavesTheLevelsFree : Obligations.OpenLeavesTheLevelsFree := by
  intro pins s d c l hl hd hs
  exact ⟨⟨[d, c, l], 0⟩, _, exec_completes rfl ⟨hl, hd⟩ hs, State.completed_open_pinLevel _ pins⟩

/-- Settles O37: CLOSE leaves what `exec_lifecycle_completes` says, with all pins closed one by one. -/
theorem closeReleasesThePins : Obligations.CloseReleasesThePins := by
  intro ids s hl hids hs
  have run := exec_lifecycle_completes (i := .closePins) rfl hl hs
  rw [State.completed_close_life, State.prepare_close, hids, flatMap_callOf_some, ← hids] at run
  exact ⟨_, _, run⟩

theorem requestCount_of_requests {plan : List PinEvent} (h : plan.all PinEvent.isRequest = true) :
    requestCount plan = plan.length :=
  List.countP_eq_length.2 (List.all_eq_true.1 h)

theorem tracePlan_requests_of_lifecycle {i : Instr} (hi : isLifecycleOp i = true) (order : IndOrder) :
    (tracePlan order i).all PinEvent.isRequest = true := by
  cases i with
  | openPins _ | closePins => rfl
  | _ => cases hi

/-- The state after request number `n` of an operation, the first to fail. -/
def State.stoppedAt (s : State) (i : Instr) (n : Nat) (e : PinEvent) : State :=
  s.stopped i ((tracePlan s.params.indOrder i).take n) e

section StoppedAt
variable {i : Instr} {s : State} {n : Nat} {e : PinEvent} (hi : isLifecycleOp i = true)
  (hn : (tracePlan s.params.indOrder i)[n]? = some e)

include hn in
theorem tracePlan_take_succ :
    (tracePlan s.params.indOrder i).take (n + 1) = (tracePlan s.params.indOrder i).take n ++ [e] := by
  rw [List.take_add_one, hn]
  rfl

include hn in
theorem tracePlan_split_at :
    tracePlan s.params.indOrder i =
      (tracePlan s.params.indOrder i).take n ++ e :: (tracePlan s.params.indOrder i).drop (n + 1) := by
  obtain ⟨_, hget⟩ := List.getElem?_eq_some_iff.1 hn
  rw [← hget, List.cons_getElem_drop_succ, List.take_append_drop]

include hi

theorem State.stopped_life_of_lifecycle (before : List PinEvent) : (s.stopped i before e).life = .failed := by
  simp [State.stopped, State.abandonPlan_of_lifecycle hi]

include hn

theorem requestCount_take_of_lifecycle : requestCount ((tracePlan s.params.indOrder i).take n) = n := by
  have requests := List.all_eq_true.1 (tracePlan_requests_of_lifecycle hi s.params.indOrder)
  have hlt := (List.getElem?_eq_some_iff.1 hn).1
  rw [requestCount_of_requests, List.length_take, Nat.min_eq_left hlt.le]
  exact List.all_eq_true.2 fun d hd => requests d (List.mem_of_mem_take hd)

theorem isRequest_of_lifecycle : e.isRequest = true :=
  List.all_eq_true.1 (tracePlan_requests_of_lifecycle hi _) e (List.mem_of_getElem? hn)

/-- OPEN or CLOSE whose request number `n` is the first to fail, in one record (R136). -/
theorem exec_stoppedAt (may : runsTrace s i) (hs : s.succeeds n) (hb : s.answer n = false) :
    exec i s = .next { s with
      life := .failed
      pinId := (s.prepare i).pinId
      pinOpen := opensAfterFailed (((tracePlan s.params.indOrder i).take n).foldl opensAfter s.pinOpen) e
      pinLevel := (s.stoppedAt i n e).pinLevel
      active := none
      results := s.results ++ [.error (.hardwareIO e)]
      trace := s.trace ++ (tracePlan s.params.indOrder i).take (n + 1)
      calls := s.calls ++ ((tracePlan s.params.indOrder i).take (n + 1)).flatMap (callOf (s.prepare i).pinId)
      answers := s.answers.drop (n + 1)
      levels := (s.stoppedAt i n e).levels
      sr := (s.stoppedAt i n e).sr
      q := (s.stoppedAt i n e).q
      chains := (s.stoppedAt i n e).chains } := by
  have hcount := requestCount_take_of_lifecycle hi hn
  have he := isRequest_of_lifecycle hi hn
  rw [exec_stops (isPure_of_lifecycle hi) may (tracePlan_split_at hn) he (by rwa [hcount]) (by rwa [hcount]),
    tracePlan_take_succ hn]
  congr 1
  apply State.ext
  case life => exact State.stopped_life_of_lifecycle hi _
  case answers => rw [State.stopped_answers _ _ _ _ he, hcount]
  all_goals simp [State.stoppedAt]

end StoppedAt

/-- Settles O36: OPEN ends as `exec_stoppedAt` says; the pins opened before the failure are read off request by request,
and only request 4 is a write. -/
theorem openFailsAtTheFirstFailingRequest : Obligations.OpenFailsAtTheFirstFailingRequest := by
  intro pins s n e hl hclosed hd hn hs hb
  have hlt : n < 5 := (List.getElem?_eq_some_iff.1 hn).1
  have hpins : opensAfterFailed ((openTrace.take n).foldl opensAfter (PerPin.all false)) e =
      ⟨decide (0 < n), decide (1 < n), decide (2 < n), decide (3 < n)⟩ := by
    interval_cases n <;> cases hn <;> rfl
  have hwrite : n < 4 → ∀ p l, e ≠ .writeReq p l := by
    intro hn4
    interval_cases n <;> cases hn <;> simp
  let t := s.stoppedAt (.openPins pins) n e
  refine ⟨t.pinLevel, t.levels, t.sr, t.q, t.chains, ?_, fun h => ?_⟩
  · rw [exec_stoppedAt (i := .openPins pins) rfl hn ⟨hl, hd⟩ hs hb, hclosed, ← flatMap_callOf_some, ← hpins]
    rfl
  · exact State.stopped_register_of_lifecycle rfl s (tracePlan_split_at (i := .openPins pins) hn) (h.imp_left hwrite)

/-- Settles O38: CLOSE ends as `exec_stoppedAt` says; the pins whose close was requested are read off request by request,
and only request 0 is a write. -/
theorem closeFailsAtTheFirstFailingRequest : Obligations.CloseFailsAtTheFirstFailingRequest := by
  intro ids s n e hl hopen hids hn hs hb
  have hlt : n < 5 := (List.getElem?_eq_some_iff.1 hn).1
  have hpins : opensAfterFailed ((closeTrace.take n).foldl opensAfter (PerPin.all true)) e =
      ⟨decide (n < 1), decide (n < 2), decide (n < 3), decide (n < 4)⟩ := by
    interval_cases n <;> cases hn <;> rfl
  have hwrite : 0 < n → ∀ p l, e ≠ .writeReq p l := by
    intro hn0
    interval_cases n <;> cases hn <;> simp
  let t := s.stoppedAt .closePins n e
  refine ⟨t.pinLevel, t.levels, t.sr, t.q, t.chains, ?_, fun h => ?_⟩
  · rw [exec_stoppedAt (i := .closePins) rfl hn hl hs hb, hopen, ← flatMap_callOf_some, ← hids, ← hpins]
    rfl
  · exact State.stopped_register_of_lifecycle rfl s (tracePlan_split_at (i := .closePins) hn) (h.imp_left hwrite)

end Sys2Proof.Machine

namespace Sys2Proof.Machine

open Sys2Proof

/-! ### A failing write (60_exceptions.md R136 row 1) -/

/-- A request of a write operation is a write. -/
theorem writeReq_of_write {i : Instr} (hi : isWriteOp i = true) {order : IndOrder} {before after : List PinEvent}
    {e : PinEvent} (hp : tracePlan order i = before ++ e :: after) (he : e ≠ .wait) : ∃ p l, e = .writeReq p l :=
  (writesOnly_tracePlan hi order e (by simp [hp])).resolve_left he

/-- Settles O46: the write stops at its first failing request (`exec_stops`) and leaves the pins as `stopped_of_write`
says. -/
theorem failedWriteStopsThere : Obligations.FailedWriteStopsThere := by
  intro i s ids before after e hi hl hids hp he hs hb
  obtain ⟨hlife, hpins, hopen, hlevel⟩ := State.stopped_of_write hi s hp
  refine ⟨_, exec_stops (isPure_of_write hi) ((runsTrace_of_write hi s).2 hl) hp he hs hb, s.stopped_results i before e,
    hlife.trans hl, rfl, s.stopped_trace i before e, ?_, hlevel, hpins, hopen, s.stopped_params i before e,
    s.stopped_commands i before e, s.stopped_answers i before e he⟩
  rw [State.stopped_calls, State.prepare_of_write hi, hids, flatMap_callOf_some]

/-! ### Draws of the environment that a script chooses -/

section Script
variable {s : State} {chain outputs : List Bool} {d : Nat} (hc : s.chains = ⟨chain ++ outputs, d⟩)
  (hchain : chain.length = s.params.srLen) (houtputs : outputs.length = s.params.srLen)
include hc hchain houtputs

/-- The stages a script holds are those the register takes. -/
theorem State.drawRegister_script : s.drawRegister.sr = chain ∧ s.drawRegister.q = outputs := by
  constructor
  · exact State.drawnStages_script (before := []) (after := outputs) (by simpa using hc) hchain
  · rw [State.drawRegister_q, ← hchain]
    exact State.drawnStages_script (after := []) (by simpa using hc) houtputs

/-- After a failed ENABLE write of OPEN or CLOSE under R39's reading (log entry 18), the levels a script holds are those
the pins have, and its stages those the register has. -/
theorem State.lifecycleFailed_script {levels : PerPin Level} {k : Nat} {p : PinRole} {l : Level}
    (loses : s.params.failedEnableWrite = .losesRegister)
    (hl : s.levels = ⟨[levels.data, levels.clock, levels.latch, levels.enable], k⟩) :
    (s.lifecycleFailed (.writeReq p l)).sr = chain ∧ (s.lifecycleFailed (.writeReq p l)).q = outputs ∧
      (s.lifecycleFailed (.writeReq p l)).pinLevel = levels := by
  obtain ⟨hsr, hq, -⟩ := s.lifecycleFailed_loses (p := p) (l := l) loses
  obtain ⟨dsr, dq⟩ := State.drawRegister_script hc hchain houtputs
  refine ⟨hsr.trans dsr, hq.trans dq, ?_⟩
  simp [State.lifecycleFailed, State.drawAllLevels, hl, Supply.peek, Supply.rest]

end Script

/-- A failed write leaves a register and a level of the failing pin that a script chooses. -/
theorem State.stopped_write_script {i : Instr} (hi : isWriteOp i = true) {s : State} {before after : List PinEvent}
    {p : PinRole} {l level : Level} {chain outputs : List Bool} {c d : Nat}
    (hp : tracePlan s.params.indOrder i = before ++ .writeReq p l :: after)
    (hc : s.chains = ⟨chain ++ outputs, c⟩) (hchain : chain.length = s.params.srLen)
    (houtputs : outputs.length = s.params.srLen) (hlevel : s.levels = ⟨[level], d⟩) :
    (s.stopped i before (.writeReq p l)).sr = chain ∧ (s.stopped i before (.writeReq p l)).q = outputs ∧
      (s.stopped i before (.writeReq p l)).pinLevel.get p = level := by
  obtain ⟨-, hlevels, -⟩ := State.okRun_of_writes (s := s.beginOp i)
    (writesOnly_of_eq_append (writesOnly_tracePlan hi s.params.indOrder) hp)
  rw [State.stopped, State.prepare_of_write hi, State.abandonPlan_of_write hi]
  obtain ⟨hsr, hq⟩ := State.drawRegister_script
    (s := ((s.beginOp i).okRun before).badStep (.writeReq p l)) (by simpa using hc) (by simpa using hchain)
    (by simpa using houtputs)
  refine ⟨hsr, hq, ?_⟩
  simp [State.badStep, hlevels, hlevel, Supply.peek]

/-- A failed ENABLE write of OPEN leaves what a script chooses, after the five levels drawn by the events before. -/
theorem State.stopped_open_script {s : State} (pins : PinIds) {chain outputs : List Bool} {levels : PerPin Level}
    {c d : Nat} (loses : s.params.failedEnableWrite = .losesRegister) (hc : s.chains = ⟨chain ++ outputs, c⟩)
    (hchain : chain.length = s.params.srLen) (houtputs : outputs.length = s.params.srLen)
    (hl : s.levels = ⟨[.low, .low, .low, .low, .low, levels.data, levels.clock, levels.latch, levels.enable], d⟩) :
    let t := s.stopped (.openPins pins) (openTrace.take 4) (.writeReq .enable .low)
    t.sr = chain ∧ t.q = outputs ∧ t.pinLevel = levels := by
  have drawn : ((((s.prepare (.openPins pins)).beginOp (.openPins pins)).okRun (openTrace.take 4)).badStep
      (.writeReq .enable .low)).levels = ⟨[levels.data, levels.clock, levels.latch, levels.enable], d⟩ := by
    simp [openTrace, State.okStep, State.badStep, hl, Supply.rest]
  exact State.lifecycleFailed_script (by simpa using hc) (by simpa using hchain) (by simpa using houtputs)
    (by simpa using loses) drawn

/-- A failed ENABLE write of CLOSE leaves what a script chooses, after the level of its own. -/
theorem State.stopped_close_script {s : State} {chain outputs : List Bool} {levels : PerPin Level} {c d : Nat}
    (loses : s.params.failedEnableWrite = .losesRegister) (hc : s.chains = ⟨chain ++ outputs, c⟩)
    (hchain : chain.length = s.params.srLen) (houtputs : outputs.length = s.params.srLen)
    (hl : s.levels = ⟨[.low, levels.data, levels.clock, levels.latch, levels.enable], d⟩) :
    let t := s.stopped .closePins [] (.writeReq .enable .high)
    t.sr = chain ∧ t.q = outputs ∧ t.pinLevel = levels := by
  have drawn : (((s.prepare .closePins).beginOp .closePins).badStep (.writeReq .enable .high)).levels =
      ⟨[levels.data, levels.clock, levels.latch, levels.enable], d⟩ := by
    simp [State.badStep, hl, Supply.rest]
  exact State.lifecycleFailed_script (by simpa using hc) (by simpa using hchain) (by simpa using houtputs)
    (by simpa using loses) drawn

/-- Settles O47: whatever is asked for, a script of the environment's draws that holds it leads there
(`stopped_write_script`, `stopped_open_script`, `stopped_close_script`). -/
theorem failedWriteLeavesTheRegisterFree : Obligations.FailedWriteLeavesTheRegisterFree := by
  refine ⟨fun i s before after e p chain outputs level hi hl hchain houtputs hp hrole hs hb => ?write,
    fun pins s chain outputs levels hl hd loses hchain houtputs hs hb => ?opening,
    fun s chain outputs levels hl loses hchain houtputs hb => ?closing⟩
  case write =>
    obtain ⟨r, l, rfl⟩ := writeReq_of_write hi hp fun hwait => by simp [hwait, PinEvent.role] at hrole
    obtain rfl : r = p := by simpa [PinEvent.role] using hrole
    let u : State := { s with chains := ⟨chain ++ outputs, 0⟩, levels := ⟨[level], 0⟩ }
    exact ⟨u.chains, u.levels, u.stopped i before (.writeReq r l),
      exec_stops (s := u) (isPure_of_write hi) ((runsTrace_of_write hi u).2 hl) hp rfl hs hb,
      State.stopped_write_script (s := u) hi hp rfl hchain houtputs rfl⟩
  case opening =>
    let u : State := { s with
      chains := ⟨chain ++ outputs, 0⟩
      levels := ⟨[.low, .low, .low, .low, .low, levels.data, levels.clock, levels.latch, levels.enable], 0⟩ }
    exact ⟨u.chains, u.levels, _,
      exec_stops (s := u) (i := .openPins pins) (before := openTrace.take 4) (after := []) rfl ⟨hl, hd⟩ rfl rfl hs hb,
      State.stopped_open_script (s := u) pins loses rfl hchain houtputs rfl⟩
  case closing =>
    let u : State := { s with
      chains := ⟨chain ++ outputs, 0⟩
      levels := ⟨[.low, levels.data, levels.clock, levels.latch, levels.enable], 0⟩ }
    have nothingBefore : u.succeeds (requestCount []) := fun k hk => absurd hk (by simp)
    exact ⟨u.chains, u.levels, _,
      exec_stops (s := u) (i := .closePins) (before := []) (after := closeTrace.tail) rfl hl rfl rfl nothingBefore hb,
      State.stopped_close_script (s := u) loses rfl hchain houtputs rfl⟩

end Sys2Proof.Machine

namespace Sys2Proof

theorem Level.ofBit_eq_ite (b : Bool) : Level.ofBit b = if b then .high else .low := by
  cases b <;> rfl

@[simp] theorem length_stagesOf {w : Nat} (x : BitVec w) : (stagesOf x).length = w := by
  simp [stagesOf]

theorem reverse_stagesOf {w : Nat} (x : BitVec w) :
    (stagesOf x).reverse = (List.range w).map fun t => x.getLsbD (w - 1 - t) := by
  apply List.ext_getElem
  · simp
  · intro t _ _
    simp [stagesOf]

end Sys2Proof

namespace Sys2Proof.Machine

open Sys2Proof

/-! ### One completed write (44_serializer.md section 2) -/

/-- A completed write in one record, from the levels and the register its trace leaves. -/
theorem exec_write_completes {i : Instr} (hi : isWriteOp i = true) {s : State} {ids : PinIds} (hl : s.life = .opened)
    (hids : s.pinId = some ids) {plan : List PinEvent} (hp : tracePlan s.params.indOrder i = plan)
    (hs : s.succeeds (requestCount plan)) {levels : PerPin Level} {sr q : List Bool}
    (hlevels : levelsAfter s.pinLevel plan = levels) (hsr : (s.okRun plan).sr = sr) (hq : (s.okRun plan).q = q) :
    exec i s = .next { s with
      pinLevel := levels
      sr := sr
      q := q
      active := none
      results := s.results ++ [.ok .none]
      trace := s.trace ++ plan
      calls := s.calls ++ callsOf ids plan
      answers := s.answers.drop (requestCount plan) } := by
  subst hp hlevels hsr hq
  obtain ⟨esr, eq⟩ := State.okRun_env_congr (s := s.beginOp i) (t := s) rfl rfl rfl rfl
    (writesOnly_tracePlan hi s.params.indOrder)
  rw [exec_write_ok hi hl hs, esr, eq, hids, flatMap_callOf_some]

/-- Settles O40: the trace of one bit, its levels and its one edge. -/
theorem writeBitShiftsOneBit : Obligations.WriteBitShiftsOneBit := by
  intro level ids s hl hids hs
  obtain ⟨hsr, hq⟩ := s.okRun_bitTrace_env level
  exact exec_write_completes (i := .writeBit level) rfl hl hids rfl hs (levelsAfter_bitTrace _ level) hsr hq

/-- The register after the eight bits of a byte, from either level of CLOCK (R48, R152). -/
theorem State.okRun_byteTrace_env (s : State) (b : Byte) :
    (s.okRun (byteTrace b)).sr =
      (if s.pinLevel.clock = .low then (stagesOf b ++ s.sr).take s.params.srLen
        else ((stagesOf b).take 7 ++ s.sr).take s.params.srLen) ∧
    (s.okRun (byteTrace b)).q = s.q := by
  cases hc : s.pinLevel.clock with
  | low =>
    obtain ⟨hsr, hq⟩ := State.okRun_bits_env (byteBits b) hc
    refine ⟨?_, hq⟩
    rw [byteTrace, hsr, shiftBits_eq _ _ (by simp [byteBits]), reverse_byteBits, if_pos rfl]
  | high =>
    have lost : (byteBits b).tail.reverse = (stagesOf b).take 7 := by
      rw [← reverse_byteBits]
      rfl
    obtain ⟨hsr, hq⟩ := State.okRun_bits_env_high b[7] (byteBits b).tail hc
    refine ⟨?_, hq⟩
    rw [byteTrace, show byteBits b = b[7] :: (byteBits b).tail from rfl, hsr,
      shiftBits_eq _ _ (by simp [byteBits]), lost, if_neg (by simp)]

theorem levelsAfter_byteTrace (x : PerPin Level) (b : Byte) :
    levelsAfter x (byteTrace b) = { x with data := Level.ofBit b[0], clock := .low } :=
  levelsAfter_bitsTrace x [b[7], b[6], b[5], b[4], b[3], b[2], b[1]] b[0]

theorem byteTrace_eq_flatMap (b : Byte) :
    byteTrace b = [7, 6, 5, 4, 3, 2, 1, 0].flatMap fun k => bitTrace (if b.getLsbD k then .high else .low) := by
  simp [byteTrace, bitsTrace, byteBits, Level.ofBit_eq_ite, BitVec.getLsbD_eq_getElem]

/-- Settles O41: the trace of a byte, bit 7 first (`byteTrace_eq_flatMap`), its levels and the register it leaves
(`okRun_byteTrace_env`). -/
theorem writeByteShiftsEightBits : Obligations.WriteByteShiftsEightBits := by
  intro byte ids s hl hids hs events
  have hevents : byteTrace byte = events := byteTrace_eq_flatMap byte
  have hcount : requestCount events = 24 := hevents ▸ requestCount_byteTrace byte
  have hlevels := levelsAfter_byteTrace s.pinLevel byte
  obtain ⟨hsr, hq⟩ := s.okRun_byteTrace_env byte
  rw [Level.ofBit_eq_ite, ← BitVec.getLsbD_eq_getElem] at hlevels
  rw [hevents] at hlevels hsr hq
  have run := exec_write_completes (i := .writeByte byte) rfl hl hids hevents (by rwa [hcount]) hlevels hsr hq
  rwa [hcount] at run

/-- Settles O42: the trace of the latch pulse, its levels and its one edge. -/
theorem latchCopiesTheChain : Obligations.LatchCopiesTheChain := by
  intro ids s hl hids hs
  obtain ⟨hsr, hq⟩ := s.okRun_latchTrace_env
  exact exec_write_completes (i := .latch) rfl hl hids rfl hs (levelsAfter_latchTrace _) hsr hq

/-- Settles O43: the trace of a frame, its levels (`levelsAfter_frameTrace`) and the register it leaves
(`okRun_frameTrace_env`). -/
theorem writeFramePutsTheWireWord : Obligations.WriteFramePutsTheWireWord := by
  intro f ids s hl hids hs w chain
  have hcount := requestCount_frameTrace s.params.indOrder f
  have hlevels := levelsAfter_frameTrace s.pinLevel s.params.indOrder f
  obtain ⟨hsr, hq⟩ := s.okRun_frameTrace_env s.params.indOrder f
  rw [hsr] at hq
  refine ⟨fun hclock hlen => ?_, ?_⟩
  · show (if _ then _ else _) = _
    rw [if_pos hclock, hlen]
    exact List.take_left' (length_stagesOf w)
  · have run := exec_write_completes (i := .writeFrame f) rfl hl hids rfl (by rwa [tracePlan, hcount]) hlevels hsr hq
    rwa [tracePlan, hcount] at run

/-! ### The wire word (30_encoding.md R52, R53) -/

theorem toNat_append_eq_add {m n : Nat} (x : BitVec m) (y : BitVec n) :
    (x ++ y).toNat = x.toNat * 2 ^ n + y.toNat := by
  rw [BitVec.toNat_append, ← Nat.shiftLeft_add_eq_or_of_lt y.isLt, Nat.shiftLeft_eq]

theorem toNat_wireWord (order : IndOrder) (f : Frame) :
    (f.wireWord order).toNat = f.g2.toNat * 2 ^ 24 + f.g1.toNat * 2 ^ 16 + f.g0.toNat * 2 ^ 8 +
      (f.indicatorBits order).1.toNat * 4 + (f.indicatorBits order).2.1.toNat * 2 +
      (f.indicatorBits order).2.2.toNat := by
  simp only [Frame.wireWord, toNat_append_eq_add, BitVec.toNat_ofBool, BitVec.toNat_ofNat]
  omega

/-- A field of a word is read off its value. -/
theorem extractLsb'_eq_of_div_mod {w : Nat} (x : BitVec w) {start len : Nat} {y : BitVec len}
    (h : x.toNat / 2 ^ start % 2 ^ len = y.toNat) : x.extractLsb' start len = y := by
  apply BitVec.eq_of_toNat_eq
  rw [BitVec.extractLsb'_toNat, Nat.shiftRight_eq_div_pow, h]

/-- Settles O44: the value is the sum of the fields' weights (`toNat_wireWord`), which fixes the wide fields; the three
indicator bits are the last sent (`wireWord_getLsbD`). -/
theorem wireWordLayout : Obligations.WireWordLayout := by
  intro f order w
  have hw : w.toNat = _ := toNat_wireWord order f
  have h2 := f.g2.isLt
  have h1 := f.g1.isLt
  have h0 := f.g0.isLt
  have hfirst := Bool.toNat_le (f.indicatorBits order).1
  have hsecond := Bool.toNat_le (f.indicatorBits order).2.1
  have hthird := Bool.toNat_le (f.indicatorBits order).2.2
  have hbit (i : Nat) (hi : i < 32) : w.getLsbD i = _ := wireWord_getLsbD order f i hi
  refine ⟨?_, ?_, ?_, ?_, ?_, ?_, ?_, ?_⟩
  · apply extractLsb'_eq_of_div_mod
    omega
  · apply extractLsb'_eq_of_div_mod
    omega
  · apply extractLsb'_eq_of_div_mod
    omega
  · apply extractLsb'_eq_of_div_mod
    show _ = 0
    omega
  · rw [hbit 2 (by decide)]
    cases order <;> rfl
  · rw [hbit 1 (by decide)]
    cases order <;> rfl
  · rw [hbit 0 (by decide)]
    cases order <;> rfl
  · rw [hw]
    cases order <;> simp only [Frame.indicatorBits] <;> omega

theorem frameBits_eq_map (order : IndOrder) (f : Frame) :
    frameBits order f = (List.range 32).map fun t => (f.wireWord order).getLsbD (31 - t) := by
  rw [← List.reverse_reverse (frameBits order f), reverse_frameBits, reverse_stagesOf]

theorem count_wait_bitsTrace (bits : List Bool) : (bitsTrace bits).count .wait = 3 * bits.length := by
  induction bits with
  | nil => rfl
  | cons b bits ih =>
    have hb : bitsTrace (b :: bits) = bitTrace (Level.ofBit b) ++ bitsTrace bits := rfl
    rw [hb, List.count_append, ih, List.length_cons]
    simp [bitTrace]
    omega

/-- Settles O45: the trace of a frame is that of the wire word's bits from bit 31 down (`frameBits_eq_map`) and the latch
pulse; each bit has six events, three of them waits. -/
theorem frameTraceIsTheWireWordInOrder : Obligations.FrameTraceIsTheWireWordInOrder := by
  intro order f tWait
  refine ⟨?_, length_frameTrace order f, requestCount_frameTrace order f, ?_, fun l hl => ?_⟩
  · rw [frameTrace_eq, frameBits_eq_map, bitsTrace, List.flatMap_map]
    simp only [Level.ofBit_eq_ite]
    rfl
  · rw [waitBound, frameTrace_eq, List.count_append, count_wait_bitsTrace, length_frameBits, mul_comm]
    rfl
  · exact tracePlan_role_of_write (i := .writeFrame f) rfl hl rfl

end Sys2Proof.Machine

namespace Sys2Proof.Machine

open Sys2Proof

/-! ### Idle-low (44_serializer.md R122) -/

/-- CLOCK and LATCH are low whenever an event about DATA is next, from the levels before the events. -/
def idleAtData (levels : PerPin Level) : List PinEvent → Prop
  | [] => True
  | e :: more =>
    (e.role = some .data → levels.clock = .low ∧ levels.latch = .low) ∧ idleAtData (levelsAfter levels [e]) more

theorem idleAtData_append {levels : PerPin Level} {p r : List PinEvent} :
    idleAtData levels (p ++ r) ↔ idleAtData levels p ∧ idleAtData (levelsAfter levels p) r := by
  induction p generalizing levels with
  | nil => simp [idleAtData, levelsAfter]
  | cons e p ih =>
    have hlevels : levelsAfter levels (e :: p) = levelsAfter (levelsAfter levels [e]) p := levelsAfter_append levels [e] p
    rw [List.cons_append, idleAtData, idleAtData, ih, hlevels, and_assoc]

/-- The levels in which an event about DATA finds the pins. -/
theorem idleAtData_at {levels : PerPin Level} {before after : List PinEvent} {e : PinEvent}
    (h : idleAtData levels (before ++ e :: after)) (he : e.role = some .data) :
    (levelsAfter levels before).clock = .low ∧ (levelsAfter levels before).latch = .low :=
  (idleAtData_append.1 h).2.1 he

/-- Bits start idle-low, each after the other. -/
theorem idleAtData_bitsTrace {levels : PerPin Level} (hc : levels.clock = .low) (hl : levels.latch = .low)
    (bits : List Bool) :
    idleAtData levels (bitsTrace bits) ∧ (levelsAfter levels (bitsTrace bits)).clock = .low ∧
      (levelsAfter levels (bitsTrace bits)).latch = .low := by
  induction bits generalizing levels with
  | nil => exact ⟨trivial, hc, hl⟩
  | cons b bits ih =>
    have hb : bitsTrace (b :: bits) = bitTrace (Level.ofBit b) ++ bitsTrace bits := rfl
    have first : idleAtData levels (bitTrace (Level.ofBit b)) := by
      simp [bitTrace, idleAtData, levelsAfter, PinEvent.role, hc, hl]
    rw [hb, idleAtData_append, levelsAfter_append, levelsAfter_bitTrace]
    obtain ⟨rest, hclock, hlatch⟩ := ih (levels := { levels with data := Level.ofBit b, clock := .low }) rfl hl
    exact ⟨⟨first, rest⟩, hclock, hlatch⟩

theorem idleAtData_latchTrace (levels : PerPin Level) : idleAtData levels latchTrace := by
  simp [latchTrace, idleAtData, PinEvent.role]

/-- From idle-low every write has the pins idle-low at each DATA event and at its end. -/
theorem idleAtData_tracePlan {i : Instr} (hi : isWriteOp i = true) (order : IndOrder) {levels : PerPin Level}
    (hc : levels.clock = .low) (hl : levels.latch = .low) :
    idleAtData levels (tracePlan order i) ∧ (levelsAfter levels (tracePlan order i)).clock = .low ∧
      (levelsAfter levels (tracePlan order i)).latch = .low := by
  cases i with
  | writeBit l =>
    rw [tracePlan, bitTrace_eq_bitsTrace]
    exact idleAtData_bitsTrace hc hl [l.bit]
  | writeByte b => exact idleAtData_bitsTrace hc hl (byteBits b)
  | latch =>
    rw [tracePlan, levelsAfter_latchTrace]
    exact ⟨idleAtData_latchTrace levels, hc, rfl⟩
  | writeFrame f =>
    rw [tracePlan, levelsAfter_frameTrace, frameTrace_eq, idleAtData_append]
    exact ⟨⟨(idleAtData_bitsTrace hc hl _).1, idleAtData_latchTrace _⟩, rfl, rfl⟩
  | _ => cases hi

/-- A write that completed ran its whole trace. -/
theorem exec_write_returned {i : Instr} (hi : isWriteOp i = true) {s t : State} (hx : exec i s = .next t)
    (hr : t.results = s.results ++ [.ok .none]) : t = s.completed i := by
  cases exec_execNext hx with
  | returns v h =>
    rcases h with h | ⟨rfl, -⟩
    · simp [isPure_of_write hi] at h
    · cases hi
  | rejects b => simp at hr
  | runs => rfl
  | fails => simp at hr

/-- A write that failed at a request stopped there. -/
theorem exec_write_raised {i : Instr} {s t : State} {e : PinEvent} (hx : exec i s = .next t)
    (hr : t.results = s.results ++ [.error (.hardwareIO e)]) :
    ∃ before after, tracePlan s.params.indOrder i = before ++ e :: after ∧ t = s.stopped i before e := by
  cases exec_execNext hx with
  | returns v => simp at hr
  | rejects b => simp at hr
  | runs => simp at hr
  | fails _ _ before after d hp =>
    obtain rfl : d = e := by simpa using hr
    exact ⟨before, after, hp, rfl⟩

/-- Settles O49: a completed write leaves the levels of its trace; a write that fails at DATA leaves CLOCK and LATCH as
its events before left them, and those found the pins idle-low (`idleAtData_tracePlan`). -/
theorem idleLowIsKept : Obligations.IdleLowIsKept := by
  refine ⟨fun l s t hx hr => ?_, fun s t hx hr => ?_, fun i s t hi hidle hx hr => ?_⟩
  · obtain ⟨-, -, -, hlevel⟩ := State.completed_of_write (i := .writeBit l) rfl s
    rw [exec_write_returned rfl hx hr, hlevel, tracePlan, levelsAfter_bitTrace]
    exact ⟨rfl, rfl⟩
  · obtain ⟨-, -, -, hlevel⟩ := State.completed_of_write (i := .latch) rfl s
    rw [exec_write_returned rfl hx hr, hlevel, tracePlan, levelsAfter_latchTrace]
    exact ⟨rfl, rfl⟩
  · obtain ⟨hdata, hclock, hlatch⟩ := idleAtData_tracePlan hi s.params.indOrder hidle.1 hidle.2
    rcases hr with hr | ⟨l, hr⟩
    · obtain ⟨-, -, -, hlevel⟩ := State.completed_of_write hi s
      rw [exec_write_returned hi hx hr, State.idleLow, hlevel]
      exact ⟨hclock, hlatch⟩
    · obtain ⟨before, after, hp, rfl⟩ := exec_write_raised hx hr
      obtain ⟨-, -, -, hlevel⟩ := State.stopped_of_write hi s hp
      obtain ⟨kclock, klatch⟩ := idleAtData_at (hp ▸ hdata) rfl
      exact ⟨(hlevel .clock (by simp [PinEvent.role])).trans kclock,
        (hlevel .latch (by simp [PinEvent.role])).trans klatch⟩

/-! ### Several writes (70_reset_and_hazards.md section 2) -/

/-- The state after `n` completed writes whose events together are `plan`. -/
def State.afterWrites (s : State) (n : Nat) (plan : List PinEvent) : State :=
  { s with
    pinLevel := levelsAfter s.pinLevel plan
    sr := (s.okRun plan).sr
    q := (s.okRun plan).q
    active := none
    results := s.results ++ List.replicate n (.ok .none)
    trace := s.trace ++ plan
    calls := s.calls ++ plan.flatMap (callOf s.pinId)
    answers := s.answers.drop (requestCount plan) }

section AfterWrites
variable (s : State) (n : Nat) (plan : List PinEvent)
@[simp] theorem State.afterWrites_params : (s.afterWrites n plan).params = s.params := rfl
@[simp] theorem State.afterWrites_life : (s.afterWrites n plan).life = s.life := rfl
@[simp] theorem State.afterWrites_pinId : (s.afterWrites n plan).pinId = s.pinId := rfl
@[simp] theorem State.afterWrites_commands : (s.afterWrites n plan).commands = s.commands := rfl
@[simp] theorem State.afterWrites_pinLevel : (s.afterWrites n plan).pinLevel = levelsAfter s.pinLevel plan := rfl
@[simp] theorem State.afterWrites_sr : (s.afterWrites n plan).sr = (s.okRun plan).sr := rfl
@[simp] theorem State.afterWrites_q : (s.afterWrites n plan).q = (s.okRun plan).q := rfl
@[simp] theorem State.afterWrites_results :
    (s.afterWrites n plan).results = s.results ++ List.replicate n (.ok .none) := rfl
@[simp] theorem State.afterWrites_trace : (s.afterWrites n plan).trace = s.trace ++ plan := rfl
@[simp] theorem State.afterWrites_answers :
    (s.afterWrites n plan).answers = s.answers.drop (requestCount plan) := rfl

/-- How many operations made the events shows in the results only. -/
theorem State.afterWrites_eq (m : Nat) :
    s.afterWrites m plan = { s.afterWrites n plan with results := s.results ++ List.replicate m (.ok .none) } := rfl
end AfterWrites

theorem execAll_writes_complete {ops : List Instr} (hw : ∀ i ∈ ops, isWriteOp i = true) (hne : ops ≠ []) {s : State}
    (hl : s.life = .opened) {plan : List PinEvent} (hp : ops.flatMap (tracePlan s.params.indOrder) = plan)
    (hs : s.succeeds (requestCount plan)) : execAll ops s = .next (s.afterWrites ops.length plan) := by
  subst hp
  rw [execAll_writes_ok hw hl rfl hs, if_neg hne]
  rfl

/-- The wire word of the second of two frames stands in the chain and on the outputs, whatever the levels before the
first (R121, R152). -/
theorem State.okRun_two_frames (s : State) (order : IndOrder) (f g : Frame) :
    ∃ old, (s.okRun (frameTrace order f ++ frameTrace order g)).sr =
        (stagesOf (g.wireWord order) ++ old).take s.params.srLen ∧
      (s.okRun (frameTrace order f ++ frameTrace order g)).q =
        (s.okRun (frameTrace order f ++ frameTrace order g)).sr := by
  have hlevels := (State.okRun_of_writes (s := s) (writesOnly_frameTrace order f)).2.2
  rw [levelsAfter_frameTrace] at hlevels
  obtain ⟨hsr, hq⟩ := (s.okRun (frameTrace order f)).okRun_frameTrace_env order g
  rw [hlevels, if_pos rfl] at hsr hq
  rw [State.okRun_append]
  exact ⟨_, by simpa using hsr, hq⟩

section Frames
variable {s : State} (hl : s.life = .opened) (f g : Frame)
include hl

/-- The state after two completed writes of frames. -/
theorem execAll_two_frames (hs : s.succeeds 196) :
    execAll [.writeFrame f, .writeFrame g] s =
      .next (s.afterWrites 2 (frameTrace s.params.indOrder f ++ frameTrace s.params.indOrder g)) :=
  execAll_writes_complete (ops := [.writeFrame f, .writeFrame g]) (by simp [isWriteOp]) (by simp) hl
    (by simp [tracePlan]) (by simpa [requestCount_append] using hs)

theorem execAll_one_frame (hs : s.succeeds 98) :
    execAll [.writeFrame f] s = .next (s.afterWrites 1 (frameTrace s.params.indOrder f)) :=
  execAll_writes_complete (ops := [.writeFrame f]) (by simp [isWriteOp]) (by simp) hl (by simp [tracePlan])
    (by simpa using hs)

end Frames

/-- What two completed writes of frames leave on the display's side. -/
theorem State.afterWrites_two_frames (s : State) (order : IndOrder) (f g : Frame) :
    let t := s.afterWrites 2 (frameTrace order f ++ frameTrace order g)
    t.pinLevel = { s.pinLevel with data := Level.ofBit g.red, clock := .low, latch := .low } ∧
      ∃ old, t.sr = (stagesOf (g.wireWord order) ++ old).take s.params.srLen ∧ t.q = t.sr := by
  simp only [State.afterWrites_pinLevel, State.afterWrites_sr, State.afterWrites_q, levelsAfter_append,
    levelsAfter_frameTrace]
  exact ⟨trivial, s.okRun_two_frames order f g⟩

theorem State.display_of_enable_low {s : State} (h : s.pinLevel.enable = .low) : s.display = some s.q := by
  rw [State.display, h]

/-- Settles O50: the levels and the register after two frame writes (`afterWrites_two_frames`). -/
theorem secondFrameIsExact : Obligations.SecondFrameIsExact := by
  intro f g s hl hs w
  obtain ⟨hlevels, old, hsr, hq⟩ := s.afterWrites_two_frames s.params.indOrder f g
  refine ⟨_, old, execAll_two_frames hl f g hs, hsr, fun hlen => ?_, hq, ?_, ?_, fun henable => ?_⟩
  · rw [hsr]
    exact List.take_append_of_le_length (hlen.trans_eq (length_stagesOf _).symm)
  · rw [State.idleLow, hlevels]
    exact ⟨rfl, rfl⟩
  · rw [hlevels]
  · rw [State.display_of_enable_low (by rw [hlevels, henable]), hq]

/-- The operations that send a frame by hand (95_test_vectors.md P3). -/
def byHandOps (order : IndOrder) (f : Frame) : List Instr :=
  [.writeByte f.g2, .writeByte f.g1, .writeByte f.g0, .writeBit .low, .writeBit .low, .writeBit .low, .writeBit .low,
    .writeBit .low, .writeBit (Level.ofBit (f.indicatorBits order).1), .writeBit (Level.ofBit (f.indicatorBits order).2.1),
    .writeBit (Level.ofBit (f.indicatorBits order).2.2), .latch]

theorem flatMap_byHandOps (order : IndOrder) (f : Frame) :
    (byHandOps order f).flatMap (tracePlan order) = frameTrace order f := by
  simp [byHandOps, tracePlan, frameTrace, bitsTrace, Level.ofBit]

/-- Settles O51: the twelve operations and WRITE_FRAME make the same trace (`flatMap_byHandOps`), so their ends differ
in the number of results only. -/
theorem frameByHandEqualsWriteFrame : Obligations.FrameByHandEqualsWriteFrame := by
  intro f s hl hs
  have byHand : execAll (byHandOps s.params.indOrder f) s =
      .next (s.afterWrites 12 (frameTrace s.params.indOrder f)) :=
    execAll_writes_complete (by simp [byHandOps, isWriteOp]) (by simp [byHandOps]) hl
      (flatMap_byHandOps s.params.indOrder f) (by simpa using hs)
  exact ⟨_, _, byHand, execAll_one_frame hl f hs, s.afterWrites_eq 1 _ 12⟩

theorem execAll_cons {i : Instr} {s t : State} (h : exec i s = .next t) (more : List Instr) :
    execAll (i :: more) s = execAll more t := by
  rw [execAll, h]

theorem State.completed_close_pinOpen (s : State) : (s.completed .closePins).pinOpen = PerPin.all false := by
  rw [State.completed_pinOpen]
  rfl

/-- An open serializer with ENABLE low that is given a frame twice shows it, and keeps it through CLOSE. -/
theorem frame_twice_then_close {s : State} (hl : s.life = .opened) (henable : s.pinLevel.enable = .low) (f : Frame)
    (hs : s.succeeds 201) :
    ∃ (t u : State) (old : List Bool),
      execAll [.writeFrame f, .writeFrame f] s = .next t ∧ t.life = .opened ∧
      t.display = some ((stagesOf (f.wireWord s.params.indOrder) ++ old).take s.params.srLen) ∧
      exec .closePins t = .next u ∧ u.life = .closed ∧ u.pinOpen = PerPin.all false ∧
      u.q = (stagesOf (f.wireWord s.params.indOrder) ++ old).take s.params.srLen ∧ u.sr = u.q ∧
      u.trace = s.trace ++ (frameTrace s.params.indOrder f ++ (frameTrace s.params.indOrder f ++ closeTrace)) ∧
      u.results = s.results ++ List.replicate 3 (.ok .none) ∧ u.params = s.params ∧ u.commands = s.commands := by
  obtain ⟨hlevels, old, hsr, hq⟩ := s.afterWrites_two_frames s.params.indOrder f f
  have frames := execAll_two_frames hl f f (State.succeeds_mono hs (by decide))
  set t := s.afterWrites 2 (frameTrace s.params.indOrder f ++ frameTrace s.params.indOrder f) with ht
  have isOpen : t.life = .opened := hl
  have closable : t.succeeds 5 := State.succeeds_of_answers (m := 196) hs (by simp [ht, requestCount_append])
  have hdisplay := State.display_of_enable_low (s := t) (by rw [hlevels, henable])
  obtain ⟨ksr, kq⟩ := State.completed_register_of_lifecycle (i := .closePins) rfl t
  refine ⟨t, t.completed .closePins, old, frames, isOpen, by rw [hdisplay, hq, hsr],
    exec_completes (i := .closePins) rfl isOpen closable, t.completed_close_life, t.completed_close_pinOpen,
    by rw [kq, hq, hsr], by rw [ksr, kq, hq], ?_, ?_, ?_, ?_⟩
  · simp [ht, tracePlan]
  · simp [ht, List.replicate]
  · simp [ht]
  · simp [ht]

/-- Settles O52: OPEN runs its trace (`exec_completes`), and the frames and CLOSE follow (`frame_twice_then_close`). -/
theorem sessionShowsTheFrame : Obligations.SessionShowsTheFrame := by
  intro pins f s hl hd hs w
  have opening : exec (.openPins pins) s = .next (s.completed (.openPins pins)) :=
    exec_completes rfl ⟨hl, hd⟩ (State.succeeds_mono hs (show 5 ≤ 206 by decide))
  have later : (s.completed (.openPins pins)).succeeds 201 :=
    State.succeeds_of_answers (m := 5) hs (s.completed_answers (.openPins pins))
  obtain ⟨t, u, old, frames, tOpen, tShown, closing, uClosed, uPins, uq, usr, utrace, uresults, uparams, ucommands⟩ :=
    frame_twice_then_close (s.completed_open_life pins) (s.completed_open_enable pins) f later
  simp only [State.completed_params, State.completed_trace, State.completed_results, State.completed_commands]
    at tShown uq utrace uresults uparams ucommands
  refine ⟨t, u, old, (execAll_cons opening _).trans frames, tOpen, tShown, closing, uClosed, uPins, uq, usr,
    fun hlen => ?_, ?_, ?_, uparams, ucommands⟩
  · rw [uq, hlen]
    exact List.take_left' (length_stagesOf _)
  · rw [utrace]
    simp [tracePlan]
  · rw [uresults]
    simp [List.replicate]

end Sys2Proof.Machine

namespace Sys2Proof

open Machine

/-! ### FRAC_DIGITS as the source's scan (40_digit_arithmetic.md R72) -/

/-- `least` is the number of decimal places the fraction `num / den` needs. -/
def PlacesOf (den num least : Nat) : Prop := num < den ∧ ∀ n, least ≤ n ↔ den ∣ num * 10 ^ n

namespace PlacesOf
variable {den num least : Nat} (h : PlacesOf den num least)
include h

theorem eq_zero_iff : least = 0 ↔ num = 0 := by
  obtain ⟨hlt, hleast⟩ := h
  rw [← Nat.le_zero, hleast, pow_zero, mul_one]
  exact ⟨fun hd => Nat.eq_zero_of_dvd_of_lt hd hlt, fun h0 => h0 ▸ dvd_zero den⟩

/-- One step of the scan takes one place off. -/
theorem next (hnum : num ≠ 0) : PlacesOf den (num * 10 % den) (least - 1) := by
  have hpos : least ≠ 0 := fun h0 => hnum (h.eq_zero_iff.1 h0)
  obtain ⟨hlt, hleast⟩ := h
  refine ⟨Nat.mod_lt _ (by omega), fun n => ?_⟩
  have hmod : den ∣ num * 10 % den * 10 ^ n ↔ den ∣ num * 10 * 10 ^ n :=
    ((Nat.mod_modEq (num * 10) den).mul_right (10 ^ n)).dvd_iff dvd_rfl
  rw [hmod, mul_assoc, ← pow_succ', ← hleast]
  omega

/-- The scan adds the places to what it has counted and to the zeros it holds back. -/
theorem scanFraction_eq {fuel : Nat} (hfuel : least ≤ fuel) (count zeros : Nat) :
    scanFraction den fuel num count zeros = if num = 0 then count else count + zeros + least := by
  induction fuel generalizing num least count zeros with
  | zero =>
    have hnum : num = 0 := h.eq_zero_iff.1 (by omega)
    rw [scanFraction, if_pos hnum]
  | succ fuel ih =>
    rw [scanFraction]
    split
    case isTrue hnum => rfl
    case isFalse hnum =>
      have hpos : least ≠ 0 := fun h0 => hnum (h.eq_zero_iff.1 h0)
      have hnext := (h.next hnum).eq_zero_iff
      have hstep := Nat.div_add_mod (num * 10) den
      rw [ih (h.next hnum) (by omega), ih (h.next hnum) (by omega)]
      split
      case isTrue hdigit =>
        rw [hdigit, mul_zero] at hstep
        rw [if_neg (by omega)]
        omega
      case isFalse hdigit =>
        split <;> omega

end PlacesOf

theorem Decimal.placesOf_fracNum (v : Decimal) : PlacesOf (10 ^ v.scale) v.fracNum v.fracDigits := by
  refine ⟨Nat.mod_lt _ (by positivity), fun n => ?_⟩
  have hmod : 10 ^ v.scale ∣ v.fracNum * 10 ^ n ↔ 10 ^ v.scale ∣ v.coeff * 10 ^ n :=
    ((Nat.mod_modEq v.coeff (10 ^ v.scale)).mul_right (10 ^ n)).dvd_iff dvd_rfl
  rw [hmod, Decimal.fracDigits, stripZeros_le_iff]

theorem Decimal.fracDigitsScan_eq (v : Decimal) : v.fracDigitsScan = v.fracDigits := by
  have places := v.placesOf_fracNum
  have hscale : v.fracDigits ≤ v.scale := (stripZeros_le_iff _ _ _).2 (dvd_mul_left _ _)
  have hzero := places.eq_zero_iff
  rw [Decimal.fracDigitsScan, places.scanFraction_eq hscale]
  split <;> omega

/-! ### DIGIT_AT in exact arithmetic (40_digit_arithmetic.md R73) -/

/-- The digit at a position left of the point or at the units. -/
theorem Decimal.digitAt_ofNat (v : Decimal) (hv : 0 ≤ v.val) (k : Nat) :
    ((v.digitAt (Int.ofNat k) : Nat) : Int) = ⌊(⌊v.val⌋ : ℚ) / 10 ^ k⌋ % 10 := by
  have quotient : ⌊(⌊v.val⌋ : ℚ) / 10 ^ k⌋ = ((v.floor / 10 ^ k : Nat) : Int) := by
    rw [Decimal.floor_val hv, ← floor_natDiv]
    push_cast
    rfl
  rw [quotient]
  rfl

theorem Decimal.fract_val {v : Decimal} (hv : 0 ≤ v.val) : Int.fract v.val = (v.fracNum : ℚ) / 10 ^ v.scale := by
  have := Int.fract_div_natCast_eq_div_natCast_mod (k := ℚ) (m := v.coeff) (n := 10 ^ v.scale)
  rw [Decimal.val_of_nonneg hv]
  exact_mod_cast this

/-- The digit at a position right of the point. -/
theorem Decimal.digitAt_negSucc (v : Decimal) (hv : 0 ≤ v.val) (k : Nat) :
    ((v.digitAt (Int.negSucc k) : Nat) : Int) = ⌊Int.fract v.val * 10 ^ (k + 1)⌋ % 10 := by
  have quotient : ⌊Int.fract v.val * 10 ^ (k + 1)⌋ = ((v.fracNum * 10 ^ (k + 1) / 10 ^ v.scale : Nat) : Int) := by
    rw [Decimal.fract_val hv, ← floor_natDiv, div_mul_eq_mul_div]
    push_cast
    rfl
  rw [quotient]
  rfl

/-- The value of a rounded number (R74). -/
theorem roundDec_val (mode : RoundMode) (q : Decimal) (n : Nat) :
    (roundDec mode q n).val = (roundedNum mode q n : ℚ) / 10 ^ n := by
  simp [roundDec, Decimal.val]

end Sys2Proof

namespace Sys2Proof.Machine

open Sys2Proof

/-- Settles O7: the number of digits of `v.floor` (`intDigits_spec`), which is the floor of the value (`floor_val`). -/
theorem intDigitsCountsTheIntegerPart : Obligations.IntDigitsCountsTheIntegerPart := by
  intro v s hv
  obtain ⟨hpos, hlt, hzero, hge⟩ := v.intDigits_spec
  rw [Decimal.floor_val hv]
  refine ⟨v.intDigits, returnsOnly_intDigits (Decimal.isNegative_eq_false hv) rfl, hpos, ?_, fun h => ?_, fun h => ?_⟩
  · exact_mod_cast hlt
  · exact hzero (by exact_mod_cast h)
  · exact_mod_cast hge (by exact_mod_cast h)

/-- Settles O8: a number of places holds the value exactly when it is at least `v.fracDigits` (`fitsIn_iff`), and the
scan counts as many (`fracDigitsScan_eq`). -/
theorem fracDigitsIsTheLeastExactScale : Obligations.FracDigitsIsTheLeastExactScale := by
  intro v s hv
  exact ⟨v.fracDigits, returnsOnly_fracDigits (Decimal.isNegative_eq_false hv) rfl, (fitsIn_iff v _).2 le_rfl,
    fun m => (fitsIn_iff v m).1, v.fracDigitsScan_eq.symm⟩

/-- Settles O9: by the sign of the index (`digitAt_ofNat`, `digitAt_negSucc`). -/
theorem digitAtReadsTheDecimalExpansion : Obligations.DigitAtReadsTheDecimalExpansion := by
  intro v i s hv
  refine ⟨v.digitAt i, returnsOnly_digitAt (Decimal.isNegative_eq_false hv) rfl, fun hi => ?_, fun hi => ?_⟩
  · obtain ⟨k, rfl⟩ := Int.eq_ofNat_of_zero_le hi
    exact v.digitAt_ofNat hv k
  · obtain ⟨k, rfl⟩ := Int.eq_negSucc_of_lt_zero hi
    exact v.digitAt_negSucc hv k

/-- Settles O10: each of the three looks at the sign first (R75). -/
theorem negativeOperandsRefused : Obligations.NegativeOperandsRefused := by
  intro v i s hv
  have negative : v.isNegative = true := v.isNegative_iff.2 hv
  exact ⟨if_pos negative, if_pos negative, if_pos negative⟩

/-! ### What FMT_DECIMAL answers for a value in range (43_frame_format.md R103, R105) -/

section FmtDecimalInRange
variable {v w : Decimal} {ind : BitVec 2} {s : State}

theorem raisesOnly_fmtDecimal_of_indicator (hind : ind = 3) :
    raisesOnly (.fmtDecimal v ind) s (.invalidArgument (.indicator ind)) := by
  show execFmtDecimal v ind s = .next (s.raise _)
  exact if_pos hind

/-- The window of a value that needs rounding. -/
def Shown.rounded (mode : RoundMode) (v : Decimal) : Shown :=
  ⟨⟨false, roundedNum mode v.abs (3 - v.intDigits), 3 - v.intDigits⟩, v.intDigits, 3 - v.intDigits⟩

section InRange
variable (hind : ind ≠ 3) (hv : |v.val| ≤ 999)
include hind hv

theorem execFmtDecimal_of_fits (hfits : v.intDigits + v.fracDigits ≤ 3) :
    execFmtDecimal v ind s =
      .next (s.complete (.frame (Shown.frame ⟨v.abs, v.intDigits, v.fracDigits⟩ s.params v.isNegative ind))) :=
  returnsOnly_fmtDecimal_of_fits hind (Decimal.outOfRange_eq_false hv) rfl rfl hfits rfl

variable (hlong : 3 < v.intDigits + v.fracDigits)
include hlong

theorem execFmtDecimal_of_carry (hcarry : 1000 ≤ roundedNum s.params.roundMode v.abs (3 - v.intDigits)) :
    execFmtDecimal v ind s = .refused .roundingCarry := by
  have shown : shownDecimal s.params.roundMode v = none := by
    rw [shownDecimal_eq _ hv, if_pos hlong, if_pos hcarry]
  rw [execFmtDecimal, if_neg hind, Decimal.outOfRange_eq_false hv, shown]
  rfl

theorem execFmtDecimal_of_rounds (hround : ¬ 1000 ≤ roundedNum s.params.roundMode v.abs (3 - v.intDigits)) :
    execFmtDecimal v ind s =
      .next (s.complete (.frame ((Shown.rounded s.params.roundMode v).frame s.params v.isNegative ind))) := by
  have shown : shownDecimal s.params.roundMode v = some (Shown.rounded s.params.roundMode v) := by
    rw [shownDecimal_eq _ hv, if_pos hlong, if_neg hround]
    rfl
  rw [execFmtDecimal, if_neg hind, Decimal.outOfRange_eq_false hv, shown]
  rfl

end InRange

/-- It depends on the value (R70). -/
theorem execFmtDecimal_congr (h : v.val = w.val) (hv : |v.val| ≤ 999) (ind : BitVec 2) (s : State) :
    execFmtDecimal v ind s = execFmtDecimal w ind s := by
  have habs : |v.val| = |w.val| := congrArg _ h
  have hw : |w.val| ≤ 999 := habs ▸ hv
  have hmagnitude : |v.abs.val| = |w.abs.val| := by rw [v.abs_abs_val, w.abs_abs_val, habs]
  have sign := Decimal.isNegative_congr h
  have hid := Decimal.intDigits_congr habs
  have hfd := Decimal.fracDigits_congr habs
  have hround : roundedNum s.params.roundMode v.abs (3 - v.intDigits) =
      roundedNum s.params.roundMode w.abs (3 - w.intDigits) := by rw [hid, roundedNum_congr _ _ hmagnitude]
  by_cases hind : ind = 3
  · simp only [execFmtDecimal, if_pos hind]
  · rcases Nat.lt_or_ge 3 (v.intDigits + v.fracDigits) with hlong | hfits
    · by_cases hcarry : 1000 ≤ roundedNum s.params.roundMode v.abs (3 - v.intDigits)
      · rw [execFmtDecimal_of_carry hind hv hlong hcarry,
          execFmtDecimal_of_carry hind hw (hid ▸ hfd ▸ hlong) (hround ▸ hcarry)]
      · rw [execFmtDecimal_of_rounds hind hv hlong hcarry,
          execFmtDecimal_of_rounds hind hw (hid ▸ hfd ▸ hlong) (hround ▸ hcarry), Shown.rounded, Shown.rounded, hround,
          hid, sign]
    · rw [execFmtDecimal_of_fits hind hv hfits, execFmtDecimal_of_fits hind hw (hid ▸ hfd ▸ hfits), hid, hfd, sign,
        Shown.frame_congr hmagnitude]

end FmtDecimalInRange

/-- Settles O11: the sign, the digit counts, the digits and the rounded magnitude each depend on the value only. -/
theorem decimalOperationsDependOnTheValueOnly : Obligations.DecimalOperationsDependOnTheValueOnly := by
  intro v w i ind s h
  have habs : |v.val| = |w.val| := congrArg _ h
  have sign := Decimal.isNegative_congr h
  refine ⟨?_, ?_, ?_, fun hv => execFmtDecimal_congr h hv ind s⟩
  · simp only [exec, execIntDigits, sign, Decimal.intDigits_congr habs]
  · simp only [exec, execFracDigits, sign, Decimal.fracDigits_congr habs]
  · simp only [exec, execDigitAt, sign, Decimal.digitAt_congr habs]

/-- Settles O13: `roundedNum` is nearest, with the tie rule (`roundedNum_spec`). -/
theorem roundDecIsNearest : Obligations.RoundDecIsNearest := by
  intro mode q n hq
  have nearest := roundedNum_spec mode q n
  rw [abs_of_nonneg hq] at nearest
  exact ⟨roundedNum mode q n, roundDec_val mode q n, nearest⟩

end Sys2Proof.Machine

namespace Sys2Proof.Machine

open Sys2Proof

/-! ### FMT_DECIMAL over all values (43_frame_format.md section 2) -/

/-- Settles O26: the indicator is looked at first, then the range. -/
theorem fmtDecimalRejectsBeforeFormatting : Obligations.FmtDecimalRejectsBeforeFormatting := by
  intro v ind s
  exact ⟨raisesOnly_fmtDecimal_of_indicator,
    fun hind hv => raisesOnly_fmtDecimal_of_outOfRange hind (v.outOfRange_iff.2 hv)⟩

/-- Settles O27: a value in range is refused exactly when it needs rounding and the rounded number has a fourth digit,
and that is the carry of R105 (`carry_iff`). -/
theorem fmtDecimalRefusedExactlyOnCarry : Obligations.FmtDecimalRefusedExactlyOnCarry := by
  intro v ind s hind hv
  rw [← carry_iff s.params.roundMode hv]
  show execFmtDecimal v ind s = _ ↔ _
  rcases Nat.lt_or_ge 3 (v.intDigits + v.fracDigits) with hlong | hfits
  · by_cases hcarry : 1000 ≤ roundedNum s.params.roundMode v.abs (3 - v.intDigits)
    · simp [execFmtDecimal_of_carry hind hv hlong hcarry, hlong, hcarry]
    · simp [execFmtDecimal_of_rounds hind hv hlong hcarry, hcarry]
  · simp [execFmtDecimal_of_fits hind hv hfits, hfits]

/-- What a window of `id` integer and `fd` fractional digits that holds `m` says of the value `q` (R103 steps 3, 4). -/
structure ShowsValue (mode : RoundMode) (q : ℚ) (id fd m : Nat) : Prop where
  size : 1 ≤ id ∧ id + fd ≤ 3 ∧ |q| < 10 ^ id ∧ (1 < id → 10 ^ (id - 1) ≤ |q|)
  number : (m = |q| * 10 ^ fd ∧ ∀ e < fd, ¬ fitsIn q e) ∨
    (fd = 3 - id ∧ (∀ e ≤ fd, ¬ fitsIn q e) ∧ |(m : ℚ) - |q| * 10 ^ fd| ≤ 1 / 2 ∧
      (|(m : ℚ) - |q| * 10 ^ fd| = 1 / 2 →
        (mode = .halfUp → |q| * 10 ^ fd < m) ∧ (mode = .halfEven → m % 2 = 0)))

section Window
variable {v : Decimal} {m : Nat}

/-- Three digits hold the value exactly. -/
theorem showsValue_of_fits (mode : RoundMode) (hfits : v.intDigits + v.fracDigits ≤ 3)
    (hm : m * 10 ^ v.scale = v.coeff * 10 ^ v.fracDigits) :
    ShowsValue mode v.val v.intDigits v.fracDigits m where
  size := ⟨v.intDigits_spec.1, hfits, v.intDigits_abs.1, v.intDigits_abs.2⟩
  number := by
    refine .inl ⟨?_, fun e he hfit => absurd ((fitsIn_iff v e).1 hfit) (not_le.2 he)⟩
    rw [v.abs_val, div_mul_eq_mul_div, eq_div_iff (by positivity)]
    exact_mod_cast hm

/-- Three digits do not, and the value is rounded to those there is room for. -/
theorem showsValue_of_rounds (mode : RoundMode) (hv : |v.val| ≤ 999) (hlong : 3 < v.intDigits + v.fracDigits) :
    ShowsValue mode v.val v.intDigits (3 - v.intDigits) (roundedNum mode v.abs (3 - v.intDigits)) where
  size := by
    have hid := Decimal.intDigits_le_three hv
    exact ⟨v.intDigits_spec.1, by omega, v.intDigits_abs.1, v.intDigits_abs.2⟩
  number := by
    have nearest := roundedNum_spec mode v.abs (3 - v.intDigits)
    rw [v.abs_abs_val] at nearest
    refine .inr ⟨rfl, fun e he hfit => ?_, nearest⟩
    have hid := Decimal.intDigits_le_three hv
    have places := (fitsIn_iff v e).1 hfit
    omega

/-- A value in range that does not carry is shown in a window. -/
theorem fmtDecimal_window {ind : BitVec 2} {s : State} (hind : ind ≠ 3) (hv : |v.val| ≤ 999) (hc : ¬ carries v.val) :
    ∃ (a : Decimal) (id fd m : Nat), m * 10 ^ a.scale = a.coeff * 10 ^ fd ∧
      ShowsValue s.params.roundMode v.val id fd m ∧
      returnsOnly (.fmtDecimal v ind) s (.frame (Shown.frame ⟨a, id, fd⟩ s.params v.isNegative ind)) := by
  rcases Nat.lt_or_ge 3 (v.intDigits + v.fracDigits) with hlong | hfits
  · have hround : ¬ 1000 ≤ roundedNum s.params.roundMode v.abs (3 - v.intDigits) := fun h =>
      hc ((carry_iff s.params.roundMode hv).1 ⟨hlong, h⟩)
    exact ⟨_, _, _, _, rfl, showsValue_of_rounds s.params.roundMode hv hlong,
      execFmtDecimal_of_rounds hind hv hlong hround⟩
  · obtain ⟨m, hm⟩ := v.exists_num
    exact ⟨v.abs, _, _, m, hm, showsValue_of_fits s.params.roundMode hfits hm, execFmtDecimal_of_fits hind hv hfits⟩

end Window

/-- Settles O28: the value is shown in a window (`fmtDecimal_window`), whose frame is `Shown.frame_spec`'s. -/
theorem fmtDecimalShowsTheRoundedValue : Obligations.FmtDecimalShowsTheRoundedValue := by
  intro v ind s hind hv hc
  obtain ⟨a, id, fd, m, hm, ⟨size, number⟩, hx⟩ := fmtDecimal_window (s := s) hind hv hc
  obtain ⟨slots, red, green, blue⟩ := Shown.frame_spec a id fd m s.params v.isNegative ind hind hm
  simp only [v.isNegative_iff] at slots red green blue
  exact ⟨_, id, fd, m, hx, size, number, slots, red, green, blue⟩

/-! ### FMT_TEXT (43_frame_format.md section 1) -/

/-- The frame of the last three tokens, dark where there is none. -/
def textWindow (tokens : List Glyph) : Frame :=
  ⟨tokens.reverse.getD 2 0x00, tokens.reverse.getD 1 0x00, tokens.reverse.getD 0 0x00, false, false, false⟩

/-- The space is dark (decision D5). -/
theorem symGlyph_space (p : Params) : p.symGlyph 0x20 false = 0x00 := rfl

theorem textFrame_eq (p : Params) (text : List CharCode) : textFrame p text = textWindow (tokenise p text) := by
  rw [textFrame, rightAlign, textWindow, symGlyph_space]
  rcases (tokenise p text).reverse with _ | ⟨a, _ | ⟨b, _ | ⟨c, more⟩⟩⟩ <;> rfl

theorem returnsOnly_fmtText (text : List CharCode) (s : State) :
    returnsOnly (.fmtText text) s (.frame (textWindow (tokenise s.params text))) := by
  show execFmtText text s = .next (s.complete _)
  rw [execFmtText, textFrame_eq]

/-- Settles O23: the window of the tokens (`returnsOnly_fmtText`), slot by slot. -/
theorem fmtTextIsRightAligned : Obligations.FmtTextIsRightAligned := by
  intro text s
  refine ⟨_, returnsOnly_fmtText text s, fun k hk => ?_, rfl, rfl, rfl⟩
  interval_cases k <;> rfl

/-- Pushing the tokens in from the right, one by one, gives their window. -/
theorem foldl_pushed (tokens : List Glyph) :
    tokens.foldl (fun f g => f.pushed g false) blankFrame = textWindow tokens := by
  induction tokens using List.reverseRecOn with
  | nil => rfl
  | append_singleton tokens g ih =>
    rw [List.foldl_append, ih]
    simp [textWindow, Frame.pushed]

/-- Settles O24, by `foldl_pushed`. -/
theorem fmtTextEqualsScrollingIn : Obligations.FmtTextEqualsScrollingIn := by
  intro text s
  rw [foldl_pushed]
  exact returnsOnly_fmtText text s

theorem tokenise_period (p : Params) (c : CharCode) (rest : List CharCode) :
    tokenise p (c :: 0x2E :: rest) = p.charGlyph c true :: tokenise p rest := by
  rw [tokenise]
  exact if_pos rfl

theorem tokenise_no_period (p : Params) (c : CharCode) {rest : List CharCode} (h : rest.head? ≠ some 0x2E) :
    tokenise p (c :: rest) = p.charGlyph c false :: tokenise p rest := by
  cases rest with
  | nil => rfl
  | cons d rest =>
    rw [tokenise]
    exact if_neg fun hd => h (by simp [hd, periodChar])

/-- A token takes one character or two. -/
theorem positions_bounds (p : Params) (text : List CharCode) :
    (text.length + 1) / 2 ≤ positions p text ∧ positions p text ≤ text.length := by
  unfold positions
  induction text using tokenise.induct with
  | case1 => simp [tokenise]
  | case2 c => simp [tokenise]
  | case3 c rest ih =>
    rw [tokenise, if_pos rfl]
    simp only [List.length_cons]
    omega
  | case4 c d rest hd ih =>
    rw [tokenise, if_neg hd]
    simp only [List.length_cons] at ih ⊢
    omega

/-- Settles O25: one token for a character with or without its period, and the lengths along the scan. -/
theorem tokensFoldPeriods : Obligations.TokensFoldPeriods := by
  intro p c rest text
  exact ⟨rfl, tokenise_period p c rest, tokenise_no_period p c, positions_bounds p text⟩

end Sys2Proof.Machine

namespace Sys2Proof

/-! ### Glyph lookup (41_glyph_encoder.md R81 to R86, R89) -/

theorem Params.withPoint_eq (p : Params) (g : Glyph) (point : Bool) :
    p.withPoint g point = if point then g ||| (1#8 <<< (p.pointBit : Nat)) else g := rfl

theorem lastDigit_of_lt {n : Nat} (h : n < 10) : lastDigit n = ⟨n, h⟩ :=
  Fin.ext (Nat.mod_eq_of_lt h)

/-- The keys `symLookup` tries, in its order (R83). -/
theorem Params.symLookup_cases (p : Params) (c : CharCode) :
    p.sym c = some (p.symLookup c) ∨
      (p.sym c = none ∧ p.sym (upper c) = some (p.symLookup c)) ∨
      (p.sym c = none ∧ p.sym (upper c) = none ∧ p.sym (lower c) = some (p.symLookup c)) ∨
      (p.sym c = none ∧ p.sym (upper c) = none ∧ p.sym (lower c) = none ∧ p.sym 0x3F = some (p.symLookup c)) := by
  have question : p.sym 0x3F = some p.symQuestion := rfl
  cases h1 : p.sym c with
  | some g => simp [Params.symLookup, h1]
  | none =>
    cases h2 : p.sym (upper c) with
    | some g => simp [Params.symLookup, h1, h2]
    | none =>
      cases h3 : p.sym (lower c) with
      | some g => simp [Params.symLookup, h1, h2, h3]
      | none => simp [Params.symLookup, h1, h2, h3, question]

section Case
variable {c : Nat}

theorem upper_upper : upper (upper c) = upper c := by
  unfold upper
  split_ifs <;> omega

/-- A character with two case forms is a letter, and each form leads to the other. -/
theorem upper_lower (h : upper c ≠ lower c) : upper (lower c) = upper c := by
  unfold upper lower at *
  split_ifs at * <;> omega

theorem lower_upper (h : upper c ≠ lower c) : lower (upper c) = lower c := by
  unfold upper lower at *
  split_ifs at * <;> omega

end Case

/-- A letter with a key in one case only is looked up as that key in both (90_conflicts.md C4). -/
theorem Params.symLookup_upper_eq_lower {p : Params} {c : CharCode} (h : upper c ≠ lower c)
    (one : (p.sym (upper c)).isSome ≠ (p.sym (lower c)).isSome) :
    p.symLookup (upper c) = p.symLookup (lower c) := by
  cases hu : p.sym (upper c) with
  | some g =>
    have hl : p.sym (lower c) = none := by simpa [hu] using one
    simp [Params.symLookup, hu, hl, upper_lower h]
  | none =>
    obtain ⟨g, hl⟩ := Option.ne_none_iff_exists'.1 (show p.sym (lower c) ≠ none by simpa [hu] using one)
    simp [Params.symLookup, hu, hl, upper_upper, lower_upper h]

theorem charDigit_of_digit {c : Nat} (h : 0x30 ≤ c ∧ c ≤ 0x39) : charDigit c = some (lastDigit (c - 0x30)) := if_pos h

theorem charDigit_of_other {c : Nat} (h : ¬ (0x30 ≤ c ∧ c ≤ 0x39)) : charDigit c = none := if_neg h

/-! ### Indicators of a frame (42_frame_ops.md R91) -/

section SetIndicator
variable (f : Frame) {ind : BitVec 2} (value : Bool) (h : ind ≠ 3)
include h

theorem Frame.setIndicator_red : (f.setIndicator ind value).red = if ind = 0 then value else f.red := by
  obtain rfl | rfl | rfl := slotIndex_cases h <;> rfl

theorem Frame.setIndicator_green : (f.setIndicator ind value).green = if ind = 1 then value else f.green := by
  obtain rfl | rfl | rfl := slotIndex_cases h <;> rfl

theorem Frame.setIndicator_blue : (f.setIndicator ind value).blue = if ind = 2 then value else f.blue := by
  obtain rfl | rfl | rfl := slotIndex_cases h <;> rfl

end SetIndicator

/-! ### The command of FRAME_NEW (42_frame_ops.md R90; log entry 1) -/

theorem readOptional_end : readOptional [] = .ok (false, []) := rfl

theorem readOptional_left_out (rest : List Byte) : readOptional (2#8 :: rest) = .ok (false, rest) := rfl

theorem decode_frameNew (p : Params) {bs : List Byte} {f : Frame} (h : readNewFrame bs = .ok (f, [])) :
    decode p (0x06 :: bs) = .ok (.frameNew f.g2 f.g1 f.g0 f.red f.green f.blue) := by
  refine decode_of_readOperands (rest := []) ?_ rfl
  show (readNewFrame bs).andThen _ = _
  rw [h]
  rfl

end Sys2Proof

namespace Sys2Proof.Machine

open Sys2Proof

/-! ### The pure operations on glyphs and frames -/

theorem slotGlyph_setIndicator (f : Frame) (ind : BitVec 2) (value : Bool) (k : Nat) :
    slotGlyph (f.setIndicator ind value) k = slotGlyph f k := by
  unfold Frame.setIndicator
  split <;> rfl

theorem returnsOnly_encDigit {d : BitVec 4} (point : Bool) (s : State) (h : d.toNat < 10) :
    returnsOnly (.encDigit d point) s (.glyph (s.params.digitGlyph ⟨d.toNat, h⟩ point)) := by
  show execEncDigit d point s = .next (s.complete _)
  rw [execEncDigit, if_neg (by omega), lastDigit_of_lt h]

theorem raisesOnly_encDigit {d : BitVec 4} (point : Bool) (s : State) (h : 10 ≤ d.toNat) :
    raisesOnly (.encDigit d point) s (.invalidArgument (.digit d)) := by
  show execEncDigit d point s = .next (s.raise _)
  exact if_pos h

theorem returnsOnly_encSymbol (c : CharCode) (point : Bool) (s : State) :
    returnsOnly (.encSymbol c point) s (.glyph (s.params.symGlyph c point)) := by
  show execEncSymbol c point s = .next (s.complete _)
  rfl

/-- Settles O14: a digit below 10 is its own entry of the table (`returnsOnly_encDigit`). -/
theorem encDigitReadsTheDigitTable : Obligations.EncDigitReadsTheDigitTable := by
  intro d point s
  refine ⟨fun h => ?_, raisesOnly_encDigit point s⟩
  have run := returnsOnly_encDigit point s h
  rwa [Params.digitGlyph, Params.withPoint_eq] at run

/-- Settles O15: the glyph is that of `symLookup`, which tries its keys in order (`symLookup_cases`). -/
theorem encSymbolTriesThreeKeys : Obligations.EncSymbolTriesThreeKeys := by
  intro c point s
  have run := returnsOnly_encSymbol c point s
  rw [Params.symGlyph, Params.withPoint_eq] at run
  exact ⟨s.params.symLookup c, run, s.params.symLookup_cases c⟩

/-- Settles O16: both cases are looked up as the one key (`symLookup_upper_eq_lower`). -/
theorem singleCaseLettersIgnoreCase : Obligations.SingleCaseLettersIgnoreCase := by
  intro c point s hcase one
  refine ⟨_, returnsOnly_encSymbol (upper c) point s, ?_⟩
  rw [Params.symGlyph, Params.symLookup_upper_eq_lower hcase one]
  exact returnsOnly_encSymbol (lower c) point s

/-- By whether the character is a digit (R86). -/
theorem returnsOnly_encCharOp (c : Nat) (point : Bool) (s : State) :
    returnsOnly (Instr.encCharOp c point) s (.glyph (s.params.charGlyph c point)) := by
  rw [Instr.encCharOp, Params.charGlyph]
  by_cases hc : 0x30 ≤ c ∧ c ≤ 0x39
  · have hlt : c - 0x30 < 10 := by omega
    have hd : (BitVec.ofNat 4 (c - 0x30)).toNat = c - 0x30 := by
      rw [BitVec.toNat_ofNat]
      omega
    have run := returnsOnly_encDigit (d := BitVec.ofNat 4 (c - 0x30)) point s (by omega)
    simp only [hd] at run
    rwa [if_pos hc, charDigit_of_digit hc, lastDigit_of_lt hlt]
  · rw [if_neg hc, charDigit_of_other hc]
    exact returnsOnly_encSymbol c point s

/-- Settles O18, by `returnsOnly_encCharOp`. -/
theorem encCharIsTheFormatterEncoding : Obligations.EncCharIsTheFormatterEncoding :=
  fun c point s => returnsOnly_encCharOp c point s

theorem returnsOnly_withStatus (f : Frame) {ind : BitVec 2} (value : Bool) (s : State) (h : ind ≠ 3) :
    returnsOnly (.withStatus f ind value) s (.frame (f.setIndicator ind value)) := by
  show execWithStatus f ind value s = .next (s.complete _)
  exact if_neg h

theorem raisesOnly_withStatus (f : Frame) {ind : BitVec 2} (value : Bool) (s : State) (h : ind = 3) :
    raisesOnly (.withStatus f ind value) s (.invalidArgument (.indicator ind)) := by
  show execWithStatus f ind value s = .next (s.raise _)
  exact if_pos h

/-- Settles O20: a legal code returns `f.setIndicator ind value`, code 3 raises. -/
theorem withStatusSetsOneIndicator : Obligations.WithStatusSetsOneIndicator := by
  intro f ind value s
  refine ⟨fun h => ?_, raisesOnly_withStatus f value s⟩
  exact ⟨f.setIndicator ind value, returnsOnly_withStatus f value s h, f.setIndicator_red value h,
    f.setIndicator_green value h, f.setIndicator_blue value h, fun k _ => slotGlyph_setIndicator f ind value k⟩

/-- Settles O22: the frame is `f.pushed g fromLeft`, by the end the flag names. -/
theorem withPushedShiftsTheGlyphs : Obligations.WithPushedShiftsTheGlyphs := by
  intro f g s
  have run (fromLeft : Bool) : returnsOnly (.withPushed f g fromLeft) s (.frame (f.pushed g fromLeft)) := by
    show execWithPushed f g fromLeft s = .next (s.complete _)
    rfl
  exact ⟨run true, run false⟩

/-- Settles O19: the frame holds the operands, and the reader of the indicators takes one left out as 0. -/
theorem frameNewBuildsTheFrame : Obligations.FrameNewBuildsTheFrame := by
  intro g2 g1 g0 red green blue s
  refine ⟨⟨g2, g1, g0, red, green, blue⟩, rfl, rfl, rfl, rfl, rfl, rfl, rfl, rfl, fun p => ⟨?_, ?_, ?_, ?_⟩⟩
  · exact decode_frameNew p (f := ⟨g2, g1, g0, false, false, false⟩) (by simp [readNewFrame, readOptional_end])
  · exact decode_frameNew p (f := ⟨g2, g1, g0, false, green, blue⟩)
      (by simp [readNewFrame, readOptional_left_out])
  · exact decode_frameNew p (f := ⟨g2, g1, g0, red, false, blue⟩)
      (by simp [readNewFrame, readOptional_left_out])
  · exact decode_frameNew p (f := ⟨g2, g1, g0, red, green, false⟩) (by simp [readNewFrame, readOptional_end])

end Sys2Proof.Machine
